-- ==== Sys2Proof/Word.lean ====
section
/-! DEFINITION. The plain data types the engine works on: bytes, the decoder phase, a built Huffman code, and the
record of the element the engine is in the middle of reading. No arithmetic of the engine stands here. -/

namespace Sys2Proof

/-- An input, output or window byte (R80, R90: 8 bits). -/
abbrev Byte := BitVec 8

/-- Register `phase` (R41), the program-counter analogue. The values 13 to 15 are never held, so they have no
constructor; the 4-bit numbers are `Machine.Phase.code` in Machine/Flags.lean. -/
inductive Phase where
  | hdr | dynHdr | dynCll | dynLens | token | lenExtra | distSym | distExtra | copy
  | storedHdr | storedCopy | done | error
deriving DecidableEq, Repr

/-- One entry of a built code (R202, R205): `T.len[s]`, 0 for an unused symbol, and `T.code[s]`. -/
structure Codeword where
  len : BitVec 4
  code : BitVec 15
deriving DecidableEq, Repr

/-- A built code (R52, R205): one entry per symbol of its alphabet, in symbol order. -/
abbrev Code := List Codeword

/-- Which part of a codeword element has been reached (the MODEL's own register, log entry 2): its start, inside the
codeword, or inside the extra bits of a code-length symbol. -/
inductive Part where
  | start | code | extra
deriving DecidableEq, Repr

/-- The registers that say how far the current element has been read. `phase`, `curCode`, `curLen` and `pendSym` are
the spec's (R41, R54, R55); `part` and `fld` are the model's own (log entry 2): `fld` holds the bits of the current
fixed-width field that have been consumed, first one first. -/
structure Reader where
  phase : Phase
  part : Part
  curCode : BitVec 15
  curLen : BitVec 4
  pendSym : BitVec 5
  fld : List Bool
deriving DecidableEq, Repr

/-- What decoding depends on beside the reader: the code registers (R52) and `prev_valid` (R53), which decides whether
symbol 16 has its extra bits read (R217). -/
structure Codes where
  ll : Code
  d : Code
  cl : Code
  prevValid : Bool
deriving DecidableEq, Repr

end Sys2Proof
end

