-- ==== Sys2Proof/Config.lean ====
section
/-! DEFINITION. What is fixed for one engine: the parameters of R7 and the one open parameter of R8. The spec leaves no
value of any instruction open (93_implementation_defined.md, part A), so no free value stands here. -/

namespace Sys2Proof

/-- `WSIZE` (R7): the window's capacity in bytes. -/
def Config.wsize : Nat := 32768

/-- `LL_SYMS` (R7): size of the literal/length alphabet. -/
def Config.llSyms : Nat := 288

/-- `D_SYMS` (R7): size of the distance alphabet. -/
def Config.dSyms : Nat := 32

/-- `CL_SYMS` (R7): size of the code-length alphabet. -/
def Config.clSyms : Nat := 19

/-- `MAX_LL_D_BITS` (R7): the longest lit/len or distance codeword. -/
def Config.maxLlDBits : Nat := 15

/-- `MAX_CL_BITS` (R7): the longest code-length codeword. -/
def Config.maxClBits : Nat := 7

/-- `MAX_LENS` (R7): the largest HLIT+HDIST. -/
def Config.maxLens : Nat := 320

/-- The open parameter of the engine (R8, decision D10). The machine carries it in its state, where no step changes it,
so every statement about every state holds for both of its values (log entry 5). -/
structure Config where
  /-- `STRICT_COUNTS`: whether a dynamic header with HLIT > 286 or HDIST > 30 is rejected (R212). -/
  strictCounts : Bool
deriving DecidableEq, Repr

/-- R8: "The spec's default is `false`." -/
def Config.default : Config := { strictCounts := false }

end Sys2Proof
end

