-- ==== Sys2Proof/Syntax.lean ====
section
/-! DEFINITION. The instructions of the engine: the elements of the bitstream (R120, R137), one constructor per row of
spec/opcode_table.json. An operand is the field's bits as the stream carries them; bases are added by the meanings. -/

namespace Sys2Proof

/-- One element of the bitstream (R14 "Element", R137). -/
inductive Instr where
  /-- BH with BTYPE = 0 (R173); the operand is BFINAL. -/
  | bhStored (final : Bool)
  /-- BH with BTYPE = 1 (R174); the operand is BFINAL. -/
  | bhFixed (final : Bool)
  /-- BH with BTYPE = 2 (R175); the operand is BFINAL. -/
  | bhDynamic (final : Bool)
  /-- BH with BTYPE = 3, reserved (R176); the operand is BFINAL. -/
  | bhReserved (final : Bool)
  /-- DH (R125, R211): the fields HLIT, HDIST and HCLEN, without their offsets. -/
  | dynHeader (hlit hdist : BitVec 5) (hclen : BitVec 4)
  /-- CLL (R125, R213): one 3-bit code-length code length. -/
  | clCodeLength (len : BitVec 3)
  /-- CLS symbols 0 to 15 (R216): one code length. -/
  | clLen (sym : BitVec 4)
  /-- CLS symbol 16 (R217): repeat the previous length 3 + extra times. -/
  | clRepPrev (extra : BitVec 2)
  /-- CLS symbol 17 (R218): repeat length 0, 3 + extra times. -/
  | clRepZ3 (extra : BitVec 3)
  /-- CLS symbol 18 (R219): repeat length 0, 11 + extra times. -/
  | clRepZ11 (extra : BitVec 7)
  /-- TK symbols 0 to 255 (R261): a literal byte. -/
  | lit (b : BitVec 8)
  /-- TK symbol 256 (R262): end of block. -/
  | eob
  /-- TK symbol 257 (R263): length 3. -/
  | len257
  /-- TK symbol 258 (R264): length 4. -/
  | len258
  /-- TK symbol 259 (R265): length 5. -/
  | len259
  /-- TK symbol 260 (R266): length 6. -/
  | len260
  /-- TK symbol 261 (R267): length 7. -/
  | len261
  /-- TK symbol 262 (R268): length 8. -/
  | len262
  /-- TK symbol 263 (R269): length 9. -/
  | len263
  /-- TK symbol 264 (R270): length 10. -/
  | len264
  /-- TK symbol 265 (R271): length 11 + extra. -/
  | len265 (extra : BitVec 1)
  /-- TK symbol 266 (R272): length 13 + extra. -/
  | len266 (extra : BitVec 1)
  /-- TK symbol 267 (R273): length 15 + extra. -/
  | len267 (extra : BitVec 1)
  /-- TK symbol 268 (R274): length 17 + extra. -/
  | len268 (extra : BitVec 1)
  /-- TK symbol 269 (R275): length 19 + extra. -/
  | len269 (extra : BitVec 2)
  /-- TK symbol 270 (R276): length 23 + extra. -/
  | len270 (extra : BitVec 2)
  /-- TK symbol 271 (R277): length 27 + extra. -/
  | len271 (extra : BitVec 2)
  /-- TK symbol 272 (R278): length 31 + extra. -/
  | len272 (extra : BitVec 2)
  /-- TK symbol 273 (R279): length 35 + extra. -/
  | len273 (extra : BitVec 3)
  /-- TK symbol 274 (R280): length 43 + extra. -/
  | len274 (extra : BitVec 3)
  /-- TK symbol 275 (R281): length 51 + extra. -/
  | len275 (extra : BitVec 3)
  /-- TK symbol 276 (R282): length 59 + extra. -/
  | len276 (extra : BitVec 3)
  /-- TK symbol 277 (R283): length 67 + extra. -/
  | len277 (extra : BitVec 4)
  /-- TK symbol 278 (R284): length 83 + extra. -/
  | len278 (extra : BitVec 4)
  /-- TK symbol 279 (R285): length 99 + extra. -/
  | len279 (extra : BitVec 4)
  /-- TK symbol 280 (R286): length 115 + extra. -/
  | len280 (extra : BitVec 4)
  /-- TK symbol 281 (R287): length 131 + extra. -/
  | len281 (extra : BitVec 5)
  /-- TK symbol 282 (R288): length 163 + extra. -/
  | len282 (extra : BitVec 5)
  /-- TK symbol 283 (R289): length 195 + extra. -/
  | len283 (extra : BitVec 5)
  /-- TK symbol 284 (R290): length 227 + extra. -/
  | len284 (extra : BitVec 5)
  /-- TK symbol 285 (R291): length 258. -/
  | len285
  /-- TK symbol 286, undefined (R292). -/
  | llRsv286
  /-- TK symbol 287, undefined (R293). -/
  | llRsv287
  /-- DSYM symbol 0 (R301): distance 1. -/
  | dist0
  /-- DSYM symbol 1 (R302): distance 2. -/
  | dist1
  /-- DSYM symbol 2 (R303): distance 3. -/
  | dist2
  /-- DSYM symbol 3 (R304): distance 4. -/
  | dist3
  /-- DSYM symbol 4 (R305): distance 5 + extra. -/
  | dist4 (extra : BitVec 1)
  /-- DSYM symbol 5 (R306): distance 7 + extra. -/
  | dist5 (extra : BitVec 1)
  /-- DSYM symbol 6 (R307): distance 9 + extra. -/
  | dist6 (extra : BitVec 2)
  /-- DSYM symbol 7 (R308): distance 13 + extra. -/
  | dist7 (extra : BitVec 2)
  /-- DSYM symbol 8 (R309): distance 17 + extra. -/
  | dist8 (extra : BitVec 3)
  /-- DSYM symbol 9 (R310): distance 25 + extra. -/
  | dist9 (extra : BitVec 3)
  /-- DSYM symbol 10 (R311): distance 33 + extra. -/
  | dist10 (extra : BitVec 4)
  /-- DSYM symbol 11 (R312): distance 49 + extra. -/
  | dist11 (extra : BitVec 4)
  /-- DSYM symbol 12 (R313): distance 65 + extra. -/
  | dist12 (extra : BitVec 5)
  /-- DSYM symbol 13 (R314): distance 97 + extra. -/
  | dist13 (extra : BitVec 5)
  /-- DSYM symbol 14 (R315): distance 129 + extra. -/
  | dist14 (extra : BitVec 6)
  /-- DSYM symbol 15 (R316): distance 193 + extra. -/
  | dist15 (extra : BitVec 6)
  /-- DSYM symbol 16 (R317): distance 257 + extra. -/
  | dist16 (extra : BitVec 7)
  /-- DSYM symbol 17 (R318): distance 385 + extra. -/
  | dist17 (extra : BitVec 7)
  /-- DSYM symbol 18 (R319): distance 513 + extra. -/
  | dist18 (extra : BitVec 8)
  /-- DSYM symbol 19 (R320): distance 769 + extra. -/
  | dist19 (extra : BitVec 8)
  /-- DSYM symbol 20 (R321): distance 1025 + extra. -/
  | dist20 (extra : BitVec 9)
  /-- DSYM symbol 21 (R322): distance 1537 + extra. -/
  | dist21 (extra : BitVec 9)
  /-- DSYM symbol 22 (R323): distance 2049 + extra. -/
  | dist22 (extra : BitVec 10)
  /-- DSYM symbol 23 (R324): distance 3073 + extra. -/
  | dist23 (extra : BitVec 10)
  /-- DSYM symbol 24 (R325): distance 4097 + extra. -/
  | dist24 (extra : BitVec 11)
  /-- DSYM symbol 25 (R326): distance 6145 + extra. -/
  | dist25 (extra : BitVec 11)
  /-- DSYM symbol 26 (R327): distance 8193 + extra. -/
  | dist26 (extra : BitVec 12)
  /-- DSYM symbol 27 (R328): distance 12289 + extra. -/
  | dist27 (extra : BitVec 12)
  /-- DSYM symbol 28 (R329): distance 16385 + extra. -/
  | dist28 (extra : BitVec 13)
  /-- DSYM symbol 29 (R330): distance 24577 + extra. -/
  | dist29 (extra : BitVec 13)
  /-- DSYM symbol 30, undefined (R331). -/
  | dRsv30
  /-- DSYM symbol 31, undefined (R332). -/
  | dRsv31
  /-- ST header (R123, R390 to R394): LEN and NLEN. The PAD bits before them carry no operand. -/
  | stHeader (len nlen : BitVec 16)
  /-- ST DATA (R395): one raw byte. -/
  | stData (b : BitVec 8)
deriving DecidableEq, Repr

end Sys2Proof
end

