-- ==== Sys2Proof/Machine/Operands.lean ====
section
/-! DEFINITION. Operand forms: bit fields, the length and distance tables (R131, R132), the code-length permutation
(R213), and how an operand is assembled from a base and an extra-bits field (R129). Nothing here reads the state. -/

namespace Sys2Proof

/-- The value of a field whose first-consumed bit is bit 0 (R11, R83). -/
def bitsToNat : List Bool → Nat
  | [] => 0
  | b :: bs => b.toNat + 2 * bitsToNat bs

/-- The `n` bits of a field in the order they are consumed, bit 0 first (R11, R83). -/
def lsbBits : Nat → Nat → List Bool
  | 0, _ => []
  | n + 1, v => (v % 2 == 1) :: lsbBits n (v / 2)

/-- The `n` bits of a Huffman codeword in the order they are consumed, most significant first (R121, R206). -/
def msbBits (n v : Nat) : List Bool := (lsbBits n v).reverse

/-- The bits of the input in stream order: bit `j` is bit `j mod 8` of byte `j div 8` (R80). -/
def byteBits (bs : List Byte) : List Bool := bs.flatMap fun b => lsbBits 8 b.toNat

/-- Bytes filled with bits, least significant first (R136). The last byte is filled up with zeros. -/
def bitsToBytes : Nat → List Bool → List Byte
  | 0, _ => []
  | n + 1, bits => BitVec.ofNat 8 (bitsToNat (bits.take 8)) :: bitsToBytes n (bits.drop 8)

/-- `LEN_BASE[257 + k]` at index `k` (R131). -/
def lenBase : List Nat :=
  [3, 4, 5, 6, 7, 8, 9, 10, 11, 13, 15, 17, 19, 23, 27] ++
  [31, 35, 43, 51, 59, 67, 83, 99, 115, 131, 163, 195, 227, 258]

/-- `LEN_XB[257 + k]` at index `k` (R131). -/
def lenXb : List Nat :=
  [0, 0, 0, 0, 0, 0, 0, 0, 1, 1, 1, 1, 2, 2, 2] ++
  [2, 3, 3, 3, 3, 4, 4, 4, 4, 5, 5, 5, 5, 0]

/-- `DIST_BASE[ds]` at index `ds` (R132). -/
def distBase : List Nat :=
  [1, 2, 3, 4, 5, 7, 9, 13, 17, 25, 33, 49, 65, 97, 129, 193] ++
  [257, 385, 513, 769, 1025, 1537, 2049, 3073, 4097, 6145, 8193, 12289, 16385, 24577]

/-- `DIST_XB[ds]` at index `ds` (R132). -/
def distXb : List Nat :=
  [0, 0, 0, 0, 1, 1, 2, 2, 3, 3, 4, 4, 5, 5, 6, 6] ++
  [7, 7, 8, 8, 9, 9, 10, 10, 11, 11, 12, 12, 13, 13]

/-- `CL_ORDER` (R213). -/
def clOrder : List Nat := [16, 17, 18, 0, 8, 7, 9, 6, 10, 5, 11, 4, 12, 3, 13, 2, 14, 1, 15]

/-- HLIT count: field + 257, in 9 bits (R129, R211). -/
def hlitCount (f : BitVec 5) : BitVec 9 := f.setWidth 9 + 257

/-- HDIST count: field + 1, in 6 bits (R129, R211). -/
def hdistCount (f : BitVec 5) : BitVec 6 := f.setWidth 6 + 1

/-- HCLEN count: field + 4, in 5 bits (R129, R211). -/
def hclenCount (f : BitVec 4) : BitVec 5 := f.setWidth 5 + 4

/-- Repeat count of code-length symbols 16 and 17: 3 + extra (R126, R129). -/
def repeat3 (extra : Nat) : Nat := 3 + extra

/-- Repeat count of code-length symbol 18: 11 + extra (R126, R129). -/
def repeat11 (extra : Nat) : Nat := 11 + extra

/-- The length of length code `257 + k`: base + extra, in 9 bits (R129, R294). -/
def lengthOf (k extra : Nat) : BitVec 9 := BitVec.ofNat 9 (lenBase.getD k 0 + extra)

/-- The distance of distance code `ds`: base + extra, in 16 bits (R129, R300). -/
def distanceOf (ds extra : Nat) : BitVec 16 := BitVec.ofNat 16 (distBase.getD ds 0 + extra)

/-- The length of extra-bits field of a code-length symbol (R126). -/
def clsXb (sym : Nat) : Nat :=
  if sym = 16 then 2 else if sym = 17 then 3 else if sym = 18 then 7 else 0

/-- How an element is written in the stream (R122, R123, R125 to R127, R137): as a fixed-width field, or as a codeword of
the alphabet of phase `phase` followed by an extra-bits field. -/
def Instr.form : Instr → Phase × Option Nat × List Bool
  | .bhStored f => (.hdr, none, f :: lsbBits 2 0)
  | .bhFixed f => (.hdr, none, f :: lsbBits 2 1)
  | .bhDynamic f => (.hdr, none, f :: lsbBits 2 2)
  | .bhReserved f => (.hdr, none, f :: lsbBits 2 3)
  | .dynHeader hlit hdist hclen => (.dynHdr, none, lsbBits 5 hlit.toNat ++ lsbBits 5 hdist.toNat ++ lsbBits 4 hclen.toNat)
  | .clCodeLength len => (.dynCll, none, lsbBits 3 len.toNat)
  | .clLen sym => (.dynLens, some sym.toNat, [])
  | .clRepPrev x => (.dynLens, some 16, lsbBits 2 x.toNat)
  | .clRepZ3 x => (.dynLens, some 17, lsbBits 3 x.toNat)
  | .clRepZ11 x => (.dynLens, some 18, lsbBits 7 x.toNat)
  | .lit b => (.token, some b.toNat, [])
  | .eob => (.token, some 256, [])
  | .len257 => (.token, some 257, [])
  | .len258 => (.token, some 258, [])
  | .len259 => (.token, some 259, [])
  | .len260 => (.token, some 260, [])
  | .len261 => (.token, some 261, [])
  | .len262 => (.token, some 262, [])
  | .len263 => (.token, some 263, [])
  | .len264 => (.token, some 264, [])
  | .len265 x => (.token, some 265, lsbBits 1 x.toNat)
  | .len266 x => (.token, some 266, lsbBits 1 x.toNat)
  | .len267 x => (.token, some 267, lsbBits 1 x.toNat)
  | .len268 x => (.token, some 268, lsbBits 1 x.toNat)
  | .len269 x => (.token, some 269, lsbBits 2 x.toNat)
  | .len270 x => (.token, some 270, lsbBits 2 x.toNat)
  | .len271 x => (.token, some 271, lsbBits 2 x.toNat)
  | .len272 x => (.token, some 272, lsbBits 2 x.toNat)
  | .len273 x => (.token, some 273, lsbBits 3 x.toNat)
  | .len274 x => (.token, some 274, lsbBits 3 x.toNat)
  | .len275 x => (.token, some 275, lsbBits 3 x.toNat)
  | .len276 x => (.token, some 276, lsbBits 3 x.toNat)
  | .len277 x => (.token, some 277, lsbBits 4 x.toNat)
  | .len278 x => (.token, some 278, lsbBits 4 x.toNat)
  | .len279 x => (.token, some 279, lsbBits 4 x.toNat)
  | .len280 x => (.token, some 280, lsbBits 4 x.toNat)
  | .len281 x => (.token, some 281, lsbBits 5 x.toNat)
  | .len282 x => (.token, some 282, lsbBits 5 x.toNat)
  | .len283 x => (.token, some 283, lsbBits 5 x.toNat)
  | .len284 x => (.token, some 284, lsbBits 5 x.toNat)
  | .len285 => (.token, some 285, [])
  | .llRsv286 => (.token, some 286, [])
  | .llRsv287 => (.token, some 287, [])
  | .dist0 => (.distSym, some 0, [])
  | .dist1 => (.distSym, some 1, [])
  | .dist2 => (.distSym, some 2, [])
  | .dist3 => (.distSym, some 3, [])
  | .dist4 x => (.distSym, some 4, lsbBits 1 x.toNat)
  | .dist5 x => (.distSym, some 5, lsbBits 1 x.toNat)
  | .dist6 x => (.distSym, some 6, lsbBits 2 x.toNat)
  | .dist7 x => (.distSym, some 7, lsbBits 2 x.toNat)
  | .dist8 x => (.distSym, some 8, lsbBits 3 x.toNat)
  | .dist9 x => (.distSym, some 9, lsbBits 3 x.toNat)
  | .dist10 x => (.distSym, some 10, lsbBits 4 x.toNat)
  | .dist11 x => (.distSym, some 11, lsbBits 4 x.toNat)
  | .dist12 x => (.distSym, some 12, lsbBits 5 x.toNat)
  | .dist13 x => (.distSym, some 13, lsbBits 5 x.toNat)
  | .dist14 x => (.distSym, some 14, lsbBits 6 x.toNat)
  | .dist15 x => (.distSym, some 15, lsbBits 6 x.toNat)
  | .dist16 x => (.distSym, some 16, lsbBits 7 x.toNat)
  | .dist17 x => (.distSym, some 17, lsbBits 7 x.toNat)
  | .dist18 x => (.distSym, some 18, lsbBits 8 x.toNat)
  | .dist19 x => (.distSym, some 19, lsbBits 8 x.toNat)
  | .dist20 x => (.distSym, some 20, lsbBits 9 x.toNat)
  | .dist21 x => (.distSym, some 21, lsbBits 9 x.toNat)
  | .dist22 x => (.distSym, some 22, lsbBits 10 x.toNat)
  | .dist23 x => (.distSym, some 23, lsbBits 10 x.toNat)
  | .dist24 x => (.distSym, some 24, lsbBits 11 x.toNat)
  | .dist25 x => (.distSym, some 25, lsbBits 11 x.toNat)
  | .dist26 x => (.distSym, some 26, lsbBits 12 x.toNat)
  | .dist27 x => (.distSym, some 27, lsbBits 12 x.toNat)
  | .dist28 x => (.distSym, some 28, lsbBits 13 x.toNat)
  | .dist29 x => (.distSym, some 29, lsbBits 13 x.toNat)
  | .dRsv30 => (.distSym, some 30, [])
  | .dRsv31 => (.distSym, some 31, [])
  | .stHeader len nlen => (.storedHdr, none, lsbBits 16 len.toNat ++ lsbBits 16 nlen.toNat)
  | .stData b => (.storedCopy, none, lsbBits 8 b.toNat)

end Sys2Proof
end

