-- ==== Sys2Proof/Machine/Huffman.lean ====
section
/-! DEFINITION. Canonical Huffman codes (41_huffman_tables.md, R200 to R210): the code builder, the two tests of the
symbol decoder, and the fixed codes. Nothing here reads the state. -/

namespace Sys2Proof

/-- `count[b]` (R202): how many symbols have length `b`. -/
def countLen (L : List (BitVec 4)) (b : Nat) : Nat := (L.filter fun l => l.toNat == b).length

/-- The Kraft sum `K(L)` over `maxbits` (R201), grouped by length as `Build` does (R202). -/
def kraftSum (maxbits : Nat) (L : List (BitVec 4)) : Nat :=
  ((List.range maxbits).map fun k => countLen L (k + 1) * 2 ^ (maxbits - (k + 1))).sum

/-- The first codewords `next[b]`, `next[b+1]`, … of `n` successive lengths (R202): `code` is the value reached after
length `b - 1`, and `count[0]` counts as 0. -/
def firstCodes (L : List (BitVec 4)) : Nat → Nat → Nat → List Nat
  | 0, _, _ => []
  | n + 1, b, code =>
    let first := 2 * (code + (if b ≤ 1 then 0 else countLen L (b - 1)))
    first :: firstCodes L n (b + 1) first

/-- The assignment loop of `Build` (R202), in ascending symbol order; `next` is indexed by length. The codeword of an
unused symbol is stored as 0 and never compared (log entry 6). -/
def assignCodes : List (BitVec 4) → List Nat → Code
  | [], _ => []
  | l :: ls, next =>
    if l = 0 then { len := 0, code := 0 } :: assignCodes ls next
    else
      { len := l, code := BitVec.ofNat 15 (next.getD l.toNat 0) } ::
        assignCodes ls (next.set l.toNat (next.getD l.toNat 0 + 1))

/-- `Build(L, n, maxbits)` (R202); `none` is "raise InvalidHuffmanCode", an over-subscribed code (R201). -/
def build (maxbits : Nat) (L : List (BitVec 4)) : Option Code :=
  if kraftSum maxbits L > 2 ^ maxbits then none
  else some (assignCodes L (0 :: firstCodes L maxbits 1 0))

/-- The symbol whose codeword is `code` in `len` bits (R206, first test of the loop). -/
def findSymbol (T : Code) (len : BitVec 4) (code : BitVec 15) : Option Nat :=
  T.findIdx? fun w => w.len == len && w.code == code

/-- Whether `code` in `len` bits begins some longer codeword (R206, second test of the loop). -/
def beginsCodeword (T : Code) (len : BitVec 4) (code : BitVec 15) : Bool :=
  T.any fun w => decide (len < w.len) && w.code >>> (w.len.toNat - len.toNat) == code

/-- Whether symbol `s` has a codeword in `T` (R200). -/
def hasCodeword (T : Code) (s : Nat) : Bool :=
  match T[s]? with
  | some w => w.len != 0
  | none => false

/-- The codeword of symbol `s`, in the order its bits are read (R205, R206). -/
def codewordBits (T : Code) (s : Nat) : List Bool :=
  match T[s]? with
  | some w => msbBits w.len.toNat w.code.toNat
  | none => []

/-- The lengths `FL` of the fixed literal/length code (R208). -/
def fixedLlLens : List (BitVec 4) :=
  List.replicate 144 8 ++ List.replicate 112 9 ++ List.replicate 24 7 ++ List.replicate 8 8

/-- The lengths `FD` of the fixed distance code (R209). -/
def fixedDLens : List (BitVec 4) := List.replicate 32 5

/-- `FIXED_LL` (R208). -/
def fixedLl : Code := (build Config.maxLlDBits fixedLlLens).getD []

/-- `FIXED_D` (R209). -/
def fixedD : Code := (build Config.maxLlDBits fixedDLens).getD []

end Sys2Proof
end

