-- ==== Sys2Proof/Machine/State.lean ====
section
/-! DEFINITION. Everything the spec gives the machine (10_state.md, R470), as plain data, with the host's side of the two
ports held as data beside it (R31, R32), and the state right after reset. -/

namespace Sys2Proof.Machine

/-- The error kinds and register `err` (R61, R429), in the order of their codes 0 to 7. -/
inductive ErrCode where
  | none | unexpectedEndOfInput | reservedBlockType | invalidDynamicTableDescription
  | invalidDistance | storedBlockLengthMismatch | invalidHuffmanCode | sourceError
deriving DecidableEq, Repr

/-- What the source drives on the input port in one cycle in which the engine needs a byte (R31, R81). A sample with all
three signals low is a cycle of waiting. -/
structure InSample where
  inValid : Bool
  inData : Byte
  inEnd : Bool
  inErr : Bool
deriving DecidableEq, Repr

/-- The window (R58), as address and byte pairs with rising addresses. An address that is not listed has not been
written since reset and holds no value (R58, R470, log entry 4). -/
abbrev Memory := List Host.Cell

/-- Why a step stops with a fault. No instruction raises one: both are raised by the copy loop's `WinRead` alone, where
its precondition fails, which R91 says never occurs (U7, R93). Safe: the engine would go on with some byte. -/
inductive Fault where
  /-- `WinRead(d)` with d = 0 or d > `hist` (R91), raised by `copyStep`. Safe. -/
  | winReadPrecondition
  /-- `WinRead(d)` of an entry no `Emit` has written since reset (R58, R470), raised by `copyStep`. Safe. -/
  | winReadUnwritten
deriving DecidableEq, Repr

/-- Why an instruction has no meaning. -/
inductive Refusal where
  /-- The element has no meaning yet, raised by an arm of `exec`. Safe. No arm of this model raises it. -/
  | notModelled (mnemonic : String)
deriving DecidableEq, Repr

/-- The engine's registers and memory, the host's side of its ports, and its parameter. -/
structure State where
  /-- R41. -/
  phase : Phase
  /-- R61. -/
  err : ErrCode
  /-- R43. -/
  bfinal : Bool
  /-- R44. -/
  btype : BitVec 2
  /-- R45: the unconsumed bits of the last byte fetched, next one in bit 0. -/
  bitbuf : BitVec 8
  /-- R45: how many there are, 0 to 8. -/
  bitcnt : BitVec 4
  /-- R46: input bytes fetched since reset, modulo 2^32. -/
  inCount : BitVec 32
  /-- R47, 288 entries. -/
  llLen : List (BitVec 4)
  /-- R48, 32 entries. -/
  dLen : List (BitVec 4)
  /-- R49, 19 entries. -/
  clLen : List (BitVec 3)
  /-- R50, 320 entries. -/
  lens : List (BitVec 4)
  /-- R50. -/
  lenIdx : BitVec 9
  /-- R50. -/
  clIdx : BitVec 5
  /-- R51. -/
  hlit : BitVec 9
  /-- R51. -/
  hdist : BitVec 6
  /-- R51. -/
  hclen : BitVec 5
  /-- R52, the active literal/length code `LL`. -/
  ll : Code
  /-- R52, the active distance code `D`. -/
  d : Code
  /-- R52, the code-length code `CL`. -/
  cl : Code
  /-- R53. -/
  prevLen : BitVec 4
  /-- R53. -/
  prevValid : Bool
  /-- R54. -/
  curCode : BitVec 15
  /-- R54. -/
  curLen : BitVec 4
  /-- R55. -/
  pendLen : BitVec 9
  /-- R55. -/
  pendDist : BitVec 16
  /-- R55. -/
  pendSym : BitVec 5
  /-- R56. -/
  copyRem : BitVec 9
  /-- R57. -/
  storedLen : BitVec 16
  /-- R57. -/
  storedNlen : BitVec 16
  /-- R57. -/
  storedRem : BitVec 16
  /-- R58. -/
  win : Memory
  /-- R59. -/
  wp : BitVec 15
  /-- R60. -/
  hist : BitVec 16
  /-- R62: bytes emitted since reset, modulo 2^32. -/
  outCount : BitVec 32
  /-- R31, R90: a byte is offered to the sink. -/
  outValid : Bool
  /-- R31, R90: that byte. -/
  outData : Byte
  /-- The MODEL's own (log entry 2): how far the current codeword element has been read. -/
  part : Part
  /-- The MODEL's own (log entry 2): the bits of the current field that have been consumed. -/
  fld : List Bool
  /-- The host's pin `rst` (R31, R470) in the coming step (log entry 3). -/
  rst : Bool
  /-- What the source drives in the coming cycles in which the engine needs a byte (R31, R80, R81, log entry 1). -/
  src : List InSample
  /-- The host's pin `out_ready` (R31, R90) in the coming step (log entry 1). -/
  outReady : Bool
  /-- `OUT[0..]` (R90, R94): the bytes the sink has taken since reset, first one first. -/
  out : List Byte
  /-- The engine's parameter (R8). -/
  cfg : Config
deriving DecidableEq, Repr

/-- The machine right after reset (R470), nothing offered on the input port, the sink ready and the parameter at its
default. The registers whose reset value R470 leaves unspecified hold zero (log entry 6). -/
def State.reset : State where
  phase := .hdr
  err := .none
  bfinal := false
  btype := 0
  bitbuf := 0
  bitcnt := 0
  inCount := 0
  llLen := List.replicate 288 0
  dLen := List.replicate 32 0
  clLen := List.replicate 19 0
  lens := List.replicate 320 0
  lenIdx := 0
  clIdx := 0
  hlit := 0
  hdist := 0
  hclen := 0
  ll := List.replicate 288 { len := 0, code := 0 }
  d := List.replicate 32 { len := 0, code := 0 }
  cl := List.replicate 19 { len := 0, code := 0 }
  prevLen := 0
  prevValid := false
  curCode := 0
  curLen := 0
  pendLen := 0
  pendDist := 0
  pendSym := 0
  copyRem := 0
  storedLen := 0
  storedNlen := 0
  storedRem := 0
  win := []
  wp := 0
  hist := 0
  outCount := 0
  outValid := false
  outData := 0
  part := .start
  fld := []
  rst := false
  src := []
  outReady := true
  out := []
  cfg := Config.default

end Sys2Proof.Machine
end

