-- ==== Sys2Proof/Machine/Ops.lean ====
section
/-! DEFINITION. The operations every rule is written with (R12): the window, the bit source, the output port, the error
entry, reset, and the steps several elements share. -/

namespace Sys2Proof.Machine

/-! ### The window's memory (R58, R92) -/

/-- The byte at ring index `a`, if one has been written since reset. -/
def Memory.read : Memory → Nat → Option Byte
  | [], _ => none
  | (a', b) :: m, a => if a = a' then some b else Memory.read m a

/-- The window with byte `b` at ring index `a`; the addresses stay in rising order. -/
def Memory.write : Memory → Nat → Byte → Memory
  | [], a, b => [(a, b)]
  | (a', b') :: m, a, b =>
    if a < a' then (a, b) :: (a', b') :: m
    else if a = a' then (a, b) :: m
    else (a', b') :: Memory.write m a b

/-- The canonical form: addresses strictly rising, all of them inside the window. -/
def Memory.wf : Memory → Bool
  | [] => true
  | [(a, _)] => decide (a < Config.wsize)
  | (a, _) :: (a', b') :: m => decide (a < a') && Memory.wf ((a', b') :: m)

/-! ### Errors and reset -/

/-- `raise E` (R421): taking an error. The code is recorded, the phase becomes ERROR, and nothing else changes. The
engine has no handler and no return: only reset leaves ERROR (R434). -/
def raise (e : ErrCode) (s : State) : State := { s with err := e, phase := .error }

/-- Reset (R470): every register takes its reset value, in any phase. What the host drives, and the parameter, are not
registers of the engine and stay; the pin itself is a pulse (log entry 3). -/
def applyReset (s : State) : State :=
  { State.reset with src := s.src, outReady := s.outReady, cfg := s.cfg }

/-! ### The bit source (R80 to R86) -/

/-- The result of an access to the input: a value, a stall (R81), or an error the port raises. -/
inductive Read (α : Type) where
  | got (a : α) (s : State)
  | wait (s : State)
  | raised (e : ErrCode) (s : State)

/-- `FetchByte()` (R81) against the cycle the source drives next, with the priority of R432: `in_err`, then `in_valid`,
then `in_end`. A cycle with none of them, or no cycle at all, is a stall, which changes no register. -/
def fetchByte (s : State) : Read Unit :=
  match s.src with
  | [] => .wait s
  | p :: rest =>
    if p.inErr then .raised .sourceError s
    else if p.inValid then
      .got () { s with bitbuf := p.inData, bitcnt := 8, inCount := s.inCount + 1, src := rest }
    else if p.inEnd then .raised .unexpectedEndOfInput s
    else .wait { s with src := rest }

/-- The bit `ReadBit` returns, and what it leaves, once a bit is there (R82). -/
def takeBit (s : State) : Read Bool :=
  .got (s.bitbuf.getLsbD 0) { s with bitbuf := s.bitbuf >>> 1, bitcnt := s.bitcnt - 1 }

/-- `ReadBit()` (R82). -/
def readBit (s : State) : Read Bool :=
  if s.bitcnt = 0 then
    match fetchByte s with
    | .got _ s' => takeBit s'
    | .wait s' => .wait s'
    | .raised e s' => .raised e s'
  else takeBit s

/-- `AlignToByte()` (R84, R391). -/
def alignToByte (s : State) : State := { s with bitbuf := 0, bitcnt := 0 }

/-! ### Blocks and output -/

/-- `BlockEnd()` (R177). -/
def blockEnd (s : State) : State := { s with phase := if s.bfinal then .done else .hdr }

/-- `Emit(b)`, its first half (R90): the byte is offered to the sink. -/
def offerByte (b : Byte) (s : State) : State := { s with outValid := true, outData := b }

/-- `Emit(b)`, its second half (R90): the cycle the sink takes the byte. -/
def takeByte (s : State) : State :=
  { s with
    outValid := false
    win := Memory.write s.win s.wp.toNat s.outData
    wp := s.wp + 1
    hist := BitVec.ofNat 16 (min (s.hist.toNat + 1) Config.wsize)
    outCount := s.outCount + 1
    out := s.out ++ [s.outData] }

/-- What follows the emission of a byte: nothing for a literal (R261); the loop ends of a copy (R362) and of a stored
block's data (R395). The counts are tested after a byte only: one that is 0 before it, which no run reaches (`Inv.copying`,
`Inv.storing`), wraps (DESIGN CHOICE, log entry 12). -/
def afterEmit (s : State) : State :=
  match s.phase with
  | .copy =>
    if s.copyRem - 1 = 0 then { s with copyRem := s.copyRem - 1, phase := .token }
    else { s with copyRem := s.copyRem - 1 }
  | .storedCopy =>
    if s.storedRem - 1 = 0 then blockEnd { s with storedRem := s.storedRem - 1 }
    else { s with storedRem := s.storedRem - 1 }
  | _ => s

/-- A cycle with a byte offered (R90): the sink takes it if `out_ready` is 1, and otherwise no state changes. -/
def sinkCycle (s : State) : State := if s.outReady then afterEmit (takeByte s) else s

/-- `Emit(b)` and what follows it: the byte is offered, and taken at once if the sink is ready. If it is not, the byte
stays offered, and a later step's `sinkCycle` completes the emission (R90, R366). -/
def emit (b : Byte) (s : State) : State := sinkCycle (offerByte b s)

/-- `WinRead(d)` (R91): the byte `d` positions behind the output position; a fault where the precondition fails. -/
def winRead (dist : BitVec 16) (s : State) : Except Fault Byte :=
  if dist.toNat = 0 ∨ s.hist.toNat < dist.toNat then .error .winReadPrecondition
  else
    match Memory.read s.win ((s.wp.toNat + Config.wsize - dist.toNat) % Config.wsize) with
    | some b => .ok b
    | none => .error .winReadUnwritten

/-- One turn of the copy loop (R362, R366): the byte `pend_dist` behind the output is emitted. -/
def copyStep (s : State) : Host.Outcome State Fault Refusal :=
  if s.copyRem = 0 then .next { s with phase := .token }
  else
    match winRead s.pendDist s with
    | .ok b => .next (emit b s)
    | .error f => .fault f

/-! ### Dynamic tables (R211 to R222) -/

/-- The lengths of the code-length code as `Build` takes them (R214). -/
def clLens (s : State) : List (BitVec 4) := s.clLen.map fun l => l.setWidth 4

/-- HLIT + HDIST, the number of code lengths of the block (R215). -/
def totalLens (s : State) : Nat := s.hlit.toNat + s.hdist.toNat

/-- Build the code-length code (R214). -/
def buildCl (s : State) : State :=
  match build Config.maxClBits (clLens s) with
  | none => raise .invalidHuffmanCode s
  | some T => { s with cl := T, lenIdx := 0, prevLen := 0, prevValid := false, phase := .dynLens }

/-- `lens[len_idx] <- v; len_idx <- len_idx + 1`, `n` times (R216 to R219). -/
def writeLens : Nat → BitVec 4 → State → State
  | 0, _, s => s
  | n + 1, v, s => writeLens n v { s with lens := s.lens.set s.lenIdx.toNat v, lenIdx := s.lenIdx + 1 }

/-- Split (R221). -/
def splitLens (s : State) : State :=
  { s with
    llLen := (List.range 288).map fun k => if k < s.hlit.toNat then s.lens.getD k 0 else 0
    dLen := (List.range 32).map fun k => if k < s.hdist.toNat then s.lens.getD (s.hlit.toNat + k) 0 else 0 }

/-- BuildBlockCodes (R222): `LL` is built and checked before `D` (decision D27). -/
def buildBlockCodes (s : State) : State :=
  match build Config.maxLlDBits s.llLen with
  | none => raise .invalidHuffmanCode s
  | some T =>
    match build Config.maxLlDBits s.dLen with
    | none => raise .invalidHuffmanCode { s with ll := T }
    | some U => { s with ll := T, d := U, phase := .token }

/-- The end of one turn of the LENS loop (R215): the next symbol follows while entries are missing, and otherwise the
block's codes are made. -/
def lensTurnEnd (s : State) : State :=
  if s.lenIdx.toNat < totalLens s then s else buildBlockCodes (splitLens s)

/-- `CheckFit(r)` (R220): whether `r` more entries fit. -/
def repeatFits (r : Nat) (s : State) : Bool := decide (s.lenIdx.toNat + r ≤ totalLens s)

/-- A run of `r` zeros (R218, R219), with its CheckFit. -/
def repeatZero (r : Nat) (s : State) : State :=
  if repeatFits r s then lensTurnEnd { writeLens r 0 s with prevLen := 0, prevValid := true }
  else raise .invalidDynamicTableDescription s

/-! ### References (R263 to R294, R300 to R330, R361) -/

/-- `LENGTH(257 + k)` with its extra bits read (R294): the distance comes next. -/
def lengthCode (k extra : Nat) (s : State) : State :=
  { s with pendSym := BitVec.ofNat 5 k, pendLen := lengthOf k extra, phase := .distSym }

/-- The reference check (R361): made before any byte of the reference is emitted. -/
def referenceCheck (s : State) : State :=
  if s.hist < s.pendDist then raise .invalidDistance s
  else { s with copyRem := s.pendLen, phase := .copy }

/-- `DISTANCE()` with distance code `ds` and its extra bits read (R300), and the reference check (R333, R361). -/
def distanceCode (ds extra : Nat) (s : State) : State :=
  referenceCheck { s with pendSym := BitVec.ofNat 5 ds, pendDist := distanceOf ds extra }

end Sys2Proof.Machine
end

