-- ==== Sys2Proof/Machine/BlockHeader.lean ====
section
/-! DEFINITION. The meanings of the four block headers (40_block_header.md, R171 to R178). -/

namespace Sys2Proof.Machine

/-- BH_STORED (R171 to R173). -/
def execBhStored (f : Bool) (s : State) : Host.Outcome State Fault Refusal :=
  .next { s with bfinal := f, btype := 0, phase := .storedHdr }

/-- BH_FIXED (R171, R172, R174, R210): the fixed codes become the active ones. -/
def execBhFixed (f : Bool) (s : State) : Host.Outcome State Fault Refusal :=
  .next { s with bfinal := f, btype := 1, ll := fixedLl, d := fixedD, phase := .token }

/-- BH_DYNAMIC (R171, R172, R175). -/
def execBhDynamic (f : Bool) (s : State) : Host.Outcome State Fault Refusal :=
  .next { s with bfinal := f, btype := 2, phase := .dynHdr }

/-- BH_RESERVED (R171, R172, R176): `ReservedBlockType`, whatever BFINAL is. -/
def execBhReserved (f : Bool) (s : State) : Host.Outcome State Fault Refusal :=
  .next (raise .reservedBlockType { s with bfinal := f, btype := 3 })

end Sys2Proof.Machine
end

