-- ==== Sys2Proof/Machine/Distances.lean ====
section
/-! DEFINITION. The meanings of the distance symbols (42_symbol_decoder.md, R300 to R333, and the reference check R361):
distance codes 0 to 29 and the two undefined symbols. -/

namespace Sys2Proof.Machine

/-- DIST0 (R301): distance 1. -/
def execDist0 (s : State) : Host.Outcome State Fault Refusal := .next (distanceCode 0 0 s)

/-- DIST1 (R302): distance 2. -/
def execDist1 (s : State) : Host.Outcome State Fault Refusal := .next (distanceCode 1 0 s)

/-- DIST2 (R303): distance 3. -/
def execDist2 (s : State) : Host.Outcome State Fault Refusal := .next (distanceCode 2 0 s)

/-- DIST3 (R304): distance 4. -/
def execDist3 (s : State) : Host.Outcome State Fault Refusal := .next (distanceCode 3 0 s)

/-- DIST4 (R305): distance 5 + extra, 1 extra bit. -/
def execDist4 (x : BitVec 1) (s : State) : Host.Outcome State Fault Refusal := .next (distanceCode 4 x.toNat s)

/-- DIST5 (R306): distance 7 + extra, 1 extra bit. -/
def execDist5 (x : BitVec 1) (s : State) : Host.Outcome State Fault Refusal := .next (distanceCode 5 x.toNat s)

/-- DIST6 (R307): distance 9 + extra, 2 extra bits. -/
def execDist6 (x : BitVec 2) (s : State) : Host.Outcome State Fault Refusal := .next (distanceCode 6 x.toNat s)

/-- DIST7 (R308): distance 13 + extra, 2 extra bits. -/
def execDist7 (x : BitVec 2) (s : State) : Host.Outcome State Fault Refusal := .next (distanceCode 7 x.toNat s)

/-- DIST8 (R309): distance 17 + extra, 3 extra bits. -/
def execDist8 (x : BitVec 3) (s : State) : Host.Outcome State Fault Refusal := .next (distanceCode 8 x.toNat s)

/-- DIST9 (R310): distance 25 + extra, 3 extra bits. -/
def execDist9 (x : BitVec 3) (s : State) : Host.Outcome State Fault Refusal := .next (distanceCode 9 x.toNat s)

/-- DIST10 (R311): distance 33 + extra, 4 extra bits. -/
def execDist10 (x : BitVec 4) (s : State) : Host.Outcome State Fault Refusal := .next (distanceCode 10 x.toNat s)

/-- DIST11 (R312): distance 49 + extra, 4 extra bits. -/
def execDist11 (x : BitVec 4) (s : State) : Host.Outcome State Fault Refusal := .next (distanceCode 11 x.toNat s)

/-- DIST12 (R313): distance 65 + extra, 5 extra bits. -/
def execDist12 (x : BitVec 5) (s : State) : Host.Outcome State Fault Refusal := .next (distanceCode 12 x.toNat s)

/-- DIST13 (R314): distance 97 + extra, 5 extra bits. -/
def execDist13 (x : BitVec 5) (s : State) : Host.Outcome State Fault Refusal := .next (distanceCode 13 x.toNat s)

/-- DIST14 (R315): distance 129 + extra, 6 extra bits. -/
def execDist14 (x : BitVec 6) (s : State) : Host.Outcome State Fault Refusal := .next (distanceCode 14 x.toNat s)

/-- DIST15 (R316): distance 193 + extra, 6 extra bits. -/
def execDist15 (x : BitVec 6) (s : State) : Host.Outcome State Fault Refusal := .next (distanceCode 15 x.toNat s)

/-- DIST16 (R317): distance 257 + extra, 7 extra bits. -/
def execDist16 (x : BitVec 7) (s : State) : Host.Outcome State Fault Refusal := .next (distanceCode 16 x.toNat s)

/-- DIST17 (R318): distance 385 + extra, 7 extra bits. -/
def execDist17 (x : BitVec 7) (s : State) : Host.Outcome State Fault Refusal := .next (distanceCode 17 x.toNat s)

/-- DIST18 (R319): distance 513 + extra, 8 extra bits. -/
def execDist18 (x : BitVec 8) (s : State) : Host.Outcome State Fault Refusal := .next (distanceCode 18 x.toNat s)

/-- DIST19 (R320): distance 769 + extra, 8 extra bits. -/
def execDist19 (x : BitVec 8) (s : State) : Host.Outcome State Fault Refusal := .next (distanceCode 19 x.toNat s)

/-- DIST20 (R321): distance 1025 + extra, 9 extra bits. -/
def execDist20 (x : BitVec 9) (s : State) : Host.Outcome State Fault Refusal := .next (distanceCode 20 x.toNat s)

/-- DIST21 (R322): distance 1537 + extra, 9 extra bits. -/
def execDist21 (x : BitVec 9) (s : State) : Host.Outcome State Fault Refusal := .next (distanceCode 21 x.toNat s)

/-- DIST22 (R323): distance 2049 + extra, 10 extra bits. -/
def execDist22 (x : BitVec 10) (s : State) : Host.Outcome State Fault Refusal := .next (distanceCode 22 x.toNat s)

/-- DIST23 (R324): distance 3073 + extra, 10 extra bits. -/
def execDist23 (x : BitVec 10) (s : State) : Host.Outcome State Fault Refusal := .next (distanceCode 23 x.toNat s)

/-- DIST24 (R325): distance 4097 + extra, 11 extra bits. -/
def execDist24 (x : BitVec 11) (s : State) : Host.Outcome State Fault Refusal := .next (distanceCode 24 x.toNat s)

/-- DIST25 (R326): distance 6145 + extra, 11 extra bits. -/
def execDist25 (x : BitVec 11) (s : State) : Host.Outcome State Fault Refusal := .next (distanceCode 25 x.toNat s)

/-- DIST26 (R327): distance 8193 + extra, 12 extra bits. -/
def execDist26 (x : BitVec 12) (s : State) : Host.Outcome State Fault Refusal := .next (distanceCode 26 x.toNat s)

/-- DIST27 (R328): distance 12289 + extra, 12 extra bits. -/
def execDist27 (x : BitVec 12) (s : State) : Host.Outcome State Fault Refusal := .next (distanceCode 27 x.toNat s)

/-- DIST28 (R329): distance 16385 + extra, 13 extra bits. -/
def execDist28 (x : BitVec 13) (s : State) : Host.Outcome State Fault Refusal := .next (distanceCode 28 x.toNat s)

/-- DIST29 (R330): distance 24577 + extra, 13 extra bits. -/
def execDist29 (x : BitVec 13) (s : State) : Host.Outcome State Fault Refusal := .next (distanceCode 29 x.toNat s)

/-- D_RSV30 (R331, decision D9): `InvalidHuffmanCode`. -/
def execDRsv30 (s : State) : Host.Outcome State Fault Refusal := .next (raise .invalidHuffmanCode s)

/-- D_RSV31 (R332, decision D9): `InvalidHuffmanCode`. -/
def execDRsv31 (s : State) : Host.Outcome State Fault Refusal := .next (raise .invalidHuffmanCode s)

end Sys2Proof.Machine
end

