-- ==== Sys2Proof/Machine/DynTables.lean ====
section
/-! DEFINITION. The meanings of the elements that describe a dynamic block's tables (41_huffman_tables.md, R211 to
R222). -/

namespace Sys2Proof.Machine

/-- StrictCheck (R212): whether the counts are rejected. -/
def strictRejects (s : State) : Bool :=
  s.cfg.strictCounts && (decide (286 < s.hlit.toNat) || decide (30 < s.hdist.toNat))

/-- DYN_HEADER (R211, R212). -/
def execDynHeader (hlit hdist : BitVec 5) (hclen : BitVec 4) (s : State) : Host.Outcome State Fault Refusal :=
  let s1 := { s with hlit := hlitCount hlit, hdist := hdistCount hdist, hclen := hclenCount hclen }
  if strictRejects s1 then .next (raise .invalidDynamicTableDescription s1)
  else .next { s1 with clIdx := 0, phase := .dynCll }

/-- CL_CODE_LENGTH (R213): one turn of its loop, and after the last one the code-length code is built (R214). -/
def execClCodeLength (len : BitVec 3) (s : State) : Host.Outcome State Fault Refusal :=
  let s1 := { s with clLen := s.clLen.set (clOrder.getD s.clIdx.toNat 19) len, clIdx := s.clIdx + 1 }
  if s1.clIdx < s1.hclen then .next s1 else .next (buildCl s1)

/-- CL_LEN (R216), then the rest of the LENS loop's turn (R215). -/
def execClLen (sym : BitVec 4) (s : State) : Host.Outcome State Fault Refusal :=
  .next (lensTurnEnd { writeLens 1 sym s with prevLen := sym, prevValid := true })

/-- CL_REP_PREV (R217, R220), then the rest of the LENS loop's turn (R215). -/
def execClRepPrev (x : BitVec 2) (s : State) : Host.Outcome State Fault Refusal :=
  if !s.prevValid then .next (raise .invalidDynamicTableDescription s)
  else if repeatFits (repeat3 x.toNat) s then .next (lensTurnEnd (writeLens (repeat3 x.toNat) s.prevLen s))
  else .next (raise .invalidDynamicTableDescription s)

/-- CL_REP_Z3 (R218, R220), then the rest of the LENS loop's turn (R215). -/
def execClRepZ3 (x : BitVec 3) (s : State) : Host.Outcome State Fault Refusal :=
  .next (repeatZero (repeat3 x.toNat) s)

/-- CL_REP_Z11 (R219, R220), then the rest of the LENS loop's turn (R215). -/
def execClRepZ11 (x : BitVec 7) (s : State) : Host.Outcome State Fault Refusal :=
  .next (repeatZero (repeat11 x.toNat) s)

end Sys2Proof.Machine
end

