-- ==== Sys2Proof/Machine/Stored.lean ====
section
/-! DEFINITION. The meanings of a stored block's elements (44_stored_block.md, R390 to R396). `AlignToByte` (R391) runs
before LEN's first bit is read (`beginElement`, Machine/Fetch.lean). -/

namespace Sys2Proof.Machine

/-- ST_HEADER (R392 to R394, R396). -/
def execStHeader (len nlen : BitVec 16) (s : State) : Host.Outcome State Fault Refusal :=
  let s1 := { s with storedLen := len, storedNlen := nlen }
  if nlen = ~~~len then
    let s2 := { s1 with storedRem := len }
    if len = 0 then .next (blockEnd s2) else .next { s2 with phase := .storedCopy }
  else .next (raise .storedBlockLengthMismatch s1)

/-- ST_DATA (R395): one turn of the raw copy. `stored_rem` is not tested before the byte: that it is not 0 in STORED_COPY is
`Inv.storing` (DESIGN CHOICE where it is 0, log entry 12). -/
def execStData (b : Byte) (s : State) : Host.Outcome State Fault Refusal :=
  .next (emit b { s with phase := .storedCopy })

end Sys2Proof.Machine
end

