-- ==== Sys2Proof/Machine/Tokens.lean ====
section
/-! DEFINITION. The meanings of the literal/length symbols (42_symbol_decoder.md, R261 to R294): LIT, EOB, the length
codes 257 to 285 and the two undefined symbols. -/

namespace Sys2Proof.Machine

/-- LIT (R261, R360): the token's byte is emitted. -/
def execLit (b : Byte) (s : State) : Host.Outcome State Fault Refusal :=
  .next (emit b { s with phase := .token })

/-- EOB (R262): the block ends (R177). -/
def execEob (s : State) : Host.Outcome State Fault Refusal := .next (blockEnd s)

/-- LEN257 (R263): length 3. -/
def execLen257 (s : State) : Host.Outcome State Fault Refusal := .next (lengthCode 0 0 s)

/-- LEN258 (R264): length 4. -/
def execLen258 (s : State) : Host.Outcome State Fault Refusal := .next (lengthCode 1 0 s)

/-- LEN259 (R265): length 5. -/
def execLen259 (s : State) : Host.Outcome State Fault Refusal := .next (lengthCode 2 0 s)

/-- LEN260 (R266): length 6. -/
def execLen260 (s : State) : Host.Outcome State Fault Refusal := .next (lengthCode 3 0 s)

/-- LEN261 (R267): length 7. -/
def execLen261 (s : State) : Host.Outcome State Fault Refusal := .next (lengthCode 4 0 s)

/-- LEN262 (R268): length 8. -/
def execLen262 (s : State) : Host.Outcome State Fault Refusal := .next (lengthCode 5 0 s)

/-- LEN263 (R269): length 9. -/
def execLen263 (s : State) : Host.Outcome State Fault Refusal := .next (lengthCode 6 0 s)

/-- LEN264 (R270): length 10. -/
def execLen264 (s : State) : Host.Outcome State Fault Refusal := .next (lengthCode 7 0 s)

/-- LEN265 (R271): length 11 + extra, 1 extra bit. -/
def execLen265 (x : BitVec 1) (s : State) : Host.Outcome State Fault Refusal := .next (lengthCode 8 x.toNat s)

/-- LEN266 (R272): length 13 + extra, 1 extra bit. -/
def execLen266 (x : BitVec 1) (s : State) : Host.Outcome State Fault Refusal := .next (lengthCode 9 x.toNat s)

/-- LEN267 (R273): length 15 + extra, 1 extra bit. -/
def execLen267 (x : BitVec 1) (s : State) : Host.Outcome State Fault Refusal := .next (lengthCode 10 x.toNat s)

/-- LEN268 (R274): length 17 + extra, 1 extra bit. -/
def execLen268 (x : BitVec 1) (s : State) : Host.Outcome State Fault Refusal := .next (lengthCode 11 x.toNat s)

/-- LEN269 (R275): length 19 + extra, 2 extra bits. -/
def execLen269 (x : BitVec 2) (s : State) : Host.Outcome State Fault Refusal := .next (lengthCode 12 x.toNat s)

/-- LEN270 (R276): length 23 + extra, 2 extra bits. -/
def execLen270 (x : BitVec 2) (s : State) : Host.Outcome State Fault Refusal := .next (lengthCode 13 x.toNat s)

/-- LEN271 (R277): length 27 + extra, 2 extra bits. -/
def execLen271 (x : BitVec 2) (s : State) : Host.Outcome State Fault Refusal := .next (lengthCode 14 x.toNat s)

/-- LEN272 (R278): length 31 + extra, 2 extra bits. -/
def execLen272 (x : BitVec 2) (s : State) : Host.Outcome State Fault Refusal := .next (lengthCode 15 x.toNat s)

/-- LEN273 (R279): length 35 + extra, 3 extra bits. -/
def execLen273 (x : BitVec 3) (s : State) : Host.Outcome State Fault Refusal := .next (lengthCode 16 x.toNat s)

/-- LEN274 (R280): length 43 + extra, 3 extra bits. -/
def execLen274 (x : BitVec 3) (s : State) : Host.Outcome State Fault Refusal := .next (lengthCode 17 x.toNat s)

/-- LEN275 (R281): length 51 + extra, 3 extra bits. -/
def execLen275 (x : BitVec 3) (s : State) : Host.Outcome State Fault Refusal := .next (lengthCode 18 x.toNat s)

/-- LEN276 (R282): length 59 + extra, 3 extra bits. -/
def execLen276 (x : BitVec 3) (s : State) : Host.Outcome State Fault Refusal := .next (lengthCode 19 x.toNat s)

/-- LEN277 (R283): length 67 + extra, 4 extra bits. -/
def execLen277 (x : BitVec 4) (s : State) : Host.Outcome State Fault Refusal := .next (lengthCode 20 x.toNat s)

/-- LEN278 (R284): length 83 + extra, 4 extra bits. -/
def execLen278 (x : BitVec 4) (s : State) : Host.Outcome State Fault Refusal := .next (lengthCode 21 x.toNat s)

/-- LEN279 (R285): length 99 + extra, 4 extra bits. -/
def execLen279 (x : BitVec 4) (s : State) : Host.Outcome State Fault Refusal := .next (lengthCode 22 x.toNat s)

/-- LEN280 (R286): length 115 + extra, 4 extra bits. -/
def execLen280 (x : BitVec 4) (s : State) : Host.Outcome State Fault Refusal := .next (lengthCode 23 x.toNat s)

/-- LEN281 (R287): length 131 + extra, 5 extra bits. -/
def execLen281 (x : BitVec 5) (s : State) : Host.Outcome State Fault Refusal := .next (lengthCode 24 x.toNat s)

/-- LEN282 (R288): length 163 + extra, 5 extra bits. -/
def execLen282 (x : BitVec 5) (s : State) : Host.Outcome State Fault Refusal := .next (lengthCode 25 x.toNat s)

/-- LEN283 (R289): length 195 + extra, 5 extra bits. -/
def execLen283 (x : BitVec 5) (s : State) : Host.Outcome State Fault Refusal := .next (lengthCode 26 x.toNat s)

/-- LEN284 (R290): length 227 + extra, 5 extra bits. -/
def execLen284 (x : BitVec 5) (s : State) : Host.Outcome State Fault Refusal := .next (lengthCode 27 x.toNat s)

/-- LEN285 (R291): length 258. -/
def execLen285 (s : State) : Host.Outcome State Fault Refusal := .next (lengthCode 28 0 s)

/-- LL_RSV286 (R292, decision D8): `InvalidHuffmanCode`. -/
def execLlRsv286 (s : State) : Host.Outcome State Fault Refusal := .next (raise .invalidHuffmanCode s)

/-- LL_RSV287 (R293, decision D8): `InvalidHuffmanCode`. -/
def execLlRsv287 (s : State) : Host.Outcome State Fault Refusal := .next (raise .invalidHuffmanCode s)

end Sys2Proof.Machine
end

