-- ==== Sys2Proof/WellFormed.lean ====
section
/-! DEFINITION. Which instructions can stand in a stream under given codes: a symbol needs a codeword in the alphabet its
phase selects (R200, R204, R292, R331), and symbol 16 has extra bits only after a previous length (R217). The widths of
the operands are in their types. -/

namespace Sys2Proof

/-- The code a phase decodes symbols with (R138). -/
def Codes.forPhase (c : Codes) : Phase → Code
  | .token => c.ll
  | .distSym => c.d
  | .dynLens => c.cl
  | _ => []

/-- Whether the element can be written in a stream whose codes are `c`. -/
def Instr.wellFormed (c : Codes) (i : Instr) : Bool :=
  match i.form with
  | (_, none, _) => true
  | (ph, some sym, extra) =>
    hasCodeword (c.forPhase ph) sym &&
      (c.prevValid || !(ph == .dynLens && sym == 16) || extra == [false, false])

end Sys2Proof
end

