-- ==== Sys2Proof/Decode.lean ====
section
/-! DEFINITION. From bits to elements, and back (30_encoding.md; the codeword loop of R206). The decoder takes the bits
one at a time and can stop between any two, so that a stall inside an element keeps what was read (R13, R54). -/

namespace Sys2Proof

/-- The length-code element of symbol `257 + k` whose extra-bits field has value `v` (R127, R131). -/
def lenInstr (k v : Nat) : Option Instr :=
  match k with
  | 0 => some .len257
  | 1 => some .len258
  | 2 => some .len259
  | 3 => some .len260
  | 4 => some .len261
  | 5 => some .len262
  | 6 => some .len263
  | 7 => some .len264
  | 8 => some (.len265 (BitVec.ofNat 1 v))
  | 9 => some (.len266 (BitVec.ofNat 1 v))
  | 10 => some (.len267 (BitVec.ofNat 1 v))
  | 11 => some (.len268 (BitVec.ofNat 1 v))
  | 12 => some (.len269 (BitVec.ofNat 2 v))
  | 13 => some (.len270 (BitVec.ofNat 2 v))
  | 14 => some (.len271 (BitVec.ofNat 2 v))
  | 15 => some (.len272 (BitVec.ofNat 2 v))
  | 16 => some (.len273 (BitVec.ofNat 3 v))
  | 17 => some (.len274 (BitVec.ofNat 3 v))
  | 18 => some (.len275 (BitVec.ofNat 3 v))
  | 19 => some (.len276 (BitVec.ofNat 3 v))
  | 20 => some (.len277 (BitVec.ofNat 4 v))
  | 21 => some (.len278 (BitVec.ofNat 4 v))
  | 22 => some (.len279 (BitVec.ofNat 4 v))
  | 23 => some (.len280 (BitVec.ofNat 4 v))
  | 24 => some (.len281 (BitVec.ofNat 5 v))
  | 25 => some (.len282 (BitVec.ofNat 5 v))
  | 26 => some (.len283 (BitVec.ofNat 5 v))
  | 27 => some (.len284 (BitVec.ofNat 5 v))
  | 28 => some .len285
  | _ => none

/-- The distance-code element of symbol `ds` whose extra-bits field has value `v` (R132, R300). -/
def distInstr (ds v : Nat) : Option Instr :=
  match ds with
  | 0 => some .dist0
  | 1 => some .dist1
  | 2 => some .dist2
  | 3 => some .dist3
  | 4 => some (.dist4 (BitVec.ofNat 1 v))
  | 5 => some (.dist5 (BitVec.ofNat 1 v))
  | 6 => some (.dist6 (BitVec.ofNat 2 v))
  | 7 => some (.dist7 (BitVec.ofNat 2 v))
  | 8 => some (.dist8 (BitVec.ofNat 3 v))
  | 9 => some (.dist9 (BitVec.ofNat 3 v))
  | 10 => some (.dist10 (BitVec.ofNat 4 v))
  | 11 => some (.dist11 (BitVec.ofNat 4 v))
  | 12 => some (.dist12 (BitVec.ofNat 5 v))
  | 13 => some (.dist13 (BitVec.ofNat 5 v))
  | 14 => some (.dist14 (BitVec.ofNat 6 v))
  | 15 => some (.dist15 (BitVec.ofNat 6 v))
  | 16 => some (.dist16 (BitVec.ofNat 7 v))
  | 17 => some (.dist17 (BitVec.ofNat 7 v))
  | 18 => some (.dist18 (BitVec.ofNat 8 v))
  | 19 => some (.dist19 (BitVec.ofNat 8 v))
  | 20 => some (.dist20 (BitVec.ofNat 9 v))
  | 21 => some (.dist21 (BitVec.ofNat 9 v))
  | 22 => some (.dist22 (BitVec.ofNat 10 v))
  | 23 => some (.dist23 (BitVec.ofNat 10 v))
  | 24 => some (.dist24 (BitVec.ofNat 11 v))
  | 25 => some (.dist25 (BitVec.ofNat 11 v))
  | 26 => some (.dist26 (BitVec.ofNat 12 v))
  | 27 => some (.dist27 (BitVec.ofNat 12 v))
  | 28 => some (.dist28 (BitVec.ofNat 13 v))
  | 29 => some (.dist29 (BitVec.ofNat 13 v))
  | _ => none

/-- The header element whose 3 bits have value `v` (R122). -/
def headerInstr (v : Nat) : Instr :=
  match v / 2 % 4 with
  | 0 => .bhStored (v % 2 == 1)
  | 1 => .bhFixed (v % 2 == 1)
  | 2 => .bhDynamic (v % 2 == 1)
  | _ => .bhReserved (v % 2 == 1)

/-- The code-length symbol whose extra bits are being read: the one the cursor stands on (R54, R215). -/
def pendingClsSymbol (c : Codes) (r : Reader) : Nat :=
  (findSymbol c.cl r.curLen r.curCode).getD 0

/-- How many bits the fixed-width field of the reader's phase has (R95, R126, R131, R132). -/
def fieldWidth (c : Codes) (r : Reader) : Nat :=
  match r.phase with
  | .hdr => 3
  | .dynHdr => 14
  | .dynCll => 3
  | .dynLens => clsXb (pendingClsSymbol c r)
  | .lenExtra => lenXb.getD r.pendSym.toNat 0
  | .distExtra => distXb.getD r.pendSym.toNat 0
  | .storedHdr => 32
  | .storedCopy => 8
  | .token | .distSym | .copy | .done | .error => 0

/-- The element a complete field stands for (R122, R123, R125 to R127); `none` for a field no phase has. -/
def fieldInstr (c : Codes) (r : Reader) : Option Instr :=
  let v := bitsToNat r.fld
  match r.phase with
  | .hdr => some (headerInstr v)
  | .dynHdr => some (.dynHeader (BitVec.ofNat 5 v) (BitVec.ofNat 5 (v / 32)) (BitVec.ofNat 4 (v / 1024)))
  | .dynCll => some (.clCodeLength (BitVec.ofNat 3 v))
  | .dynLens =>
    if pendingClsSymbol c r = 16 then some (.clRepPrev (BitVec.ofNat 2 v))
    else if pendingClsSymbol c r = 17 then some (.clRepZ3 (BitVec.ofNat 3 v))
    else if pendingClsSymbol c r = 18 then some (.clRepZ11 (BitVec.ofNat 7 v))
    else none
  | .lenExtra => lenInstr r.pendSym.toNat v
  | .distExtra => distInstr r.pendSym.toNat v
  | .storedHdr => some (.stHeader (BitVec.ofNat 16 v) (BitVec.ofNat 16 (v / 65536)))
  | .storedCopy => some (.stData (BitVec.ofNat 8 v))
  | .token | .distSym | .copy | .done | .error => none

/-- What the bits read so far amount to. -/
inductive Look where
  /-- A whole element. -/
  | instr (i : Instr) (r : Reader)
  /-- No element begins with these bits: the stream ends with `InvalidHuffmanCode` (R206). -/
  | invalid (r : Reader)
  /-- Another bit is needed. -/
  | more (r : Reader)
deriving DecidableEq, Repr

/-- A field is an element as soon as all its bits are read; a field of no bits is one at once (R83, `ReadBits(0)`). -/
def lookField (c : Codes) (r : Reader) : Look :=
  if r.fld.length < fieldWidth c r then .more r
  else
    match fieldInstr c r with
    | some i => .instr i { r with part := .start, fld := [] }
    | none => .invalid r

/-- A symbol has been resolved (R215, R260, R300): it is an element by itself, or its extra bits come next. A symbol
outside the alphabet cannot be encoded (R134, U5). Symbol 16 without a previous length has no extra bits read (R217). -/
def resolved (c : Codes) (r : Reader) (sym : Nat) : Look :=
  match r.phase with
  | .token =>
    if sym < 256 then .instr (.lit (BitVec.ofNat 8 sym)) { r with part := .start }
    else if sym = 256 then .instr .eob { r with part := .start }
    else if sym < 286 then
      lookField c { r with phase := .lenExtra, pendSym := BitVec.ofNat 5 (sym - 257), part := .start, fld := [] }
    else if sym = 286 then .instr .llRsv286 { r with part := .start }
    else if sym = 287 then .instr .llRsv287 { r with part := .start }
    else .invalid r
  | .distSym =>
    if sym < 30 then
      lookField c { r with phase := .distExtra, pendSym := BitVec.ofNat 5 sym, part := .start, fld := [] }
    else if sym = 30 then .instr .dRsv30 { r with part := .start }
    else if sym = 31 then .instr .dRsv31 { r with part := .start }
    else .invalid r
  | .dynLens =>
    if sym < 16 then .instr (.clLen (BitVec.ofNat 4 sym)) { r with part := .start }
    else if sym = 16 && !c.prevValid then .instr (.clRepPrev 0) { r with part := .start }
    else lookField c { r with part := .extra, fld := [] }
  | _ => .invalid r

/-- `DecodeSym` after the bits read so far (R206): the cursor starts at the root, and each bit either resolves a symbol,
leaves a proper beginning of some codeword, or is no beginning of any. -/
def lookSymbol (c : Codes) (r : Reader) : Look :=
  if r.part = .start then .more { r with part := .code, curCode := 0, curLen := 0 }
  else if r.curLen = 0 then .more r
  else
    match findSymbol (c.forPhase r.phase) r.curLen r.curCode with
    | some sym => resolved c r sym
    | none => if beginsCodeword (c.forPhase r.phase) r.curLen r.curCode then .more r else .invalid r

/-- Whether the next bit belongs to a codeword, in an alphabet the phase alone selects (R138). -/
def Reader.inCodeword (r : Reader) : Bool :=
  match r.phase with
  | .token | .distSym => true
  | .dynLens => r.part != .extra
  | _ => false

/-- What the bits read so far amount to, in the format the phase selects (R120, R138). -/
def look (c : Codes) (r : Reader) : Look :=
  if r.inCodeword then lookSymbol c r else lookField c r

/-- One more bit is consumed: the first bit of a codeword is its most significant (R206), the first bit of a field its
least significant (R83). -/
def pushBit (r : Reader) (b : Bool) : Reader :=
  if r.inCodeword then
    { r with curCode := (r.curCode <<< 1) ||| (if b then 1 else 0), curLen := r.curLen + 1 }
  else { r with fld := r.fld ++ [b] }

/-- The result of decoding a string of bits. -/
inductive Decoded where
  /-- An element, and the bits after it. -/
  | instr (i : Instr) (r : Reader) (rest : List Bool)
  /-- Rejected by name: `InvalidHuffmanCode`, with the bits after the one that showed it (R206, D12). -/
  | invalidHuffmanCode (r : Reader) (rest : List Bool)
  /-- The bits end inside an element; the reader keeps what was read. -/
  | short (r : Reader)
deriving DecidableEq, Repr

/-- Decode one element from a string of bits, going on from what the reader has already read. Total on any bits. -/
def decode (c : Codes) (r : Reader) : List Bool → Decoded
  | [] =>
    match look c r with
    | .instr i r' => .instr i r' []
    | .invalid r' => .invalidHuffmanCode r' []
    | .more r' => .short r'
  | b :: bs =>
    match look c r with
    | .instr i r' => .instr i r' (b :: bs)
    | .invalid r' => .invalidHuffmanCode r' (b :: bs)
    | .more r' => decode c (pushBit r' b) bs

/-- The reader at the start of an element of phase `ph`. -/
def Reader.start (ph : Phase) : Reader :=
  { phase := ph, part := .start, curCode := 0, curLen := 0, pendSym := 0, fld := [] }

/-- The element a decoding gives, if it gives one. -/
def Decoded.instr? : Decoded → Option Instr
  | .instr i _ _ => some i
  | .invalidHuffmanCode _ _ => none
  | .short _ => none

/-- The bits of an element in stream order (R122, R123, R125 to R127): its codeword, if it has one, then its fields.
Symbol 16 has no extra bits where it has no previous length to repeat (R217). A stored block's PAD is not part of the
element: `AlignToByte` skips those bits whatever they are (R391). -/
def encode (c : Codes) (i : Instr) : List Bool :=
  match i.form with
  | (_, none, bits) => bits
  | (ph, some sym, bits) =>
    codewordBits (c.forPhase ph) sym ++ (if ph = .dynLens && sym = 16 && !c.prevValid then [] else bits)

/-! ### The words of spec/opcode_table.json

The table numbers a BH row's bits as the stream does, and keys every codeword row by its SYMBOL (R137: 5 bits for the
code-length and distance alphabets, 9 bits for lit/len), because a codeword has no meaning outside its block's code. So
a word is read as a symbol of an alphabet, laid out as that symbol's codeword in the codes below, followed by zeros, and
given to `decode` (log entry 7). -/

/-- The code-length code used to lay out the table's CLS words: every symbol in 5 bits (log entry 7). -/
def tableCl : Code := (build Config.maxClBits (List.replicate 19 5)).getD []

/-- The codes used to lay out the table's words: the fixed codes (R208, R209) and `tableCl`. -/
def tableCodes : Codes := { ll := fixedLl, d := fixedD, cl := tableCl, prevValid := true }

/-- The phase a table word is read in, and its value there. The 5-bit words of BH, CLS and DSYM overlap and carry no
phase: each value goes to the first row of the table whose `match` it is (log entry 7). -/
def tableWord (nbits w : Nat) : Option (Phase × Nat) :=
  if nbits = 0 then none
  else if nbits ≤ 8 then
    if w % 32 < 8 && w % 2 == 0 then some (.hdr, w % 32)
    else if w % 32 = 16 || w % 32 = 17 || w % 32 = 18 then some (.dynLens, w % 32)
    else some (.distSym, w % 32)
  else if nbits ≤ 16 then if w % 512 < 288 then some (.token, w % 512) else none
  else some (.distSym, w % 32)

/-- The stream bits a table word stands for: a header's three bits, or a symbol's codeword. -/
def tableBits (ph : Phase) (v : Nat) : List Bool :=
  if ph = .hdr then lsbBits 3 v else codewordBits (tableCodes.forPhase ph) v

/-- The bytes a table word is laid out in, the bits after it zero up to the longest element (32 bits). -/
def tableBytes (ph : Phase) (v : Nat) : List Byte :=
  bitsToBytes 5 (tableBits ph v ++ List.replicate 40 false)

/-- The instruction the decoder reads from a word of the opcode table. -/
def decodeTableWord (nbits w : Nat) : Option Instr :=
  match tableWord nbits w with
  | none => none
  | some (ph, v) => (decode tableCodes (Reader.start ph) (byteBits (tableBytes ph v))).instr?

end Sys2Proof
end

