-- ==== Sys2Proof/Machine/Flags.lean ====
section
/-! DEFINITION. The status outputs (R31, R63): the engine's only flags, and the numbers its registers show. The engine has
no condition codes and no arithmetic flags (R63). -/

namespace Sys2Proof.Machine

/-- The 4-bit value of a phase (R41). -/
def phaseCode : Phase → BitVec 4
  | .hdr => 0
  | .dynHdr => 1
  | .dynCll => 2
  | .dynLens => 3
  | .token => 4
  | .lenExtra => 5
  | .distSym => 6
  | .distExtra => 7
  | .copy => 8
  | .storedHdr => 9
  | .storedCopy => 10
  | .done => 11
  | .error => 12

/-- The 3-bit code of an error kind (R429). -/
def errNumber : ErrCode → BitVec 3
  | .none => 0
  | .unexpectedEndOfInput => 1
  | .reservedBlockType => 2
  | .invalidDynamicTableDescription => 3
  | .invalidDistance => 4
  | .storedBlockLengthMismatch => 5
  | .invalidHuffmanCode => 6
  | .sourceError => 7

/-- Whether the phase reads the input (R41, R138): not COPY, DONE or ERROR. -/
def readsInput : Phase → Bool
  | .copy | .done | .error => false
  | .hdr | .dynHdr | .dynCll | .dynLens | .token | .lenExtra | .distSym | .distExtra
  | .storedHdr | .storedCopy => true

/-- Output `busy`. -/
def busy (s : State) : Bool := s.phase != .done && s.phase != .error

/-- Output `done`. -/
def doneFlag (s : State) : Bool := s.phase == .done

/-- Output `error`. -/
def errorFlag (s : State) : Bool := s.phase == .error

/-- Output `err_code`. -/
def errCode (s : State) : BitVec 3 := errNumber s.err

/-- Output `stat_phase`. -/
def statPhase (s : State) : BitVec 4 := phaseCode s.phase

/-- Output `stat_in_count`. -/
def statInCount (s : State) : BitVec 32 := s.inCount

/-- Output `stat_out_count`. -/
def statOutCount (s : State) : BitVec 32 := s.outCount

/-- Whether the engine needs a byte before its next bit (R81, R82): no bits are left, or the rest of the byte is about to
be discarded (R391). -/
def needsByte (s : State) : Bool :=
  s.bitcnt == 0 || (s.phase == .storedHdr && s.fld.isEmpty)

/-- Output `in_ready` (R31, R81, R86): 1 exactly in a cycle in which the engine takes the byte that is offered. It is a
function of the state and the cycle the source drives, not a register (log entry 8). -/
def inReady (s : State) : Bool :=
  !s.rst && !s.outValid && readsInput s.phase && needsByte s &&
    match s.src with
    | p :: _ => p.inValid && !p.inErr
    | [] => false

/-- `bitpos` (R46), from the counter's value: the number of input bits consumed or discarded so far. -/
def bitpos (s : State) : Int := 8 * (s.inCount.toNat : Int) - (s.bitcnt.toNat : Int)

end Sys2Proof.Machine
end

