-- ==== Sys2Proof/Machine/Fetch.lean ====
section
/-! DEFINITION. Reading one element from the bit source (R82, R83, R206), stalls inside it kept (R13), and the host's
actions on the ports (R32, R473). -/

namespace Sys2Proof.Machine

/-- The registers the decoder works on. -/
def State.reader (s : State) : Reader :=
  { phase := s.phase, part := s.part, curCode := s.curCode, curLen := s.curLen, pendSym := s.pendSym, fld := s.fld }

/-- Write them back. -/
def State.setReader (s : State) (r : Reader) : State :=
  { s with
    phase := r.phase, part := r.part, curCode := r.curCode, curLen := r.curLen, pendSym := r.pendSym, fld := r.fld }

/-- What decoding depends on beside them. -/
def State.codes (s : State) : Codes := { ll := s.ll, d := s.d, cl := s.cl, prevValid := s.prevValid }

/-- What a rule does before it reads its first bit: `AlignToByte` before LEN (R390, R391), and clearing `cl_len` before
the first code-length code length (R213). -/
def beginElement (s : State) : State :=
  match s.phase with
  | .storedHdr => if s.fld.isEmpty then alignToByte s else s
  | .dynCll => if s.fld.isEmpty && s.clIdx == 0 then { s with clLen := List.replicate 19 0 } else s
  | _ => s

/-- The registers an element writes as soon as one of its fields is complete and before the next is read: BFINAL (R171),
HLIT and HDIST (R211), LEN (R392). The last field's register is written by the meaning. -/
def latchField (s : State) : State :=
  match s.phase with
  | .hdr => if s.fld.length = 1 then { s with bfinal := bitsToNat s.fld == 1 } else s
  | .dynHdr =>
    if s.fld.length = 5 then { s with hlit := hlitCount (BitVec.ofNat 5 (bitsToNat s.fld)) }
    else if s.fld.length = 10 then { s with hdist := hdistCount (BitVec.ofNat 5 (bitsToNat s.fld / 32)) }
    else s
  | .storedHdr => if s.fld.length = 16 then { s with storedLen := BitVec.ofNat 16 (bitsToNat s.fld) } else s
  | _ => s

/-- The state after one more bit has been read into the element (R82, R83, R206). -/
def consumeBit (r : Reader) (b : Bool) (s : State) : State := latchField (s.setReader (pushBit r b))

/-- Read one element, a bit at a time, from what the reader has already read. No element has more than 47 bits left, so
the bound is never what ends the loop. -/
def fetchElement : Nat → State → Read Instr
  | 0, s => .wait s
  | n + 1, s =>
    match look s.codes s.reader with
    | .instr i r => .got i (s.setReader r)
    | .invalid r => .raised .invalidHuffmanCode (s.setReader r)
    | .more r =>
      match readBit (s.setReader r) with
      | .got b s' => fetchElement n (consumeBit r b s')
      | .wait s' => .wait s'
      | .raised e s' => .raised e s'

/-- The bound of the loop above. -/
def fetchBound : Nat := 64

/-- The bits left in the byte buffer, next one first (R45). -/
def bufferBits (s : State) : List Bool := lsbBits s.bitcnt.toNat s.bitbuf.toNat

/-- The bytes the source offers before its next cycle without one. -/
def offeredBytes : List InSample → List Byte
  | [] => []
  | p :: ps => if p.inValid && !p.inErr then p.inData :: offeredBytes ps else []

/-- The bits the engine can read before the source makes it wait or ends (R80). -/
def upcoming (s : State) : List Bool := bufferBits s ++ byteBits (offeredBytes s.src)

/-! ### The host's actions (R32, R473): what the source, the sink and the reset pin do between steps -/

/-- A cycle in which the source offers byte `b`. -/
def offer (b : Byte) : InSample := { inValid := true, inData := b, inEnd := false, inErr := false }

/-- A cycle in which the source has no byte yet (R81). -/
def idleCycle : InSample := { inValid := false, inData := 0, inEnd := false, inErr := false }

/-- A cycle in which the source has no further byte, ever (R31, R473). -/
def endCycle : InSample := { inValid := false, inData := 0, inEnd := true, inErr := false }

/-- A cycle in which the source reports an I/O error (R31, R428). -/
def errCycle : InSample := { inValid := false, inData := 0, inEnd := false, inErr := true }

/-- The host queues bytes at the source. -/
def hostOffers (bs : List Byte) (s : State) : State := { s with src := s.src ++ bs.map offer }

/-- The host raises `in_end` after the bytes queued so far. -/
def hostEnds (s : State) : State := { s with src := s.src ++ [endCycle] }

/-- The host drives `out_ready`. -/
def hostSetsReady (ready : Bool) (s : State) : State := { s with outReady := ready }

/-- The host drives `rst` in the coming step (R470). -/
def hostResets (s : State) : State := { s with rst := true }

/-- A state whose very next step reads and runs the element a table word stands for: at the start of an element of the
word's phase, no byte pending at the sink, the word's codes active, and its bytes offered (log entry 7). -/
def placeTableWord (s : State) (nbits w : Nat) : State :=
  match tableWord nbits w with
  | none => s
  | some (ph, v) =>
    { s with
      phase := ph, part := .start, fld := [], bitbuf := 0, bitcnt := 0, rst := false, outValid := false
      ll := tableCodes.ll, d := tableCodes.d, cl := tableCodes.cl, prevValid := tableCodes.prevValid
      src := (tableBytes ph v).map offer }

end Sys2Proof.Machine
end

