-- ==== Sys2Proof/Machine/Step.lean ====
section
/-! DEFINITION. One step of the engine: a reset cycle, a cycle with a byte offered to the sink, one turn of the copy
loop, or one element read from the input and executed (R40, R120, R170). -/

namespace Sys2Proof.Machine

/-- One step. In DONE and ERROR the engine is idle until reset (R434, R439, R476). A step in which the source has no byte
when one is needed ends in a stall, with what was read so far kept (R13, R81). -/
def step (s : State) : Host.Outcome State Fault Refusal :=
  if s.rst then .next (applyReset s)
  else if s.outValid then .next (sinkCycle s)
  else
    match s.phase with
    | .done => .next s
    | .error => .next s
    | .copy => copyStep s
    | .hdr | .dynHdr | .dynCll | .dynLens | .token | .lenExtra | .distSym | .distExtra
    | .storedHdr | .storedCopy =>
      match fetchElement fetchBound (beginElement s) with
      | .got i s' => exec i s'
      | .wait s' => .next s'
      | .raised e s' => .next (raise e s')

/-- The state whose next step runs the instruction of an opcode-table word. -/
def State.withFetchWord (s : State) (nbits w : Nat) : State := placeTableWord s nbits w

end Sys2Proof.Machine
end

