-- ==== Sys2Proof/Safety.lean ====
section
/-! DEFINITION. What claims about runs are stated in: what reading the input may change, prefix-free codes, the invariant
that every step keeps, and a safe run. -/

namespace Sys2Proof

/-- The codewords of a code fit in their lengths (R203). -/
def Code.fits (T : Code) : Prop := ∀ w ∈ T, w.code.toNat < 2 ^ w.len.toNat

/-- No codeword is a prefix of another symbol's codeword (R203). -/
def Code.prefixFree (T : Code) : Prop :=
  ∀ s t : Nat, hasCodeword T s = true → hasCodeword T t = true → codewordBits T s <+: codewordBits T t → s = t

/-- A code a symbol decoder can use (R203). -/
structure Code.ok (T : Code) : Prop where
  fits : T.fits
  prefixFree : T.prefixFree

/-- The table `next` of R202 before any codeword is given out: the first codeword of each length, with `count[0]` taken as
0. Length 0 has no codeword. -/
def firstCodeword (L : List (BitVec 4)) : Nat → Nat
  | 0 => 0
  | b + 1 => 2 * (firstCodeword L b + if b = 0 then 0 else L.countP fun l => l.toNat == b)

/-- The bits read so far leave `DecodeSym` inside a codeword (R206): they are nothing, or a proper beginning of one. -/
def Code.begun (T : Code) (bs : List Bool) : Prop :=
  bs = [] ∨ ∃ s, hasCodeword T s = true ∧ bs <+: codewordBits T s ∧ bs ≠ codewordBits T s

/-- `DecodeSym` rejects `bits`, leaving `rest` unread (R206, decision D12): one bit after a beginning, the bits read are no
codeword and no beginning of one. -/
def Code.rejects (T : Code) (bits rest : List Bool) : Prop :=
  ∃ read b, bits = read ++ b :: rest ∧ T.begun read ∧
    ∀ s, hasCodeword T s = true → ¬ (read ++ [b]) <+: codewordBits T s

end Sys2Proof

namespace Sys2Proof.Machine

/-- The phase an element that is being read in phase `p` began in: the extra-bits phases lie inside an element (R42). -/
def beganIn : Phase → Phase
  | .lenExtra => .token
  | .distExtra => .distSym
  | p => p

/-- The two states agree on every field but those that reading an element from the input may write in some phase: the
reader's registers, the byte buffer, `in_count`, the source's coming cycles, and the registers of completed fields. -/
def readFrame (s t : State) : Prop :=
  t = { s with
    phase := t.phase, part := t.part, curCode := t.curCode, curLen := t.curLen, pendSym := t.pendSym, fld := t.fld
    bitbuf := t.bitbuf, bitcnt := t.bitcnt, inCount := t.inCount, src := t.src
    bfinal := t.bfinal, hlit := t.hlit, hdist := t.hdist, storedLen := t.storedLen }

/-- `t` is what `s` has become by reading bits of one element and doing nothing else. -/
structure readsOnly (s t : State) : Prop where
  /-- Only what reading may write has changed. -/
  frame : readFrame s t
  /-- The phase is still one of the element's. -/
  phase : beganIn t.phase = beganIn s.phase
  /-- R43, R171: only a header's reading writes `bfinal`. -/
  bfinal : s.phase ≠ .hdr → t.bfinal = s.bfinal
  /-- R51, R211: only a dynamic header's reading writes the counts. -/
  counts : s.phase ≠ .dynHdr → t.hlit = s.hlit ∧ t.hdist = s.hdist
  /-- R57, R392: only a stored header's reading writes `stored_len`. -/
  storedLen : s.phase ≠ .storedHdr → t.storedLen = s.storedLen
  /-- R46, R81: the source's cycles used up are those whose bytes were taken, and `in_count` counts them. -/
  bytes : ∃ used, s.src = used ++ t.src ∧ (∀ p ∈ used, p.inValid = true ∧ p.inErr = false) ∧
    t.inCount = s.inCount + BitVec.ofNat 32 used.length

/-- The invariant of the engine. Every field is a fact the spec derives or a bound it states for a register. -/
structure Inv (s : State) : Prop where
  /-- The window's memory is in canonical form. -/
  winWf : Memory.wf s.win = true
  /-- `hist` = min(bytes produced since reset, 32768) (R60). -/
  histEq : s.hist.toNat = min s.out.length 32768
  /-- `wp` counts the bytes produced, modulo 32768 (R59). -/
  wpEq : s.wp.toNat = s.out.length % 32768
  /-- `out_count` counts them modulo 2^32 (R62). -/
  outCountEq : s.outCount.toNat = s.out.length % 2 ^ 32
  /-- R93, R91: the entries behind the write pointer hold the last `hist` output bytes, in order. -/
  window : ∀ dist, 1 ≤ dist → dist ≤ s.hist.toNat →
    Memory.read s.win ((s.wp.toNat + 32768 - dist) % 32768) = s.out[s.out.length - dist]?
  /-- `err` holds 0 exactly while the phase is not ERROR (R61). -/
  errIff : s.err = .none ↔ s.phase ≠ .error
  /-- The arrays and codes have their sizes (R47 to R50, R52). -/
  sizes : s.llLen.length = 288 ∧ s.dLen.length = 32 ∧ s.clLen.length = 19 ∧ s.lens.length = 320 ∧
    s.ll.length = 288 ∧ s.d.length = 32 ∧ s.cl.length = 19
  /-- The active codes are prefix-free (R203). -/
  codesOk : s.ll.ok ∧ s.d.ok ∧ s.cl.ok
  /-- At most 8 bits are held, and nothing above them (R45). -/
  buffer : s.bitcnt.toNat ≤ 8 ∧ s.bitbuf.toNat < 2 ^ s.bitcnt.toNat
  /-- A byte is offered only by a literal, a copy or a stored byte (R261, R362, R395). -/
  offered : s.outValid = true → s.phase = .token ∨ s.phase = .copy ∨ s.phase = .storedCopy
  /-- In COPY the reference has been checked and bytes are left (R361, R362). -/
  copying : s.phase = .copy →
    1 ≤ s.copyRem.toNat ∧ s.copyRem.toNat ≤ 258 ∧ 1 ≤ s.pendDist.toNat ∧ s.pendDist.toNat ≤ s.hist.toNat
  /-- In STORED_COPY raw bytes are left (R394, R395). -/
  storing : s.phase = .storedCopy → 1 ≤ s.storedRem.toNat
  /-- From the length code to the distance, a length of 3 to 258 is held (R129, R294). -/
  lengthHeld : s.phase = .distSym ∨ s.phase = .distExtra → 3 ≤ s.pendLen.toNat ∧ s.pendLen.toNat ≤ 258
  /-- In DYN_CLL fields are left (R213), and the counts are in range (R51). -/
  clls : s.phase = .dynCll → s.clIdx.toNat < s.hclen.toNat ∧ s.hclen.toNat ≤ 19
  /-- From the dynamic header to the codes, the counts are in range (R51). -/
  counts : s.phase = .dynCll ∨ s.phase = .dynLens →
    257 ≤ s.hlit.toNat ∧ s.hlit.toNat ≤ 288 ∧ 1 ≤ s.hdist.toNat ∧ s.hdist.toNat ≤ 32
  /-- In DYN_LENS entries are left (R215), and `prev_len` is the last entry written (R217). -/
  lensLeft : s.phase = .dynLens → s.lenIdx.toNat < totalLens s ∧
    (s.prevValid = true → 1 ≤ s.lenIdx.toNat ∧ s.lens[s.lenIdx.toNat - 1]? = some s.prevLen)
  /-- Between steps an element that is being read still needs a bit (R83, R206): a complete one has been executed. -/
  reading : readsInput s.phase = true → ∃ r, look s.codes s.reader = .more r
  /-- Inside a codeword no bits of a field are held (R54, R206). -/
  codewordOnly : s.reader.inCodeword = true → s.fld = []
  /-- While a byte is copied or offered, no element is being read (R90, R362). -/
  betweenElements : s.phase = .copy ∨ s.outValid = true → s.part = .start ∧ s.fld = []

/-- The element is a length code with `n` extra bits of value `x` (R263 to R291, R294): it is encoded as the codeword of
its symbol and those bits, and whatever the state, it answers the state in which the length code's index, the length and
the next phase are written, and nothing else. -/
def formsLength (i : Instr) (index n x len : Nat) : Prop :=
  (∀ c, encode c i = codewordBits c.ll (257 + index) ++ lsbBits n x) ∧
  ∀ s, ∃ t, exec i s = .next t ∧ t.pendSym.toNat = index ∧ t.pendLen.toNat = len ∧ t.phase = .distSym ∧
    t = { s with pendSym := t.pendSym, pendLen := t.pendLen, phase := t.phase }

/-- The element is a distance code with `n` extra bits of value `x` (R301 to R330, R361): it is encoded as the codeword of
its symbol and those bits. The distance code and the distance are written, and then either the copy begins or
`InvalidDistance` is raised, and nothing else changes. -/
def formsDistance (i : Instr) (sym n x dist : Nat) : Prop :=
  (∀ c, encode c i = codewordBits c.d sym ++ lsbBits n x) ∧
  ∀ s, ∃ t, exec i s = .next t ∧ t.pendSym.toNat = sym ∧ t.pendDist.toNat = dist ∧
    (dist ≤ s.hist.toNat → t.phase = .copy ∧ t.copyRem = s.pendLen ∧ t.err = s.err) ∧
    (s.hist.toNat < dist → t.phase = .error ∧ t.copyRem = s.copyRem ∧ t.err = .invalidDistance) ∧
    t = { s with
      pendSym := t.pendSym, pendDist := t.pendDist, copyRem := t.copyRem, phase := t.phase, err := t.err }

/-- Split and BuildBlockCodes (R221, R222): `t` is `s`, whose sequence of code lengths is complete, with the lengths split
between the two alphabets, and then either both codes built and the first token next, or `InvalidHuffmanCode` raised for
an over-subscribed `LL`, or for `D` where `LL` is not. Nothing else changes. -/
def splitAndBuilt (s t : State) : Prop :=
  t.llLen.length = 288 ∧ t.dLen.length = 32 ∧
  (∀ k < 288, t.llLen[k]? = some (if k < s.hlit.toNat then s.lens.getD k 0 else 0)) ∧
  (∀ k < 32, t.dLen[k]? = some (if k < s.hdist.toNat then s.lens.getD (s.hlit.toNat + k) 0 else 0)) ∧
  (build 15 t.llLen = none → t.phase = .error ∧ t.err = .invalidHuffmanCode ∧ t.ll = s.ll ∧ t.d = s.d) ∧
  (∀ T, build 15 t.llLen = some T → t.ll = T ∧
    (build 15 t.dLen = none → t.phase = .error ∧ t.err = .invalidHuffmanCode ∧ t.d = s.d) ∧
    (∀ U, build 15 t.dLen = some U → t.phase = .token ∧ t.err = s.err ∧ t.d = U)) ∧
  t = { s with llLen := t.llLen, dLen := t.dLen, ll := t.ll, d := t.d, phase := t.phase, err := t.err }

/-- The element is a code-length symbol with `n` extra bits of value `x` that repeats the length 0 `r` times (R218 to R220):
it raises where that does not fit, and otherwise writes those entries, and completes the sequence if it fills it (R215). -/
def repeatsZero (i : Instr) (sym n x r : Nat) : Prop :=
  (∀ c, encode c i = codewordBits c.cl sym ++ lsbBits n x) ∧
  ∀ s, s.lens.length = 320 → s.hlit.toNat + s.hdist.toNat ≤ 320 →
    (s.hlit.toNat + s.hdist.toNat < s.lenIdx.toNat + r →
      exec i s = .next { s with err := .invalidDynamicTableDescription, phase := .error }) ∧
    (s.lenIdx.toNat + r ≤ s.hlit.toNat + s.hdist.toNat →
      ∃ t, exec i s = .next t ∧ t.lenIdx.toNat = s.lenIdx.toNat + r ∧
        (∀ j, t.lens[j]? = if s.lenIdx.toNat ≤ j ∧ j < s.lenIdx.toNat + r then some 0 else s.lens[j]?) ∧
        t.prevLen = 0 ∧ t.prevValid = true ∧
        (s.lenIdx.toNat + r < s.hlit.toNat + s.hdist.toNat →
          t = { s with lens := t.lens, lenIdx := t.lenIdx, prevLen := 0, prevValid := true }) ∧
        (s.lenIdx.toNat + r = s.hlit.toNat + s.hdist.toNat →
          splitAndBuilt { s with lens := t.lens, lenIdx := t.lenIdx, prevLen := 0, prevValid := true } t))

/-- The phases one step can lead to from each phase, without reset (R42, whose rows a step may run through several of:
a token's length code goes from TOKEN through LEN_EXTRA to DIST_SYM in one step). Staying is a stall, or a loop's turn. -/
def phasesAfter : Phase → List Phase
  | .hdr => [.hdr, .storedHdr, .token, .dynHdr, .error]
  | .dynHdr => [.dynHdr, .dynCll, .error]
  | .dynCll => [.dynCll, .dynLens, .error]
  | .dynLens => [.dynLens, .token, .error]
  | .token => [.token, .lenExtra, .distSym, .hdr, .done, .error]
  | .lenExtra => [.lenExtra, .distSym, .error]
  | .distSym => [.distSym, .distExtra, .copy, .error]
  | .distExtra => [.distExtra, .copy, .error]
  | .copy => [.copy, .token]
  | .storedHdr => [.storedHdr, .storedCopy, .hdr, .done, .error]
  | .storedCopy => [.storedCopy, .hdr, .done, .error]
  | .done => [.done]
  | .error => [.error]

/-- A run that stops neither with a fault nor with a refusal. -/
def safeRun (k : Nat) (s : State) : Prop := ∃ t, Sys2Proof.core.run k s = .next t

end Sys2Proof.Machine
end

