-- ==== Sys2Proof/Certificates/Slice0/Obligations.lean ====
section
/-! DEFINITION. The statements about the engine, from the numbered rules of the spec. -/

open Sys2Proof Sys2Proof.Machine

/-! ### Reset, DONE and ERROR, and the invariant -/

/-- R470, R471: a cycle with `rst` = 1 gives every register the value R470 states, in any phase. A byte offered to the
engine stays with the source, and a byte on `out_data` is withdrawn. (The registers R470 leaves unspecified are not in
this statement; the model's values for them are log entry 6's.) -/
def Obligations.ResetCycleSetsTheStatedValues : Prop :=
  ∀ s : State, s.rst = true →
    inReady s = false ∧
    ∃ t, step s = .next t ∧
      t.phase = .hdr ∧ t.bfinal = false ∧ t.btype = 0 ∧ t.bitbuf = 0 ∧ t.bitcnt = 0 ∧ t.inCount = 0 ∧
      t.lenIdx = 0 ∧ t.clIdx = 0 ∧ t.prevLen = 0 ∧ t.prevValid = false ∧ t.curCode = 0 ∧ t.curLen = 0 ∧
      t.copyRem = 0 ∧ t.storedLen = 0 ∧ t.storedNlen = 0 ∧ t.storedRem = 0 ∧ t.wp = 0 ∧ t.hist = 0 ∧
      t.err = .none ∧ t.outCount = 0 ∧ t.outValid = false ∧ t.out = [] ∧ (∀ a, Memory.read t.win a = none) ∧
      t.src = s.src ∧ t.outReady = s.outReady ∧ t.cfg = s.cfg

/-- R476, R86: in DONE and ERROR nothing changes, no byte is taken, and none is offered. -/
def Obligations.DoneAndErrorAreIdle : Prop :=
  ∀ s : State, s.rst = false → s.outValid = false → s.phase = .done ∨ s.phase = .error →
    step s = .next s ∧ inReady s = false

/-- R421: raising an error records its code and the ERROR phase, nothing else, and from then on the engine neither takes
nor offers a byte. -/
def Obligations.RaiseRecordsTheErrorAndFreezesTheEngine : Prop :=
  ∀ (e : ErrCode) (s : State),
    raise e s = { s with err := e, phase := .error } ∧
    (s.rst = false → s.outValid = false →
      step (raise e s) = .next (raise e s) ∧ inReady (raise e s) = false)

/-- R470: the state right after reset meets the invariant. -/
def Obligations.ResetStateMeetsTheInvariant : Prop := Inv State.reset

/-- R60, R61, R93, R361 and the register ranges of 10_state.md: every step keeps the invariant. -/
def Obligations.EveryStepKeepsTheInvariant : Prop :=
  ∀ s t : State, Inv s → step s = .next t → Inv t

/-- R91, R93: a `WinRead` whose precondition fails never occurs, so a step from the invariant is never a fault. -/
def Obligations.NoStepFaultsUnderTheInvariant : Prop :=
  ∀ s : State, Inv s → ∃ t, step s = .next t

/-- R135, R435: whatever the source does and whatever the parameter is, with the sink ready in every step or in none, no
run from reset stops with a fault or a refusal: every bit string decodes to an element with a rule, raises an error, or
waits for input. (A sink that varies is in the step statements, which hold for either level at every step:
EveryStepKeepsTheInvariant and NoStepFaultsUnderTheInvariant. The source's list of cycles is log entry 1's.) -/
def Obligations.EveryStreamRunsWithoutAFault : Prop :=
  ∀ (src : List InSample) (ready : Bool) (cfg : Config) (k : Nat),
    safeRun k { State.reset with src := src, outReady := ready, cfg := cfg }

/-- R91: where its precondition fails, a copy's `WinRead` is a fault. (R91 says a model may do so; the fault is the
model's choice, log entry 4. Such a state is reached by no run: NoStepFaultsUnderTheInvariant.) -/
def Obligations.CopyBeyondTheHistoryFaults : Prop :=
  ∀ s : State, s.rst = false → s.outValid = false → s.phase = .copy → s.copyRem ≠ 0 →
    s.hist.toNat < s.pendDist.toNat → step s = .fault .winReadPrecondition

/-! ### The bit source -/

/-- R432: the priority of the input signals in a cycle in which the engine needs a byte. -/
def Obligations.InputSignalsHaveAPriority : Prop :=
  ∀ (s : State) (p : InSample) (rest : List InSample), s.src = p :: rest →
    fetchByte s =
      if p.inErr then .raised .sourceError s
      else if p.inValid then
        .got () { s with bitbuf := p.inData, bitcnt := 8, inCount := s.inCount + 1, src := rest }
      else if p.inEnd then .raised .unexpectedEndOfInput s
      else .wait { s with src := rest }

/-- R82: the bit consumed is bit 0 of the buffer, of the byte just fetched if the buffer was empty. -/
def Obligations.ReadBitConsumesTheLowestBit : Prop :=
  ∀ s : State,
    (s.bitcnt ≠ 0 →
      readBit s = .got (s.bitbuf.getLsbD 0) { s with bitbuf := s.bitbuf >>> 1, bitcnt := s.bitcnt - 1 }) ∧
    (∀ t, s.bitcnt = 0 → fetchByte s = .got () t →
      readBit s = .got (t.bitbuf.getLsbD 0) { t with bitbuf := t.bitbuf >>> 1, bitcnt := t.bitcnt - 1 }) ∧
    (∀ t, s.bitcnt = 0 → fetchByte s = .wait t → readBit s = .wait t) ∧
    (∀ e t, s.bitcnt = 0 → fetchByte s = .raised e t → readBit s = .raised e t)

/-- R84: alignment discards what is left of the byte, whatever it holds, and the next bit is the first of the next
byte. R390, R391: a stored block's header aligns before the first bit of LEN is read, not again inside it, and no other
element aligns. -/
def Obligations.AlignmentOpensTheNextByte : Prop :=
  ∀ (s : State) (buf : BitVec 8) (cnt : BitVec 4),
    alignToByte s = { s with bitbuf := 0, bitcnt := 0 } ∧
    alignToByte { s with bitbuf := buf, bitcnt := cnt } = alignToByte s ∧
    bitpos (alignToByte s) = 8 * (s.inCount.toNat : Int) ∧
    (s.phase = .storedHdr → s.fld = [] → beginElement s = alignToByte s) ∧
    (s.phase = .storedHdr → s.fld ≠ [] → beginElement s = s) ∧
    (s.phase ≠ .storedHdr → (beginElement s).bitbuf = s.bitbuf ∧ (beginElement s).bitcnt = s.bitcnt) ∧
    ∀ p rest, s.src = p :: rest → p.inValid = true → p.inErr = false →
      readBit (alignToByte s) = .got (p.inData.getLsbD 0)
        { s with bitbuf := p.inData >>> 1, bitcnt := 7, inCount := s.inCount + 1, src := rest }

/-- R86: a step takes a byte only to consume a bit of it, so a step that took one has left at most 7 bits held. -/
def Obligations.ByteIsTakenOnlyToConsumeABit : Prop :=
  ∀ s t : State, s.rst = false → step s = .next t → t.inCount ≠ s.inCount → t.bitcnt.toNat ≤ 7

/-- R31, R81, R86 and the model's `in_ready` (log entry 8): when a byte is needed and `in_ready` is 0, the step takes none.
When `in_ready` is 1, the step takes the byte that is offered. -/
def Obligations.NoByteIsTakenWhileNotReady : Prop :=
  (∀ s t : State, s.rst = false → needsByte s = true → inReady s = false → step s = .next t →
    t.inCount = s.inCount) ∧
  (∀ s : State, Inv s → inReady s = true →
    ∃ p rest t, s.src = p :: rest ∧ p.inValid = true ∧ p.inErr = false ∧ step s = .next t ∧ t.src <:+ rest ∧
      t.inCount ≠ s.inCount)

/-- R46: the bit position never falls. -/
def Obligations.BitPositionNeverFalls : Prop :=
  ∀ s t : State, s.rst = false → step s = .next t →
    t.bitcnt.toNat ≤ 8 * (t.inCount - s.inCount).toNat + s.bitcnt.toNat

/-- R83: a field read with `ReadBits(n)` has its first-consumed bit as bit 0. -/
def Obligations.FieldsAreReadLeastSignificantFirst : Prop :=
  ∀ n v : Nat, v < 2 ^ n → (lsbBits n v).length = n ∧ bitsToNat (lsbBits n v) = v ∧
    ∀ k, k < n → (lsbBits n v)[k]? = some (v.testBit k)

/-- R85: LEN and NLEN are little-endian, and a raw byte equals the input byte. -/
def Obligations.MultiByteFieldsAreLittleEndian : Prop :=
  ∀ (c : Codes) (a0 a1 b0 b1 : Byte) (rest : List Byte),
    decode c (Reader.start .storedHdr) (byteBits (a0 :: a1 :: b0 :: b1 :: rest)) =
      .instr (.stHeader (a1 ++ a0) (b1 ++ b0)) (Reader.start .storedHdr) (byteBits rest) ∧
    decode c (Reader.start .storedCopy) (byteBits (a0 :: a1 :: rest)) =
      .instr (.stData a0) (Reader.start .storedCopy) (byteBits (a1 :: rest))

/-! ### From bits to elements -/

/-- R120, R138: when the bits to come decode to an element, in the format the phase selects, the step is that element's
meaning, at a state in which reading has changed nothing but what reading may, and exactly its bits are consumed. -/
def Obligations.StepRunsTheDecodedElement : Prop :=
  ∀ (s : State) (i : Instr) (r : Reader) (rest : List Bool),
    s.rst = false → s.outValid = false → readsInput s.phase = true →
    decode (beginElement s).codes (beginElement s).reader (upcoming (beginElement s)) = .instr i r rest →
    ∃ t, step s = exec i t ∧ readsOnly (beginElement s) t ∧ t.reader = r ∧ upcoming t = rest

/-- R206, R427: bits that begin no codeword end the stream with `InvalidHuffmanCode`, the bit that shows it consumed. In
the phases that decode a symbol, the decoder rejects exactly at the first bit after which the bits read are no codeword and
no beginning of one; in the phases of fixed-width fields it never rejects. -/
def Obligations.StepRaisesOnABadCodeword : Prop :=
  (∀ (s : State) (r : Reader) (rest : List Bool),
    s.rst = false → s.outValid = false → readsInput s.phase = true →
    decode (beginElement s).codes (beginElement s).reader (upcoming (beginElement s)) = .invalidHuffmanCode r rest →
    ∃ t, step s = .next { t with err := .invalidHuffmanCode, phase := .error } ∧
      readsOnly (beginElement s) t ∧ t.reader = r ∧ upcoming t = rest) ∧
  (∀ (c : Codes) (bits rest : List Bool), c.ll.ok → c.d.ok → c.cl.ok →
    c.ll.length ≤ 288 → c.d.length ≤ 32 → c.cl.length ≤ 19 →
    ((∃ r, decode c (Reader.start .token) bits = .invalidHuffmanCode r rest) ↔ c.ll.rejects bits rest) ∧
    ((∃ r, decode c (Reader.start .distSym) bits = .invalidHuffmanCode r rest) ↔ c.d.rejects bits rest) ∧
    ((∃ r, decode c (Reader.start .dynLens) bits = .invalidHuffmanCode r rest) ↔ c.cl.rejects bits rest) ∧
    ∀ ph ∈ [Phase.hdr, .dynHdr, .dynCll, .storedHdr, .storedCopy], ∀ r,
      decode c (Reader.start ph) bits ≠ .invalidHuffmanCode r rest)

/-- R13, R81, R422, R428: when the source's bytes end inside an element, what was read is kept, and then the port's next
cycle decides: an I/O error, the end of the input, or a stall. -/
def Obligations.StepWithoutInputStallsOrRaises : Prop :=
  ∀ (s : State) (r : Reader),
    s.rst = false → s.outValid = false → readsInput s.phase = true →
    decode (beginElement s).codes (beginElement s).reader (upcoming (beginElement s)) = .short r →
    ∃ t, readsOnly (beginElement s) t ∧ t.reader = r ∧ upcoming t = [] ∧
      step s =
        match t.src with
        | [] => .next t
        | p :: rest =>
          if p.inErr then .next { t with err := .sourceError, phase := .error }
          else if p.inEnd then .next { t with err := .unexpectedEndOfInput, phase := .error }
          else .next { t with src := rest }

/-- R128: no element is longer than 32 bits, so 32 bits are always enough to know what it is. -/
def Obligations.ThirtyTwoBitsSettleAnElement : Prop :=
  ∀ (c : Codes) (ph : Phase) (bits : List Bool), 32 ≤ bits.length →
    ∀ r, decode c (Reader.start ph) bits ≠ .short r

/-- R13: a stall changes no state, so it does not matter where the source makes the engine wait. With a cycle of waiting
put anywhere among the source's cycles, a step does what it did without it and leaves that cycle further ahead, or it
stalls once and the step after it does what the one step did. -/
def Obligations.StallsDoNotChangeTheResult : Prop :=
  ∀ (s : State) (pre post : List InSample) (data : Byte), s.src = pre ++ post → s.rst = false →
    let wait : InSample := { inValid := false, inData := data, inEnd := false, inErr := false }
    let s' : State := { s with src := pre ++ wait :: post }
    (∃ t pre', step s = .next t ∧ t.src = pre' ++ post ∧ step s' = .next { t with src := pre' ++ wait :: post }) ∨
    (∃ u, step s' = .next u ∧ step u = step s) ∨
    (∃ f, step s = .fault f ∧ step s' = .fault f)

/-- R122, R123, R125 to R127: for every element that can stand in a stream under the given codes, with every operand at
every value, decoding its encoding gives it back and leaves what follows. And an element is decoded from no other bits: in
a phase in which elements begin, what decodes to an element is that element's encoding and the bits left over. -/
def Obligations.EncodedElementsDecodeBack : Prop :=
  ∀ c : Codes, c.ll.ok → c.d.ok → c.cl.ok →
    (∀ (i : Instr) (rest : List Bool), i.wellFormed c = true →
      ∃ r, decode c (Reader.start i.form.1) (encode c i ++ rest) = .instr i r rest) ∧
    (∀ (ph : Phase) (bits : List Bool) (i : Instr) (r : Reader) (rest : List Bool), beganIn ph = ph →
      decode c (Reader.start ph) bits = .instr i r rest →
      i.wellFormed c = true ∧ i.form.1 = ph ∧ bits = encode c i ++ rest)

/-- Words written out from the spec: BH (R122), V1's literal and EOB, DH of P3, and the fixed codewords of R131 and
R132. -/
def Obligations.SpecWordsDecode : Prop :=
  (decode tableCodes (Reader.start .hdr) [true, true, false]).instr? = some (.bhFixed true) ∧
  (decode tableCodes (Reader.start .token) [false, true, true, true, false, false, false, true]).instr? =
    some (.lit 0x41) ∧
  (decode tableCodes (Reader.start .token) [false, false, false, false, false, false, false]).instr? = some .eob ∧
  (decode tableCodes (Reader.start .dynHdr)
      [true, false, false, false, false, false, false, false, false, false, false, true, true, true]).instr? =
    some (.dynHeader 1 0 14) ∧
  (decode tableCodes (Reader.start .token) [false, false, false, true, true, false, true, true, true]).instr? =
    some (.len269 3) ∧
  (decode tableCodes (Reader.start .distSym) [false, false, true, true, false, true, false]).instr? =
    some (.dist6 1)

/-! ### Canonical codes -/

/-- R201: `Build` raises exactly on over-subscribed lengths, by the Kraft sum over the used symbols; a complete or
incomplete code is built. -/
def Obligations.BuildRejectsExactlyOverSubscribedLengths : Prop :=
  ∀ (maxbits : Nat) (L : List (BitVec 4)), (∀ l ∈ L, l.toNat ≤ maxbits) →
    (build maxbits L = none ↔
      2 ^ maxbits < ((L.filter fun l => l != 0).map fun l => 2 ^ (maxbits - l.toNat)).sum)

/-- R203: no codeword of a code that `Build` gives is a prefix of another, and every codeword fits in its length. -/
def Obligations.BuiltCodesArePrefixFree : Prop :=
  ∀ (maxbits : Nat) (L : List (BitVec 4)) (T : Code), (∀ l ∈ L, l.toNat ≤ maxbits) →
    build maxbits L = some T → T.ok

/-- R202: the code has the given lengths, and each used symbol has the first codeword of its length, by the table `next`,
plus the number of symbols of that length before it. So codewords of one length are consecutive in symbol order, and every
codeword is numerically above the beginnings of its size of all shorter codewords. -/
def Obligations.CodewordsOfOneLengthAreConsecutive : Prop :=
  ∀ (maxbits : Nat) (L : List (BitVec 4)) (T : Code), (∀ l ∈ L, l.toNat ≤ maxbits) →
    build maxbits L = some T →
    T.map (fun w => w.len) = L ∧
    (∀ (s : Nat) (w : Codeword), T[s]? = some w → w.len ≠ 0 →
      w.code.toNat = firstCodeword L w.len.toNat + (L.take s).countP fun l => l.toNat == w.len.toNat) ∧
    (∀ (a b : Nat) (v w : Codeword), a < b → T[a]? = some v → T[b]? = some w → v.len = w.len → v.len ≠ 0 →
      (∀ k u, a < k → k < b → T[k]? = some u → u.len ≠ v.len) → w.code.toNat = v.code.toNat + 1) ∧
    (∀ (a b : Nat) (v w : Codeword), T[a]? = some v → T[b]? = some w → v.len ≠ 0 → v.len.toNat < w.len.toNat →
      v.code.toNat < w.code.toNat >>> (w.len.toNat - v.len.toNat))

/-- R133: the fixed codewords, as the table of R133 lists them. -/
def Obligations.FixedCodewordsAreAsTabulated : Prop :=
  fixedLl.length = 288 ∧ fixedD.length = 32 ∧
  (∀ s < 144, codewordBits fixedLl s = msbBits 8 (0x30 + s)) ∧
  (∀ s < 256, 144 ≤ s → codewordBits fixedLl s = msbBits 9 (0x190 + (s - 144))) ∧
  (∀ s < 280, 256 ≤ s → codewordBits fixedLl s = msbBits 7 (s - 256)) ∧
  (∀ s < 288, 280 ≤ s → codewordBits fixedLl s = msbBits 8 (0xC0 + (s - 280))) ∧
  (∀ ds < 32, codewordBits fixedD ds = msbBits 5 ds)

/-! ### Block headers and dynamic tables -/

/-- R173 to R176: the four headers, from their three bits to their effect. -/
def Obligations.HeadersSelectTheBlockType : Prop :=
  ∀ (c : Codes) (f : Bool) (rest : List Bool) (s : State),
    (decode c (Reader.start .hdr) (f :: false :: false :: rest)).instr? = some (.bhStored f) ∧
    exec (.bhStored f) s = .next { s with bfinal := f, btype := 0, phase := .storedHdr } ∧
    (decode c (Reader.start .hdr) (f :: true :: false :: rest)).instr? = some (.bhFixed f) ∧
    exec (.bhFixed f) s = .next { s with bfinal := f, btype := 1, ll := fixedLl, d := fixedD, phase := .token } ∧
    (decode c (Reader.start .hdr) (f :: false :: true :: rest)).instr? = some (.bhDynamic f) ∧
    exec (.bhDynamic f) s = .next { s with bfinal := f, btype := 2, phase := .dynHdr } ∧
    (decode c (Reader.start .hdr) (f :: true :: true :: rest)).instr? = some (.bhReserved f) ∧
    exec (.bhReserved f) s =
      .next { s with bfinal := f, btype := 3, err := .reservedBlockType, phase := .error }

/-- R211, R212: the counts, and the check that `STRICT_COUNTS` turns on. -/
def Obligations.DynamicHeaderSetsTheCounts : Prop :=
  ∀ (hlit hdist : BitVec 5) (hclen : BitVec 4) (s : State),
    ∃ t, exec (.dynHeader hlit hdist hclen) s = .next t ∧
      t.hlit.toNat = hlit.toNat + 257 ∧ t.hdist.toNat = hdist.toNat + 1 ∧ t.hclen.toNat = hclen.toNat + 4 ∧
      (s.cfg.strictCounts = true ∧ (286 < t.hlit.toNat ∨ 30 < t.hdist.toNat) →
        t.phase = .error ∧ t.err = .invalidDynamicTableDescription ∧ t.clIdx = s.clIdx) ∧
      (¬ (s.cfg.strictCounts = true ∧ (286 < t.hlit.toNat ∨ 30 < t.hdist.toNat)) →
        t.phase = .dynCll ∧ t.err = s.err ∧ t.clIdx = 0) ∧
      t = { s with
        hlit := t.hlit, hdist := t.hdist, hclen := t.hclen, clIdx := t.clIdx, phase := t.phase, err := t.err }

/-- R213: each code-length code length but the last goes to its symbol of the permutation, and the symbols not sent are
cleared before the first. -/
def Obligations.CodeLengthFieldsFillTheirSymbols : Prop :=
  ∀ (len : BitVec 3) (s : State),
    (s.phase = .dynCll → s.fld = [] → s.clIdx = 0 → beginElement s = { s with clLen := List.replicate 19 0 }) ∧
    (s.clIdx.toNat + 1 < s.hclen.toNat → s.hclen.toNat ≤ 19 → ∃ t, exec (.clCodeLength len) s = .next t ∧
      t.clLen = s.clLen.set
        ([16, 17, 18, 0, 8, 7, 9, 6, 10, 5, 11, 4, 12, 3, 13, 2, 14, 1, 15].getD s.clIdx.toNat 0) len ∧
      t.clIdx.toNat = s.clIdx.toNat + 1 ∧ t = { s with clLen := t.clLen, clIdx := t.clIdx })

/-- R214: after the last one the code-length code is built, or over-subscribed lengths raise. -/
def Obligations.LastCodeLengthFieldBuildsTheCode : Prop :=
  ∀ (len : BitVec 3) (s : State), s.clIdx.toNat + 1 = s.hclen.toNat → s.hclen.toNat ≤ 19 →
    let clLen := s.clLen.set
      ([16, 17, 18, 0, 8, 7, 9, 6, 10, 5, 11, 4, 12, 3, 13, 2, 14, 1, 15].getD s.clIdx.toNat 0) len
    (∀ T, build 7 (clLen.map fun l => l.setWidth 4) = some T →
      exec (.clCodeLength len) s = .next { s with
        clLen := clLen, clIdx := s.clIdx + 1, cl := T, lenIdx := 0, prevLen := 0, prevValid := false
        phase := .dynLens }) ∧
    (build 7 (clLen.map fun l => l.setWidth 4) = none →
      exec (.clCodeLength len) s = .next { s with
        clLen := clLen, clIdx := s.clIdx + 1, err := .invalidHuffmanCode, phase := .error })

/-- R216, and R215, R221, R222 for the symbol that completes the sequence: a code-length symbol 0 to 15 writes one entry,
which becomes the previous length. While entries are missing nothing else changes, and the last entry is followed by the
split and the two builds. -/
def Obligations.CodeLengthSymbolWritesOneEntry : Prop :=
  ∀ (sym : BitVec 4) (s : State), s.hlit.toNat + s.hdist.toNat ≤ 320 →
    let s' : State :=
      { s with lens := s.lens.set s.lenIdx.toNat sym, lenIdx := s.lenIdx + 1, prevLen := sym, prevValid := true }
    (∀ c, encode c (.clLen sym) = codewordBits c.cl sym.toNat) ∧
    (s.lenIdx.toNat + 1 < s.hlit.toNat + s.hdist.toNat → exec (.clLen sym) s = .next s') ∧
    (s.lenIdx.toNat + 1 = s.hlit.toNat + s.hdist.toNat →
      ∃ t, exec (.clLen sym) s = .next t ∧ splitAndBuilt s' t)

/-- R217, R220: symbol 16 repeats the previous length 3 + extra times where that fits, and raises where there is none,
with no extra bits read, or where it does not fit. A repeat that exactly fills the sequence completes it (R215). -/
def Obligations.RepeatOfThePreviousLength : Prop :=
  ∀ (x : BitVec 2) (s : State), s.lens.length = 320 → s.hlit.toNat + s.hdist.toNat ≤ 320 →
    (∀ c, encode c (.clRepPrev x) = codewordBits c.cl 16 ++ (if c.prevValid then lsbBits 2 x.toNat else [])) ∧
    (s.prevValid = false →
      exec (.clRepPrev x) s = .next { s with err := .invalidDynamicTableDescription, phase := .error }) ∧
    (s.prevValid = true → s.hlit.toNat + s.hdist.toNat < s.lenIdx.toNat + (3 + x.toNat) →
      exec (.clRepPrev x) s = .next { s with err := .invalidDynamicTableDescription, phase := .error }) ∧
    (s.prevValid = true → s.lenIdx.toNat + (3 + x.toNat) ≤ s.hlit.toNat + s.hdist.toNat →
      ∃ t, exec (.clRepPrev x) s = .next t ∧ t.lenIdx.toNat = s.lenIdx.toNat + (3 + x.toNat) ∧
        (∀ j, t.lens[j]? = if s.lenIdx.toNat ≤ j ∧ j < s.lenIdx.toNat + (3 + x.toNat) then some s.prevLen
          else s.lens[j]?) ∧
        (s.lenIdx.toNat + (3 + x.toNat) < s.hlit.toNat + s.hdist.toNat →
          t = { s with lens := t.lens, lenIdx := t.lenIdx }) ∧
        (s.lenIdx.toNat + (3 + x.toNat) = s.hlit.toNat + s.hdist.toNat →
          splitAndBuilt { s with lens := t.lens, lenIdx := t.lenIdx } t))

/-- R218 to R220: symbols 17 and 18 repeat the length 0 where that fits, and raise where it does not. A repeat that
exactly fills the sequence completes it (R215). -/
def Obligations.RepeatsOfLengthZero : Prop :=
  (∀ x, repeatsZero (.clRepZ3 x) 17 3 x.toNat (3 + x.toNat)) ∧
  (∀ x, repeatsZero (.clRepZ11 x) 18 7 x.toNat (11 + x.toNat))

/-! ### Tokens -/

/-- R261, R360: a literal is emitted when the sink is ready, and waits on the output port while it is not. -/
def Obligations.LiteralIsEmitted : Prop :=
  ∀ (b : Byte) (s : State),
    (∀ c, encode c (.lit b) = codewordBits c.ll b.toNat) ∧
    (s.outReady = true → exec (.lit b) s = .next { s with
      phase := .token, outValid := false, outData := b, win := Memory.write s.win s.wp.toNat b, wp := s.wp + 1
      hist := BitVec.ofNat 16 (min (s.hist.toNat + 1) 32768), outCount := s.outCount + 1, out := s.out ++ [b] }) ∧
    (s.outReady = false → exec (.lit b) s = .next { s with phase := .token, outValid := true, outData := b })

/-- R90: a cycle in which the sink does not take the offered byte changes nothing. In the cycle in which it does, in any
phase, the byte is emitted, and what was waiting for it goes on: R362, R366: a copy has one byte less to emit, and goes to
TOKEN after its last; R395, R177: a stored block has one byte less, and ends after its last; in the other phases nothing
else changes. Where the count is 0 already, which R362 and R395 do not reach and `Inv.copying` and `Inv.storing` exclude from
every run, the byte is emitted too and the count wraps (`copy_rem` to 511, `stored_rem` to 65535): the model's choice, log
entry 12. -/
def Obligations.OfferedByteIsTakenOrWaits : Prop :=
  ∀ s : State, s.rst = false → s.outValid = true →
    (s.outReady = false → step s = .next s) ∧
    (s.outReady = true → step s = .next { s with
      outValid := false, win := Memory.write s.win s.wp.toNat s.outData, wp := s.wp + 1
      hist := BitVec.ofNat 16 (min (s.hist.toNat + 1) 32768), outCount := s.outCount + 1, out := s.out ++ [s.outData]
      copyRem := if s.phase = .copy then s.copyRem - 1 else s.copyRem
      storedRem := if s.phase = .storedCopy then s.storedRem - 1 else s.storedRem
      phase :=
        if s.phase = .copy then (if s.copyRem = 1 then .token else .copy)
        else if s.phase = .storedCopy then
          (if s.storedRem = 1 then (if s.bfinal then .done else .hdr) else .storedCopy)
        else s.phase })

/-- R262, R177: end of block goes to the next header, or to DONE after the final block. -/
def Obligations.EndOfBlockEndsTheBlock : Prop :=
  ∀ s : State,
    (∀ c, encode c .eob = codewordBits c.ll 256) ∧
    (s.bfinal = true → exec .eob s = .next { s with phase := .done }) ∧
    (s.bfinal = false → exec .eob s = .next { s with phase := .hdr })

/-- R263 to R270: the length codes without extra bits below 265. -/
def Obligations.LengthCodes257To264 : Prop :=
    formsLength .len257 0 0 0 3 ∧
    formsLength .len258 1 0 0 4 ∧
    formsLength .len259 2 0 0 5 ∧
    formsLength .len260 3 0 0 6 ∧
    formsLength .len261 4 0 0 7 ∧
    formsLength .len262 5 0 0 8 ∧
    formsLength .len263 6 0 0 9 ∧
    formsLength .len264 7 0 0 10

/-- R271 to R282: the length codes with one to three extra bits. -/
def Obligations.LengthCodes265To276 : Prop :=
    (∀ x, formsLength (.len265 x) 8 1 x.toNat (11 + x.toNat)) ∧
    (∀ x, formsLength (.len266 x) 9 1 x.toNat (13 + x.toNat)) ∧
    (∀ x, formsLength (.len267 x) 10 1 x.toNat (15 + x.toNat)) ∧
    (∀ x, formsLength (.len268 x) 11 1 x.toNat (17 + x.toNat)) ∧
    (∀ x, formsLength (.len269 x) 12 2 x.toNat (19 + x.toNat)) ∧
    (∀ x, formsLength (.len270 x) 13 2 x.toNat (23 + x.toNat)) ∧
    (∀ x, formsLength (.len271 x) 14 2 x.toNat (27 + x.toNat)) ∧
    (∀ x, formsLength (.len272 x) 15 2 x.toNat (31 + x.toNat)) ∧
    (∀ x, formsLength (.len273 x) 16 3 x.toNat (35 + x.toNat)) ∧
    (∀ x, formsLength (.len274 x) 17 3 x.toNat (43 + x.toNat)) ∧
    (∀ x, formsLength (.len275 x) 18 3 x.toNat (51 + x.toNat)) ∧
    (∀ x, formsLength (.len276 x) 19 3 x.toNat (59 + x.toNat))

/-- R283 to R291: the length codes with four and five extra bits, and code 285. -/
def Obligations.LengthCodes277To285 : Prop :=
    (∀ x, formsLength (.len277 x) 20 4 x.toNat (67 + x.toNat)) ∧
    (∀ x, formsLength (.len278 x) 21 4 x.toNat (83 + x.toNat)) ∧
    (∀ x, formsLength (.len279 x) 22 4 x.toNat (99 + x.toNat)) ∧
    (∀ x, formsLength (.len280 x) 23 4 x.toNat (115 + x.toNat)) ∧
    (∀ x, formsLength (.len281 x) 24 5 x.toNat (131 + x.toNat)) ∧
    (∀ x, formsLength (.len282 x) 25 5 x.toNat (163 + x.toNat)) ∧
    (∀ x, formsLength (.len283 x) 26 5 x.toNat (195 + x.toNat)) ∧
    (∀ x, formsLength (.len284 x) 27 5 x.toNat (227 + x.toNat)) ∧
    formsLength .len285 28 0 0 258

/-- R301 to R310: distance codes 0 to 9. -/
def Obligations.DistanceCodes0To9 : Prop :=
    formsDistance .dist0 0 0 0 1 ∧
    formsDistance .dist1 1 0 0 2 ∧
    formsDistance .dist2 2 0 0 3 ∧
    formsDistance .dist3 3 0 0 4 ∧
    (∀ x, formsDistance (.dist4 x) 4 1 x.toNat (5 + x.toNat)) ∧
    (∀ x, formsDistance (.dist5 x) 5 1 x.toNat (7 + x.toNat)) ∧
    (∀ x, formsDistance (.dist6 x) 6 2 x.toNat (9 + x.toNat)) ∧
    (∀ x, formsDistance (.dist7 x) 7 2 x.toNat (13 + x.toNat)) ∧
    (∀ x, formsDistance (.dist8 x) 8 3 x.toNat (17 + x.toNat)) ∧
    (∀ x, formsDistance (.dist9 x) 9 3 x.toNat (25 + x.toNat))

/-- R311 to R320: distance codes 10 to 19. -/
def Obligations.DistanceCodes10To19 : Prop :=
    (∀ x, formsDistance (.dist10 x) 10 4 x.toNat (33 + x.toNat)) ∧
    (∀ x, formsDistance (.dist11 x) 11 4 x.toNat (49 + x.toNat)) ∧
    (∀ x, formsDistance (.dist12 x) 12 5 x.toNat (65 + x.toNat)) ∧
    (∀ x, formsDistance (.dist13 x) 13 5 x.toNat (97 + x.toNat)) ∧
    (∀ x, formsDistance (.dist14 x) 14 6 x.toNat (129 + x.toNat)) ∧
    (∀ x, formsDistance (.dist15 x) 15 6 x.toNat (193 + x.toNat)) ∧
    (∀ x, formsDistance (.dist16 x) 16 7 x.toNat (257 + x.toNat)) ∧
    (∀ x, formsDistance (.dist17 x) 17 7 x.toNat (385 + x.toNat)) ∧
    (∀ x, formsDistance (.dist18 x) 18 8 x.toNat (513 + x.toNat)) ∧
    (∀ x, formsDistance (.dist19 x) 19 8 x.toNat (769 + x.toNat))

/-- R321 to R330: distance codes 20 to 29. -/
def Obligations.DistanceCodes20To29 : Prop :=
    (∀ x, formsDistance (.dist20 x) 20 9 x.toNat (1025 + x.toNat)) ∧
    (∀ x, formsDistance (.dist21 x) 21 9 x.toNat (1537 + x.toNat)) ∧
    (∀ x, formsDistance (.dist22 x) 22 10 x.toNat (2049 + x.toNat)) ∧
    (∀ x, formsDistance (.dist23 x) 23 10 x.toNat (3073 + x.toNat)) ∧
    (∀ x, formsDistance (.dist24 x) 24 11 x.toNat (4097 + x.toNat)) ∧
    (∀ x, formsDistance (.dist25 x) 25 11 x.toNat (6145 + x.toNat)) ∧
    (∀ x, formsDistance (.dist26 x) 26 12 x.toNat (8193 + x.toNat)) ∧
    (∀ x, formsDistance (.dist27 x) 27 12 x.toNat (12289 + x.toNat)) ∧
    (∀ x, formsDistance (.dist28 x) 28 13 x.toNat (16385 + x.toNat)) ∧
    (∀ x, formsDistance (.dist29 x) 29 13 x.toNat (24577 + x.toNat))

/-- R361: the reference check, for a distance and a length of any value. -/
def Obligations.ReferenceIsCheckedBeforeItIsCopied : Prop :=
  ∀ s : State,
    (s.hist.toNat < s.pendDist.toNat →
      referenceCheck s = { s with err := .invalidDistance, phase := .error }) ∧
    (s.pendDist.toNat ≤ s.hist.toNat → referenceCheck s = { s with copyRem := s.pendLen, phase := .copy })

/-- R292, R293, R331, R332: the undefined symbols raise `InvalidHuffmanCode` right after their codewords. -/
def Obligations.UndefinedSymbolsRaise : Prop :=
  (∀ c : Codes, encode c .llRsv286 = codewordBits c.ll 286 ∧ encode c .llRsv287 = codewordBits c.ll 287 ∧
    encode c .dRsv30 = codewordBits c.d 30 ∧ encode c .dRsv31 = codewordBits c.d 31) ∧
  ∀ i ∈ [Instr.llRsv286, .llRsv287, .dRsv30, .dRsv31], ∀ s : State,
    exec i s = .next { s with err := .invalidHuffmanCode, phase := .error }

/-! ### Stored blocks -/

/-- R394, R396: a consistent header starts the raw copy, or ends the block if LEN is 0; an inconsistent one raises. -/
def Obligations.StoredHeaderChecksItsLengths : Prop :=
  ∀ (len nlen : BitVec 16) (s : State),
    (nlen = ~~~len → len ≠ 0 → exec (.stHeader len nlen) s = .next { s with
      storedLen := len, storedNlen := nlen, storedRem := len, phase := .storedCopy }) ∧
    (nlen = ~~~len → len = 0 → exec (.stHeader len nlen) s = .next { s with
      storedLen := len, storedNlen := nlen, storedRem := 0, phase := if s.bfinal then .done else .hdr }) ∧
    (nlen ≠ ~~~len → exec (.stHeader len nlen) s = .next { s with
      storedLen := len, storedNlen := nlen, err := .storedBlockLengthMismatch, phase := .error })

/-- R395, R177: a raw byte is emitted; after the last one the block ends. While the sink is not ready it waits, and the
count of bytes left stays. At `stored_rem` = 0, where R395's loop has ended and `Inv.storing` lets no run execute ST_DATA,
the byte is emitted, or offered, all the same, and an emitted one wraps the count to 65535: the model's choice, log entry
12. -/
def Obligations.RawByteIsCopied : Prop :=
  ∀ (b : Byte) (s : State),
    (s.outReady = true → exec (.stData b) s = .next { s with
      outValid := false, outData := b, win := Memory.write s.win s.wp.toNat b, wp := s.wp + 1
      hist := BitVec.ofNat 16 (min (s.hist.toNat + 1) 32768), outCount := s.outCount + 1, out := s.out ++ [b]
      storedRem := s.storedRem - 1
      phase := if s.storedRem = 1 then (if s.bfinal then .done else .hdr) else .storedCopy }) ∧
    (s.outReady = false → exec (.stData b) s = .next { s with phase := .storedCopy, outValid := true, outData := b })

/-! ### The window and the output -/

/-- R58, R90, R92: a write to the window is read back at its address and changes no other entry, and the canonical form
is kept. -/
def Obligations.WindowWritesAreReadBack : Prop :=
  ∀ (m : Memory) (a a' : Nat) (b : Byte), Memory.wf m = true → a < 32768 →
    Memory.read (Memory.write m a b) a' = (if a' = a then some b else Memory.read m a') ∧
    Memory.wf (Memory.write m a b) = true

/-- R261, R395, the frame of memory: the two emitting elements change the window at `wp` alone, and only if the sink
takes the byte. (That ST_DATA emits at `stored_rem` = 0 too, where no run executes it, is log entry 12's choice.) -/
def Obligations.EmittingElementsWriteOneWindowEntry : Prop :=
  ∀ (i : Instr) (b : Byte) (s t : State), i = .lit b ∨ i = .stData b → Memory.wf s.win = true →
    exec i s = .next t →
    (∀ a, a ≠ s.wp.toNat → Memory.read t.win a = Memory.read s.win a) ∧
    (s.outReady = true → Memory.read t.win s.wp.toNat = some b) ∧
    (s.outReady = false → Memory.read t.win s.wp.toNat = Memory.read s.win s.wp.toNat)

/-- R173 to R222, R262 to R330, R390 to R394, the frame of all other elements: they answer a next state in which the
window, the output, the output counters, the byte buffer, the host's pins and the parameter are unchanged. -/
def Obligations.OtherElementsKeepWindowAndPorts : Prop :=
  ∀ (i : Instr) (s : State), (∀ b, i ≠ .lit b) → (∀ b, i ≠ .stData b) →
    ∃ t, exec i s = .next t ∧
      (∀ a, Memory.read t.win a = Memory.read s.win a) ∧ t.wp = s.wp ∧ t.hist = s.hist ∧ t.out = s.out ∧
      t.outCount = s.outCount ∧ t.outValid = s.outValid ∧ t.outData = s.outData ∧
      t.bitbuf = s.bitbuf ∧ t.bitcnt = s.bitcnt ∧ t.inCount = s.inCount ∧ t.src = s.src ∧
      t.curCode = s.curCode ∧ t.curLen = s.curLen ∧ t.rst = s.rst ∧ t.outReady = s.outReady ∧ t.cfg = s.cfg

/-- R362, R366, R91: one turn of the copy emits the byte `pend_dist` behind the output, and counts it. If the sink is not
ready, that byte is offered and nothing else changes; OfferedByteIsTakenOrWaits is the rest of its turn. -/
def Obligations.CopyEmitsTheByteBehind : Prop :=
  ∀ s : State, Inv s → s.rst = false → s.outValid = false → s.phase = .copy →
    ∃ b, s.out[s.out.length - s.pendDist.toNat]? = some b ∧
      (s.outReady = true → ∃ t, step s = .next t ∧ t.out = s.out ++ [b] ∧ t.copyRem.toNat + 1 = s.copyRem.toNat ∧
        t.phase = (if s.copyRem.toNat = 1 then .token else .copy) ∧ t.pendDist = s.pendDist ∧
        t.inCount = s.inCount ∧ t.src = s.src ∧
        ∀ a, a ≠ s.wp.toNat → Memory.read t.win a = Memory.read s.win a) ∧
      (s.outReady = false → step s = .next { s with outValid := true, outData := b })

/-- R363: a whole copy, one byte a step: byte `k` of it equals output byte `n + k - d`, also where that byte is one this
copy produced. -/
def Obligations.CopyIsThePeriodicRepetition : Prop :=
  ∀ s : State, Inv s → s.rst = false → s.outValid = false → s.phase = .copy → s.outReady = true →
    ∃ t, Sys2Proof.core.run s.copyRem.toNat s = .next t ∧ t.phase = .token ∧
      t.out.length = s.out.length + s.copyRem.toNat ∧ s.out <+: t.out ∧
      ∀ k, k < s.copyRem.toNat →
        t.out[s.out.length + k]? = t.out[s.out.length + k - s.pendDist.toNat]?

/-- R94: the output is append-only, and a step emits at most one byte. -/
def Obligations.OutputIsAppendOnly : Prop :=
  ∀ s t : State, s.rst = false → step s = .next t →
    t.out = s.out ∨ ∃ b, t.out = s.out ++ [b]

/-- R421: a step that ends in an error emits nothing and leaves the window as it was. -/
def Obligations.FailingStepEmitsNothing : Prop :=
  ∀ s t : State, s.rst = false → s.phase ≠ .error → step s = .next t → t.phase = .error →
    t.out = s.out ∧ t.win = s.win ∧ t.wp = s.wp ∧ t.hist = s.hist ∧ t.outCount = s.outCount ∧
    t.outValid = s.outValid

/-! ### The stream's state machine -/

/-- R42: the phase moves only as the transition table allows. -/
def Obligations.PhasesMoveOnlyAlongTheTable : Prop :=
  ∀ s t : State, s.rst = false → step s = .next t → t.phase ∈ phasesAfter s.phase

/-- R477, R439: a step that changes nothing at all is one in which the engine is done, has failed, waits for the sink, or
waits for an input byte that the source never offers. That a source with no cycle to come is an empty list is log entry 1's,
and that `rst` is 0 is the model's choice, not a rule of the spec: it takes the reset pin as a pulse of one step (log entry
3), so a reset cycle always changes the state, where a reset that is held would stand still too. -/
def Obligations.StepsStandStillOnlyWhileWaiting : Prop :=
  ∀ s : State, step s = .next s → s.rst = false ∧
    (s.phase = .done ∨ s.phase = .error ∨ (s.outValid = true ∧ s.outReady = false) ∨
      (readsInput s.phase = true ∧ s.src = []))

/-- R177: DONE is entered only at the end of a block whose BFINAL is 1. -/
def Obligations.DoneOnlyAfterTheFinalBlock : Prop :=
  ∀ s t : State, s.rst = false → step s = .next t → t.phase = .done → s.phase ≠ .done →
    s.bfinal = true ∧ t.bfinal = true ∧ (s.phase = .token ∨ s.phase = .storedHdr ∨ s.phase = .storedCopy)

/-- R365: no step but reset clears the window's entries: what was written stays, or is overwritten by the byte emitted
at the write pointer. -/
def Obligations.WindowCarriesOver : Prop :=
  ∀ s t : State, Memory.wf s.win = true → s.rst = false → step s = .next t →
    s.hist.toNat ≤ 32768 → s.hist.toNat ≤ t.hist.toNat ∧ (t.wp = s.wp ∨ t.wp = s.wp + 1) ∧
    ∀ a, a ≠ s.wp.toNat → Memory.read t.win a = Memory.read s.win a

/-- R8, R30, R32: no step changes the parameter or the sink's pin, and of the source's cycles a step only uses up some
from the front (the source as a list of cycles is log entry 1's). The reset pin is low after every step: that is the model's
pulse of one step (log entry 3), not a rule of the spec. -/
def Obligations.HostSideIsOnlyRead : Prop :=
  ∀ s t : State, step s = .next t →
    t.cfg = s.cfg ∧ t.outReady = s.outReady ∧ t.rst = false ∧ t.src <:+ s.src

/-- R41, R429, R63: the numbers the status outputs show. -/
def Obligations.StatusOutputsShowTheRegisters : Prop :=
  ([Phase.hdr, .dynHdr, .dynCll, .dynLens, .token, .lenExtra, .distSym, .distExtra, .copy, .storedHdr, .storedCopy,
      .done, .error].map fun p => (phaseCode p).toNat) = List.range 13 ∧
  ([ErrCode.none, .unexpectedEndOfInput, .reservedBlockType, .invalidDynamicTableDescription, .invalidDistance,
      .storedBlockLengthMismatch, .invalidHuffmanCode, .sourceError].map fun e => (errNumber e).toNat) =
    List.range 8 ∧
  ∀ s : State,
    (busy s = true ↔ s.phase ≠ .done ∧ s.phase ≠ .error) ∧ (doneFlag s = true ↔ s.phase = .done) ∧
    (errorFlag s = true ↔ s.phase = .error) ∧ errCode s = errNumber s.err ∧ statPhase s = phaseCode s.phase ∧
    statInCount s = s.inCount ∧ statOutCount s = s.outCount
end

