-- ==== Sys2Proof/Laws/Bits.lean ====
section
/-! SUPPORT. Bit fields: their lengths, and that a field's bits give back its value. -/

namespace Sys2Proof

@[simp] theorem lsbBits_length (n v : Nat) : (lsbBits n v).length = n := by
  induction n generalizing v with
  | zero => rfl
  | succ n ih => simp [lsbBits, ih]

@[simp] theorem msbBits_length (n v : Nat) : (msbBits n v).length = n := by simp [msbBits]

theorem lsbBits_succ (n v : Nat) : lsbBits (n + 1) v = (v % 2 == 1) :: lsbBits n (v / 2) := rfl

theorem bitsToNat_lt (bs : List Bool) : bitsToNat bs < 2 ^ bs.length := by
  induction bs with
  | nil => simp [bitsToNat]
  | cons b bs ih =>
    simp only [bitsToNat, List.length_cons, Nat.pow_succ]
    cases b <;> simp <;> omega

theorem bitsToNat_lsbBits (n v : Nat) : bitsToNat (lsbBits n v) = v % 2 ^ n := by
  induction n generalizing v with
  | zero => simp [lsbBits, bitsToNat, Nat.mod_one]
  | succ n ih =>
    simp only [lsbBits, bitsToNat, ih, Nat.pow_succ']
    rw [Nat.mod_mul]
    rcases Nat.mod_two_eq_zero_or_one v with h | h <;> simp [h]

theorem bitsToNat_append (xs ys : List Bool) :
    bitsToNat (xs ++ ys) = bitsToNat xs + 2 ^ xs.length * bitsToNat ys := by
  induction xs with
  | nil => simp [bitsToNat]
  | cons b xs ih =>
    simp only [List.cons_append, bitsToNat, ih, List.length_cons, Nat.pow_succ']
    ring

theorem lsbBits_add (m n v : Nat) : lsbBits (m + n) v = lsbBits m v ++ lsbBits n (v / 2 ^ m) := by
  induction m generalizing v with
  | zero => simp [lsbBits]
  | succ m ih =>
    rw [Nat.add_right_comm]
    simp only [lsbBits, List.cons_append, ih, Nat.div_div_eq_div_mul, Nat.pow_succ']

theorem lsbBits_mod (n v : Nat) : lsbBits n (v % 2 ^ n) = lsbBits n v := by
  induction n generalizing v with
  | zero => rfl
  | succ n ih =>
    simp only [lsbBits, pow_succ', Nat.mod_mul_right_mod, Nat.mod_mul_right_div_self, ih]

theorem byteBits_cons (b : Byte) (bs : List Byte) : byteBits (b :: bs) = lsbBits 8 b.toNat ++ byteBits bs := by
  simp [byteBits]

end Sys2Proof
end

