-- ==== Sys2Proof/Laws/Huffman.lean ====
section
/-! SUPPORT. What the code builder does: the first codeword of each length, the codeword of each symbol, and the bounds
the Kraft sum gives. -/

namespace Sys2Proof

/-! ### Codewords as bits -/

theorem msbBits_split {n m : Nat} (h : n ≤ m) (w : Nat) :
    msbBits m w = msbBits n (w / 2 ^ (m - n)) ++ msbBits (m - n) w := by
  have := lsbBits_add (m - n) n w
  rw [Nat.sub_add_cancel h] at this
  simp [msbBits, this]

theorem lsbBits_inj {n v w : Nat} (hv : v < 2 ^ n) (hw : w < 2 ^ n) (h : lsbBits n v = lsbBits n w) : v = w := by
  have := congrArg bitsToNat h
  rwa [bitsToNat_lsbBits, bitsToNat_lsbBits, Nat.mod_eq_of_lt hv, Nat.mod_eq_of_lt hw] at this

/-- One codeword is a prefix of another when it is no longer and equals the other's first bits. -/
theorem msbBits_prefix {n m v w : Nat} (hv : v < 2 ^ n) (hw : w < 2 ^ m) :
    msbBits n v <+: msbBits m w ↔ n ≤ m ∧ w / 2 ^ (m - n) = v := by
  constructor
  · intro h
    have hle : n ≤ m := by simpa using h.length_le
    refine ⟨hle, ?_⟩
    rw [msbBits_split hle, List.prefix_iff_eq_take, msbBits_length, List.take_left' (by simp)] at h
    have h1 : w / 2 ^ (m - n) < 2 ^ n := by
      rw [Nat.div_lt_iff_lt_mul (by positivity), ← pow_add]
      rwa [show n + (m - n) = m by omega]
    exact (lsbBits_inj hv h1 (List.reverse_inj.1 h)).symm
  · rintro ⟨hle, rfl⟩
    rw [msbBits_split hle]
    exact List.prefix_append _ _

/-! ### Counting -/

@[simp] theorem countLen_nil (b : Nat) : countLen [] b = 0 := rfl

theorem countLen_cons (l : BitVec 4) (L : List (BitVec 4)) (b : Nat) :
    countLen (l :: L) b = (if l.toNat = b then 1 else 0) + countLen L b := by
  unfold countLen
  by_cases h : l.toNat = b <;> simp [h, Nat.add_comm]

theorem countLen_append (K L : List (BitVec 4)) (b : Nat) :
    countLen (K ++ L) b = countLen K b + countLen L b := by
  simp [countLen]

/-- There are as many symbols of a length before a symbol as after it has been counted, or one less. -/
theorem countLen_take_lt {L : List (BitVec 4)} {s : Nat} {l : BitVec 4} (h : L[s]? = some l) :
    countLen (L.take s) l.toNat + 1 ≤ countLen L l.toNat := by
  have hs : s < L.length := (List.getElem?_eq_some_iff.1 h).1
  have : L = L.take s ++ (l :: L.drop (s + 1)) := by
    rw [← (List.getElem?_eq_some_iff.1 h).2, List.getElem_cons_drop, List.take_append_drop]
  conv => rhs; rw [this, countLen_append, countLen_cons]
  simp

theorem countLen_take_mono {L : List (BitVec 4)} {a b : Nat} {l : BitVec 4} (hab : a < b) (h : L[a]? = some l) :
    countLen (L.take a) l.toNat + 1 ≤ countLen (L.take b) l.toNat := by
  have h' : (L.take b)[a]? = some l := by rw [List.getElem?_take, if_pos hab]; exact h
  have := countLen_take_lt h'
  rwa [List.take_take, Nat.min_eq_left (Nat.le_of_lt hab)] at this

/-! ### The first codewords (R202) -/

/-- `next[b]` in closed form: the codewords of shorter lengths, each extended to `b` bits. -/
def firstCode (L : List (BitVec 4)) : Nat → Nat
  | 0 => 0
  | b + 1 => 2 * (firstCode L b + (if b = 0 then 0 else countLen L b))

theorem firstCodes_getD (L : List (BitVec 4)) (n b : Nat) (hb : 1 ≤ b) (k : Nat) (hk : k < n) :
    (firstCodes L n b (firstCode L (b - 1))).getD k 0 = firstCode L (b + k) := by
  induction n generalizing b k with
  | zero => omega
  | succ n ih =>
    obtain ⟨a, rfl⟩ : ∃ a, b = a + 1 := ⟨b - 1, by omega⟩
    have hf : 2 * (firstCode L (a + 1 - 1) + (if a + 1 ≤ 1 then 0 else countLen L (a + 1 - 1))) =
        firstCode L (a + 1) := by
      simp [firstCode]
    simp only [firstCodes, hf]
    cases k with
    | zero => simp
    | succ k =>
      have := ih (a + 2) (by omega) k (by omega)
      simp only [List.getD_cons_succ]
      rw [show a + 1 + (k + 1) = a + 2 + k by omega]
      exact this

@[simp] theorem firstCodes_length (L : List (BitVec 4)) (n b code : Nat) : (firstCodes L n b code).length = n := by
  induction n generalizing b code with
  | zero => rfl
  | succ n ih => simp [firstCodes, ih]

/-- The table of first codewords `Build` starts from. -/
theorem nextTable_getD (L : List (BitVec 4)) (maxbits b : Nat) (hb : b ≤ maxbits) :
    (0 :: firstCodes L maxbits 1 0).getD b 0 = firstCode L b := by
  cases b with
  | zero => rfl
  | succ b =>
    have := firstCodes_getD L maxbits 1 (by omega) b (by omega)
    simp only [List.getD_cons_succ]
    rw [Nat.add_comm b 1]
    exact this

/-! ### The assignment loop (R202) -/

/-- Each symbol's entry: its length, and the first codeword of that length plus the symbols of that length before it. -/
theorem assignCodes_getElem? (L : List (BitVec 4)) (next : List Nat) (h : ∀ l ∈ L, l.toNat < next.length) (s : Nat) :
    (assignCodes L next)[s]? = L[s]?.map fun l =>
      if l = 0 then { len := 0, code := 0 }
      else { len := l, code := BitVec.ofNat 15 (next.getD l.toNat 0 + countLen (L.take s) l.toNat) } := by
  induction L generalizing next s with
  | nil => simp [assignCodes]
  | cons l L ih =>
    have h1 : ∀ l' ∈ L, l'.toNat < next.length := fun l' hl' => h l' (by simp [hl'])
    unfold assignCodes
    split
    · rename_i hl
      cases s with
      | zero => simp [hl]
      | succ s =>
        simp only [List.getElem?_cons_succ, List.take_succ_cons]
        rw [ih next h1]
        congr 1
        funext l'
        by_cases h0 : l' = 0
        · simp [h0]
        · have hne : ¬ l.toNat = l'.toNat := by
            rw [hl]; intro he; exact h0 (BitVec.eq_of_toNat_eq he.symm)
          simp [countLen_cons, hne]
    · rename_i hl
      cases s with
      | zero => simp only [List.getElem?_cons_zero, Option.map_some, if_neg hl]; rfl
      | succ s =>
        simp only [List.getElem?_cons_succ, List.take_succ_cons]
        rw [ih _ (by simpa using h1)]
        congr 1
        funext l'
        by_cases h0 : l' = 0
        · simp [h0]
        · simp only [h0, if_false]
          congr 2
          have hll := h l (by simp)
          by_cases he : l.toNat = l'.toNat
          · simp only [List.getD_eq_getElem?_getD, he, countLen_cons, if_true]
            rw [he] at hll
            simp [hll]; omega
          · simp only [List.getD_eq_getElem?_getD, countLen_cons, he, if_false]
            simp [he]

@[simp] theorem assignCodes_length (L : List (BitVec 4)) (next : List Nat) :
    (assignCodes L next).length = L.length := by
  induction L generalizing next with
  | nil => rfl
  | cons l L ih => unfold assignCodes; split <;> simp [ih]

/-! ### What the Kraft sum bounds -/

theorem firstCode_mono (L : List (BitVec 4)) {a : Nat} (ha : 1 ≤ a) (k : Nat) :
    (firstCode L a + countLen L a) * 2 ^ (k + 1) ≤ firstCode L (a + (k + 1)) := by
  induction k with
  | zero => simp [firstCode, show a ≠ 0 by omega]; omega
  | succ k ih =>
    rw [← Nat.add_assoc a, firstCode, pow_succ _ (k + 1), ← Nat.mul_assoc]
    omega

theorem firstCode_sum (L : List (BitVec 4)) (n : Nat) :
    2 * (firstCode L n + (if n = 0 then 0 else countLen L n)) =
      ((List.range n).map fun k => countLen L (k + 1) * 2 ^ (n + 1 - (k + 1))).sum := by
  induction n with
  | zero => simp [firstCode]
  | succ n ih =>
    rw [List.range_succ, List.map_append, List.sum_append]
    have : ((List.range n).map fun k => countLen L (k + 1) * 2 ^ (n + 1 + 1 - (k + 1))) =
        (List.range n).map fun k => 2 * (countLen L (k + 1) * 2 ^ (n + 1 - (k + 1))) := by
      apply List.map_congr_left
      intro k hk
      have hk : k < n := by simpa using hk
      rw [show n + 1 + 1 - (k + 1) = (n + 1 - (k + 1)) + 1 by omega, pow_succ]
      ring
    rw [this, List.sum_map_mul_left, ← ih]
    simp [firstCode]
    ring

/-- `next[maxbits]` after every codeword of that length has been given out is the Kraft sum (R201, R202). -/
theorem kraftSum_eq (L : List (BitVec 4)) {maxbits : Nat} (hm : 1 ≤ maxbits) :
    kraftSum maxbits L = firstCode L maxbits + countLen L maxbits := by
  have h := firstCode_sum L maxbits
  have : ((List.range maxbits).map fun k => countLen L (k + 1) * 2 ^ (maxbits + 1 - (k + 1))) =
      (List.range maxbits).map fun k => 2 * (countLen L (k + 1) * 2 ^ (maxbits - (k + 1))) := by
    apply List.map_congr_left
    intro k hk
    have hk : k < maxbits := by simpa using hk
    rw [show maxbits + 1 - (k + 1) = (maxbits - (k + 1)) + 1 by omega, pow_succ]
    ring
  rw [this, List.sum_map_mul_left, if_neg (by omega)] at h
  unfold kraftSum
  omega

/-- Where the code is not over-subscribed, the codewords of each length fit in it (R203). -/
theorem firstCode_le {L : List (BitVec 4)} {maxbits b : Nat} (hb : 1 ≤ b) (hbm : b ≤ maxbits)
    (h : kraftSum maxbits L ≤ 2 ^ maxbits) : firstCode L b + countLen L b ≤ 2 ^ b := by
  rw [kraftSum_eq L (by omega)] at h
  rcases Nat.eq_or_lt_of_le hbm with rfl | hlt
  · exact h
  · obtain ⟨k, rfl⟩ : ∃ k, maxbits = b + (k + 1) := ⟨maxbits - b - 1, by omega⟩
    have h1 := firstCode_mono L hb k
    have h2 : (firstCode L b + countLen L b) * 2 ^ (k + 1) ≤ 2 ^ b * 2 ^ (k + 1) := by
      rw [← pow_add]; omega
    exact Nat.le_of_mul_le_mul_right h2 (by positivity)

/-- What `Build` answers (R202). -/
theorem build_cases (maxbits : Nat) (L : List (BitVec 4)) :
    (2 ^ maxbits < kraftSum maxbits L ∧ build maxbits L = none) ∨
    (kraftSum maxbits L ≤ 2 ^ maxbits ∧
      build maxbits L = some (assignCodes L (0 :: firstCodes L maxbits 1 0))) := by
  unfold build
  by_cases h : kraftSum maxbits L > 2 ^ maxbits
  · exact .inl ⟨h, by simp [h]⟩
  · exact .inr ⟨by omega, by simp [h]⟩

/-- A built code has one entry per symbol (R202). -/
theorem build_length {maxbits : Nat} {L : List (BitVec 4)} {T : Code} (h : build maxbits L = some T) :
    T.length = L.length := by
  rcases build_cases maxbits L with ⟨-, hb⟩ | ⟨-, hb⟩ <;> rw [hb] at h <;> cases h
  simp

/-- Each entry of a built code (R202): its length, and its codeword without overflow. -/
theorem build_getElem? {maxbits : Nat} {L : List (BitVec 4)} {T : Code}
    (hL : ∀ l ∈ L, l.toNat ≤ maxbits) (h : build maxbits L = some T) {s : Nat} {w : Codeword} (hw : T[s]? = some w) :
    L[s]? = some w.len ∧ (w.len = 0 → w.code = 0) ∧
      (w.len ≠ 0 → w.code.toNat = firstCode L w.len.toNat + countLen (L.take s) w.len.toNat ∧
        w.code.toNat < firstCode L w.len.toNat + countLen L w.len.toNat ∧
        firstCode L w.len.toNat + countLen L w.len.toNat ≤ 2 ^ w.len.toNat) := by
  rcases build_cases maxbits L with ⟨-, hb⟩ | ⟨hk, hb⟩ <;> rw [hb] at h <;> cases h
  rw [assignCodes_getElem? _ _ (by intro l hl; have := hL l hl; simp; omega)] at hw
  cases hl : L[s]? with
  | none => simp [hl] at hw
  | some l =>
    have hmem : l.toNat ≤ maxbits := hL l (List.mem_of_getElem? hl)
    rw [hl] at hw
    simp only [Option.map_some, Option.some.injEq] at hw
    by_cases h0 : l = 0
    · simp only [h0, if_true] at hw
      subst hw
      exact ⟨by rw [h0], by simp, by simp⟩
    · simp only [h0, if_false] at hw
      subst hw
      have h1 : 1 ≤ l.toNat := by
        rcases Nat.eq_zero_or_pos l.toNat with h | h
        · exact absurd (BitVec.eq_of_toNat_eq h) h0
        · exact h
      have h2 := firstCode_le h1 hmem hk
      have h3 := countLen_take_lt hl
      refine ⟨rfl, fun h => absurd h h0, fun _ => ?_⟩
      have hpow : 2 ^ l.toNat ≤ 2 ^ 15 := Nat.pow_le_pow_right (by omega) (by omega)
      have h4 : (BitVec.ofNat 15 ((0 :: firstCodes L maxbits 1 0).getD l.toNat 0 +
          countLen (L.take s) l.toNat)).toNat = firstCode L l.toNat + countLen (L.take s) l.toNat := by
        rw [nextTable_getD L maxbits _ hmem, BitVec.toNat_ofNat, Nat.mod_eq_of_lt (by simp at hpow ⊢; omega)]
      exact ⟨h4, lt_of_eq_of_lt h4 (Nat.add_lt_add_left h3 _), h2⟩

/-! ### The fixed codes (R208, R209), without computing them again -/

theorem build_fixedLl : build 15 fixedLlLens = some fixedLl := by
  rcases build_cases 15 fixedLlLens with ⟨h, -⟩ | ⟨-, h⟩
  · exact absurd h (by decide +kernel)
  · unfold fixedLl
    rw [show Config.maxLlDBits = 15 from rfl, h]
    rfl

theorem build_fixedD : build 15 fixedDLens = some fixedD := by
  rcases build_cases 15 fixedDLens with ⟨h, -⟩ | ⟨-, h⟩
  · exact absurd h (by decide +kernel)
  · unfold fixedD
    rw [show Config.maxLlDBits = 15 from rfl, h]
    rfl

theorem fixedLl_length : fixedLl.length = 288 := by rw [build_length build_fixedLl]; decide +kernel

theorem fixedD_length : fixedD.length = 32 := by rw [build_length build_fixedD]; decide +kernel

end Sys2Proof
end

