-- ==== Sys2Proof/Laws/Decode.lean ====
section
/-! SUPPORT. Decoding by parts: a fixed-width field is read to its end, and a codeword to its symbol. -/

namespace Sys2Proof

/-! ### Fields -/

/-- Bits inside a field are all taken, and then the field is looked at. -/
theorem decode_field (c : Codes) (r : Reader) (bits rest : List Bool) (hi : r.inCodeword = false)
    (hw : r.fld.length + bits.length = fieldWidth c r) :
    decode c r (bits ++ rest) =
      match fieldInstr c { r with fld := r.fld ++ bits } with
      | some i => .instr i { r with part := .start, fld := [] } rest
      | none => .invalidHuffmanCode { r with fld := r.fld ++ bits } rest := by
  induction bits generalizing r with
  | nil =>
    have hl : look c r = match fieldInstr c r with
        | some i => .instr i { r with part := .start, fld := [] }
        | none => .invalid r := by
      have hw' : ¬ r.fld.length < fieldWidth c r := by simp only [List.length_nil] at hw; omega
      cases h : fieldInstr c r <;> simp [look, hi, lookField, hw', h]
    simp only [List.nil_append, List.append_nil]
    cases rest <;> simp only [decode, hl] <;> cases fieldInstr c r <;> rfl
  | cons b bits ih =>
    have hl : look c r = .more r := by
      simp only [look, hi, lookField]
      simp only [List.length_cons] at hw
      rw [if_neg (by simp), if_pos (by omega)]
    have hp : pushBit r b = { r with fld := r.fld ++ [b] } := by simp [pushBit, hi]
    simp only [List.cons_append, decode, hl, hp]
    rw [ih { r with fld := r.fld ++ [b] } (by rw [← hi]; rfl) (by
      rw [show fieldWidth c { r with fld := r.fld ++ [b] } = fieldWidth c r from rfl]
      simp only [List.length_cons, List.length_append, List.length_nil] at hw ⊢
      omega)]
    simp

/-! ### Codewords -/

/-- The codeword of a symbol that has one. -/
theorem hasCodeword_iff {T : Code} {s : Nat} :
    hasCodeword T s = true ↔ ∃ w, T[s]? = some w ∧ w.len ≠ 0 := by
  unfold hasCodeword
  cases T[s]? <;> simp

theorem findSymbol_some {T : Code} {len : BitVec 4} {code : BitVec 15} {s : Nat} (h : findSymbol T len code = some s) :
    T[s]? = some { len := len, code := code } := by
  unfold findSymbol at h
  obtain ⟨hs, h1, -⟩ := List.findIdx?_eq_some_iff_getElem.1 h
  simp only [Bool.and_eq_true, beq_iff_eq] at h1
  rw [List.getElem?_eq_getElem hs]
  congr 1
  obtain ⟨h2, h3⟩ := h1
  cases hw : T[s]
  rw [hw] at h2 h3
  simp_all

/-- In a prefix-free code the whole codeword finds its symbol. -/
theorem findSymbol_codeword {T : Code} (hT : T.ok) {s : Nat} {w : Codeword} (hw : T[s]? = some w) (h0 : w.len ≠ 0) :
    findSymbol T w.len w.code = some s := by
  have hs : s < T.length := (List.getElem?_eq_some_iff.1 hw).1
  cases hf : findSymbol T w.len w.code with
  | none =>
    unfold findSymbol at hf
    have := List.findIdx?_eq_none_iff.1 hf w (List.mem_of_getElem? hw)
    simp at this
  | some t =>
    have ht := findSymbol_some hf
    have : t = s := hT.prefixFree t s (hasCodeword_iff.2 ⟨_, ht, h0⟩) (hasCodeword_iff.2 ⟨_, hw, h0⟩)
      (by simp [codewordBits, ht, hw])
    rw [this]

/-- The first `k` bits of a codeword, as the cursor holds them. -/
theorem codeword_shift (w : Codeword) (k : Nat) :
    (w.code >>> (w.len.toNat - k)).toNat = w.code.toNat / 2 ^ (w.len.toNat - k) := by
  simp [Nat.shiftRight_eq_div_pow]

/-- In a prefix-free code no proper beginning of a codeword is a codeword. -/
theorem findSymbol_beginning {T : Code} (hT : T.ok) {s : Nat} {w : Codeword} (hw : T[s]? = some w) {k : Nat}
    (h1 : 1 ≤ k) (hk : k < w.len.toNat) :
    findSymbol T (BitVec.ofNat 4 k) (w.code >>> (w.len.toNat - k)) = none := by
  cases hf : findSymbol T (BitVec.ofNat 4 k) (w.code >>> (w.len.toNat - k)) with
  | none => rfl
  | some t =>
    exfalso
    have ht := findSymbol_some hf
    have hlen := w.len.isLt
    have hkn : (BitVec.ofNat 4 k).toNat = k := by simp; omega
    have hw0 : w.len ≠ 0 := by intro h; rw [h] at hk; simp at hk
    have hk0 : BitVec.ofNat 4 k ≠ 0 := by intro h; rw [h] at hkn; simp at hkn; omega
    have hp : codewordBits T t <+: codewordBits T s := by
      simp only [codewordBits, ht, hw]
      rw [msbBits_prefix (by
        have := hT.fits _ (List.mem_of_getElem? ht); exact this) (hT.fits _ (List.mem_of_getElem? hw))]
      rw [hkn, codeword_shift]
      exact ⟨by omega, rfl⟩
    have := hT.prefixFree t s (hasCodeword_iff.2 ⟨_, ht, hk0⟩) (hasCodeword_iff.2 ⟨_, hw, hw0⟩) hp
    subst this
    rw [ht] at hw
    injection hw with hw
    have := congrArg (fun c : Codeword => c.len.toNat) hw
    simp only [hkn] at this
    omega

theorem beginsCodeword_beginning {T : Code} {s : Nat} {w : Codeword} (hw : T[s]? = some w) {k : Nat}
    (hk : k < w.len.toNat) : beginsCodeword T (BitVec.ofNat 4 k) (w.code >>> (w.len.toNat - k)) = true := by
  have hlen := w.len.isLt
  have hkn : (BitVec.ofNat 4 k).toNat = k := by simp; omega
  unfold beginsCodeword
  refine List.any_eq_true.2 ⟨w, List.mem_of_getElem? hw, ?_⟩
  simp only [hkn, BitVec.lt_def, hk, decide_true, beq_self_eq_true, Bool.and_self]

/-- The cursor after `k` bits of a codeword. -/
def Reader.cursor (r : Reader) (w : Codeword) (k : Nat) : Reader :=
  { r with part := .code, curCode := w.code >>> (w.len.toNat - k), curLen := BitVec.ofNat 4 k }

/-- Taking the next bit of a codeword moves the cursor by one. -/
theorem pushBit_cursor {r : Reader} {w : Codeword} (hi : (r.cursor w 0).inCodeword = true)
    {k : Nat} (hk : k < w.len.toNat) :
    pushBit (r.cursor w k) (w.code.toNat / 2 ^ (w.len.toNat - (k + 1)) % 2 == 1) = r.cursor w (k + 1) := by
  have hi' : (r.cursor w k).inCodeword = true := by rw [← hi]; rfl
  have hlen := w.len.isLt
  have hdiv : w.code.toNat / 2 ^ (w.len.toNat - k) = w.code.toNat / 2 ^ (w.len.toNat - (k + 1)) / 2 := by
    rw [Nat.div_div_eq_div_mul, ← pow_succ, show w.len.toNat - (k + 1) + 1 = w.len.toNat - k by omega]
  unfold pushBit
  rw [if_pos hi']
  unfold Reader.cursor
  congr 1
  · apply BitVec.eq_of_toNat_eq
    rw [BitVec.toNat_or, BitVec.toNat_shiftLeft, codeword_shift, codeword_shift, hdiv]
    have hlt : w.code.toNat / 2 ^ (w.len.toNat - (k + 1)) < 2 ^ 15 :=
      Nat.lt_of_le_of_lt (Nat.div_le_self _ _) w.code.isLt
    generalize w.code.toNat / 2 ^ (w.len.toNat - (k + 1)) = v at hlt ⊢
    have hor : ∀ a b : Nat, b < 2 → 2 * a ||| b = 2 * a + b := by
      intro a b hb
      have := Nat.two_pow_add_eq_or_of_lt (i := 1) (by simpa using hb) a
      simpa using this.symm
    have h2 : (v / 2) <<< 1 = 2 * (v / 2) := by rw [Nat.shiftLeft_eq]; omega
    rw [h2, Nat.mod_eq_of_lt (by simp at hlt ⊢; omega)]
    rcases Nat.mod_two_eq_zero_or_one v with h | h
    · simp [h]; omega
    · rw [show (if (v % 2 == 1) = true then (1 : BitVec 15) else 0).toNat = 1 by simp [h], hor _ _ (by omega)]
      omega
  · apply BitVec.eq_of_toNat_eq
    simp

/-- What follows a resolved symbol in a decoding. -/
def afterLook (c : Codes) (l : Look) (rest : List Bool) : Decoded :=
  match l, rest with
  | .instr i r, rest => .instr i r rest
  | .invalid r, rest => .invalidHuffmanCode r rest
  | .more r, [] => .short r
  | .more r, b :: bs => decode c (pushBit r b) bs

theorem decode_eq_afterLook (c : Codes) (r : Reader) (bits : List Bool) :
    decode c r bits = afterLook c (look c r) bits := by
  cases bits <;> simp only [decode, afterLook] <;> cases look c r <;> rfl

/-- A whole codeword is taken, from any point inside it, and then its symbol is resolved. -/
theorem decode_codeword_from {c : Codes} {r : Reader} {s : Nat} {w : Codeword} (hT : (c.forPhase r.phase).ok)
    (hw : (c.forPhase r.phase)[s]? = some w) (h0 : w.len ≠ 0) (hi : (r.cursor w 0).inCodeword = true)
    (rest : List Bool) (n k : Nat) (hk : k + n = w.len.toNat) :
    decode c (r.cursor w k) (msbBits n (w.code.toNat % 2 ^ n) ++ rest) =
      afterLook c (resolved c (r.cursor w w.len.toNat) s) rest := by
  have hlen := w.len.isLt
  have hi' : ∀ k, (r.cursor w k).inCodeword = true := fun k => by rw [← hi]; rfl
  have hph : ∀ k, (r.cursor w k).phase = r.phase := fun _ => rfl
  induction n generalizing k with
  | zero =>
    obtain rfl : k = w.len.toNat := by omega
    rw [decode_eq_afterLook]
    have hcode : (r.cursor w w.len.toNat).curCode = w.code := by simp [Reader.cursor]
    have hcl : (r.cursor w w.len.toNat).curLen = w.len := by simp [Reader.cursor]
    have hl : look c (r.cursor w w.len.toNat) = resolved c (r.cursor w w.len.toNat) s := by
      unfold look lookSymbol
      rw [if_pos (hi' _), if_neg (by simp [Reader.cursor]), hcl, if_neg h0, hcode, hph, findSymbol_codeword hT hw h0]
    rw [hl]
    rfl
  | succ n ih =>
    have hkl : k < w.len.toNat := by omega
    have hl : look c (r.cursor w k) = .more (r.cursor w k) := by
      unfold look lookSymbol
      rw [if_pos (hi' _), if_neg (by simp [Reader.cursor])]
      by_cases hk0 : k = 0
      · subst hk0; rw [if_pos (by simp [Reader.cursor])]
      · have hkn : (BitVec.ofNat 4 k).toNat = k := by simp; omega
        have hne : (r.cursor w k).curLen ≠ 0 := by
          show BitVec.ofNat 4 k ≠ 0
          intro h; rw [h] at hkn; simp at hkn; omega
        rw [if_neg hne]
        show (match findSymbol (c.forPhase r.phase) (BitVec.ofNat 4 k) (w.code >>> (w.len.toNat - k)) with
          | some sym => resolved c (r.cursor w k) sym
          | none =>
            if beginsCodeword (c.forPhase r.phase) (BitVec.ofNat 4 k) (w.code >>> (w.len.toNat - k)) = true then
              Look.more (r.cursor w k) else Look.invalid (r.cursor w k)) = _
        rw [findSymbol_beginning hT hw (by omega) hkl, beginsCodeword_beginning hw hkl]
        simp
    have hn : w.len.toNat - (k + 1) = n := by omega
    have hbits : msbBits (n + 1) (w.code.toNat % 2 ^ (n + 1)) =
        (w.code.toNat / 2 ^ n % 2 == 1) :: msbBits n (w.code.toNat % 2 ^ n) := by
      rw [msbBits_split (n := 1) (m := n + 1) (by omega)]
      simp only [Nat.add_sub_cancel]
      simp only [msbBits, lsbBits, List.reverse_cons, List.reverse_nil, List.nil_append, List.singleton_append, pow_succ,
        Nat.mod_mul_right_div_self]
      rw [← lsbBits_mod n (w.code.toNat % (2 ^ n * 2)), Nat.mod_mul_right_mod]
      simp
    rw [hbits, List.cons_append]
    simp only [decode, hl]
    rw [← hn, pushBit_cursor hi hkl, hn]
    exact ih (k + 1) (by omega)

/-- A codeword is decoded to its symbol (R206). -/
theorem decode_codeword {c : Codes} {ph : Phase} {s : Nat} (hT : (c.forPhase ph).ok)
    (hs : hasCodeword (c.forPhase ph) s = true) (hi : (Reader.start ph).inCodeword = true) (rest : List Bool) :
    ∃ w, (c.forPhase ph)[s]? = some w ∧
      decode c (Reader.start ph) (codewordBits (c.forPhase ph) s ++ rest) =
        afterLook c (resolved c ((Reader.start ph).cursor w w.len.toNat) s) rest := by
  obtain ⟨w, hw, h0⟩ := hasCodeword_iff.1 hs
  refine ⟨w, hw, ?_⟩
  have hi0 : ((Reader.start ph).cursor w 0).inCodeword = true := by
    cases ph <;> first | rfl | simp [Reader.start, Reader.inCodeword] at hi
  have hfit : w.code.toNat < 2 ^ w.len.toNat := hT.fits _ (List.mem_of_getElem? hw)
  rw [← decode_codeword_from (r := Reader.start ph) hT hw h0 hi0 rest w.len.toNat 0 (by omega)]
  rw [Nat.mod_eq_of_lt hfit]
  have hl : look c (Reader.start ph) = .more ((Reader.start ph).cursor w 0) := by
    unfold look lookSymbol
    rw [if_pos hi, if_pos (show (Reader.start ph).part = .start from rfl)]
    congr 1
    have : w.code >>> w.len.toNat = 0 := by
      apply BitVec.eq_of_toNat_eq
      rw [BitVec.toNat_ushiftRight, Nat.shiftRight_eq_div_pow, Nat.div_eq_of_lt hfit]
      rfl
    simp [Reader.cursor, Reader.start, this]
  have hl' : look c ((Reader.start ph).cursor w 0) = .more ((Reader.start ph).cursor w 0) := by
    unfold look lookSymbol
    rw [if_pos hi0, if_neg (by simp [Reader.cursor]), if_pos (by simp [Reader.cursor])]
  simp only [codewordBits, hw]
  rw [decode_eq_afterLook, decode_eq_afterLook c ((Reader.start ph).cursor w 0), hl, hl']

end Sys2Proof
end

