-- ==== Sys2Proof/Laws/Look.lean ====
section
/-! SUPPORT. Which elements a look at the bits read so far can give, by phase. -/

namespace Sys2Proof.Machine

/-! ### Which elements a phase can read (R120, R138) -/

theorem lenInstr_form {k v : Nat} {i : Instr} (h : lenInstr k v = some i) : i.form.1 = .token := by
  unfold lenInstr at h
  split at h <;> first | (cases h; rfl) | cases h

theorem distInstr_form {k v : Nat} {i : Instr} (h : distInstr k v = some i) : i.form.1 = .distSym := by
  unfold distInstr at h
  split at h <;> first | (cases h; rfl) | cases h

theorem headerInstr_form (v : Nat) : (headerInstr v).form.1 = .hdr := by
  unfold headerInstr
  split <;> rfl

theorem fieldInstr_form {c : Codes} {r : Reader} {i : Instr} (h : fieldInstr c r = some i) :
    i.form.1 = beganIn r.phase := by
  unfold fieldInstr at h
  split at h <;> rename_i hp <;> rw [hp]
  · cases h; exact headerInstr_form _
  · cases h; rfl
  · cases h; rfl
  · split at h
    · cases h; rfl
    · split at h
      · cases h; rfl
      · split at h
        · cases h; rfl
        · cases h
  · exact lenInstr_form h
  · exact distInstr_form h
  · cases h; rfl
  · cases h; rfl
  all_goals cases h

/-- What a look says of phases: an element is one of the phase's, and the reader stays inside the element. -/
def lookInPhase (p : Phase) : Look → Prop
  | .instr i r => i.form.1 = beganIn p ∧ beganIn r.phase = beganIn p
  | .invalid r => beganIn r.phase = beganIn p
  | .more r => beganIn r.phase = beganIn p

theorem lookField_inPhase (c : Codes) (r : Reader) : lookInPhase r.phase (lookField c r) := by
  unfold lookField
  split
  · rfl
  · cases h : fieldInstr c r with
    | none => rfl
    | some i => exact ⟨fieldInstr_form h, rfl⟩

theorem resolved_inPhase (c : Codes) (r : Reader) (sym : Nat) : lookInPhase r.phase (resolved c r sym) := by
  have key : ∀ q : Reader, beganIn q.phase = beganIn r.phase → lookInPhase r.phase (lookField c q) := by
    intro q hq
    have := lookField_inPhase c q
    cases h : lookField c q <;> rw [h] at this <;> simpa [lookInPhase, hq] using this
  unfold resolved
  split <;> rename_i hp
  · split
    · rw [hp]; exact ⟨rfl, by simp⟩
    · split
      · rw [hp]; exact ⟨rfl, by simp⟩
      · split
        · generalize BitVec.ofNat 5 (sym - 257) = k; exact key _ (by rw [hp]; rfl)
        · split
          · rw [hp]; exact ⟨rfl, by simp⟩
          · split
            · rw [hp]; exact ⟨rfl, by simp⟩
            · rfl
  · split
    · exact key _ (by simp [hp, beganIn])
    · split
      · rw [hp]; exact ⟨rfl, by simp⟩
      · split
        · rw [hp]; exact ⟨rfl, by simp⟩
        · rfl
  · split
    · rw [hp]; exact ⟨rfl, by simp⟩
    · split
      · rw [hp]; exact ⟨rfl, by simp⟩
      · exact key _ rfl
  · rfl

theorem look_inPhase (c : Codes) (r : Reader) : lookInPhase r.phase (look c r) := by
  unfold look lookSymbol
  split
  · split
    · rfl
    · split
      · rfl
      · split
        · exact resolved_inPhase c r _
        · split <;> rfl
  · exact lookField_inPhase c r

@[simp] theorem pushBit_phase (r : Reader) (b : Bool) : (pushBit r b).phase = r.phase := by
  unfold pushBit; split <;> rfl

end Sys2Proof.Machine
end

