-- ==== Sys2Proof/Laws/Memory.lean ====
section
/-! SUPPORT. The laws of the window's memory (R58, R92): reads after writes, and the canonical form. -/

namespace Sys2Proof.Machine

@[simp] theorem Memory.read_nil (a : Nat) : Memory.read [] a = none := rfl

/-- The canonical form, unfolded by one entry. -/
theorem Memory.wf_cons (a : Nat) (b : Byte) (m : Memory) :
    Memory.wf ((a, b) :: m) = true ↔
      (∀ c ∈ m, a < c.1) ∧ a < Config.wsize ∧ Memory.wf m = true := by
  induction m generalizing a b with
  | nil => simp [Memory.wf]
  | cons c m ih =>
    obtain ⟨a', b'⟩ := c
    simp only [Memory.wf, Bool.and_eq_true, decide_eq_true_eq, ih a' b', List.mem_cons, forall_eq_or_imp]
    constructor
    · rintro ⟨h, h1, h2, h3⟩
      exact ⟨⟨h, fun c hc => Nat.lt_trans h (h1 c hc)⟩, Nat.lt_trans h h2, h1, h2, h3⟩
    · rintro ⟨⟨h, -⟩, -, h1, h2, h3⟩
      exact ⟨h, h1, h2, h3⟩

/-- No entry below all listed addresses. -/
theorem Memory.read_none_of_lt {m : Memory} {a : Nat} (h : ∀ c ∈ m, a < c.1) : Memory.read m a = none := by
  induction m with
  | nil => rfl
  | cons c m ih =>
    have h0 := h c (by simp)
    simp only [Memory.read]
    rw [if_neg (by omega)]
    exact ih fun c' hc' => h c' (by simp [hc'])

/-- Reading after a write: the byte written at its own address, the old byte everywhere else. -/
theorem Memory.read_write {m : Memory} (hm : Memory.wf m = true) (a a' : Nat) (b : Byte) :
    Memory.read (Memory.write m a b) a' = if a' = a then some b else Memory.read m a' := by
  induction m with
  | nil => simp [Memory.write, Memory.read]
  | cons c m ih =>
    obtain ⟨x, y⟩ := c
    obtain ⟨hlt, -, hwf⟩ := (Memory.wf_cons x y m).1 hm
    simp only [Memory.write]
    split
    · rename_i hax
      simp [Memory.read]
    · split
      · rename_i hax
        subst hax
        simp only [Memory.read]
        split <;> simp_all
      · simp only [Memory.read, ih hwf]
        split
        · rename_i hx
          rw [if_neg (by omega)]
        · rfl

/-- Every address a write leaves listed is the one written or was listed before. -/
theorem Memory.mem_write {m : Memory} {a : Nat} {b : Byte} {c : Host.Cell} (h : c ∈ Memory.write m a b) :
    c = (a, b) ∨ c ∈ m := by
  induction m with
  | nil => simpa [Memory.write] using h
  | cons d m ih =>
    obtain ⟨x, y⟩ := d
    simp only [Memory.write] at h
    split at h
    · simpa using h
    · split at h
      · rcases List.mem_cons.1 h with h | h
        · exact .inl h
        · exact .inr (by simp [h])
      · rcases List.mem_cons.1 h with h | h
        · exact .inr (by simp [h])
        · rcases ih h with h | h
          · exact .inl h
          · exact .inr (by simp [h])

/-- A write inside the window keeps the canonical form. -/
theorem Memory.wf_write {m : Memory} (hm : Memory.wf m = true) {a : Nat} (ha : a < Config.wsize) (b : Byte) :
    Memory.wf (Memory.write m a b) = true := by
  induction m with
  | nil => simpa [Memory.write, Memory.wf] using ha
  | cons d m ih =>
    obtain ⟨x, y⟩ := d
    obtain ⟨hlt, hx, hwf⟩ := (Memory.wf_cons x y m).1 hm
    simp only [Memory.write]
    split
    · rename_i hax
      refine (Memory.wf_cons _ _ _).2 ⟨?_, ha, hm⟩
      intro c hc
      rcases List.mem_cons.1 hc with rfl | hc
      · exact hax
      · exact Nat.lt_trans hax (hlt c hc)
    · split
      · rename_i _ hax
        subst hax
        exact (Memory.wf_cons _ _ _).2 ⟨hlt, ha, hwf⟩
      · refine (Memory.wf_cons _ _ _).2 ⟨?_, hx, ih hwf⟩
        intro c hc
        rcases Memory.mem_write hc with rfl | hc
        · simp only; omega
        · exact hlt c hc

/-- The window right after reset is in canonical form. -/
theorem reset_win_wf : Memory.wf State.reset.win = true := rfl

end Sys2Proof.Machine
end

