-- ==== Sys2Proof/Laws/State.lean ====
section
/-! SUPPORT. One lemma per field for each update of the state that has no cases: what the field is afterwards. -/

namespace Sys2Proof.Machine

/-! ### `raise` -/

@[simp] theorem raise_phase (e : ErrCode) (s : State) : (raise e s).phase = .error := rfl
@[simp] theorem raise_err (e : ErrCode) (s : State) : (raise e s).err = e := rfl
@[simp] theorem raise_bfinal (e : ErrCode) (s : State) : (raise e s).bfinal = s.bfinal := rfl
@[simp] theorem raise_btype (e : ErrCode) (s : State) : (raise e s).btype = s.btype := rfl
@[simp] theorem raise_bitbuf (e : ErrCode) (s : State) : (raise e s).bitbuf = s.bitbuf := rfl
@[simp] theorem raise_bitcnt (e : ErrCode) (s : State) : (raise e s).bitcnt = s.bitcnt := rfl
@[simp] theorem raise_inCount (e : ErrCode) (s : State) : (raise e s).inCount = s.inCount := rfl
@[simp] theorem raise_llLen (e : ErrCode) (s : State) : (raise e s).llLen = s.llLen := rfl
@[simp] theorem raise_dLen (e : ErrCode) (s : State) : (raise e s).dLen = s.dLen := rfl
@[simp] theorem raise_clLen (e : ErrCode) (s : State) : (raise e s).clLen = s.clLen := rfl
@[simp] theorem raise_lens (e : ErrCode) (s : State) : (raise e s).lens = s.lens := rfl
@[simp] theorem raise_lenIdx (e : ErrCode) (s : State) : (raise e s).lenIdx = s.lenIdx := rfl
@[simp] theorem raise_clIdx (e : ErrCode) (s : State) : (raise e s).clIdx = s.clIdx := rfl
@[simp] theorem raise_hlit (e : ErrCode) (s : State) : (raise e s).hlit = s.hlit := rfl
@[simp] theorem raise_hdist (e : ErrCode) (s : State) : (raise e s).hdist = s.hdist := rfl
@[simp] theorem raise_hclen (e : ErrCode) (s : State) : (raise e s).hclen = s.hclen := rfl
@[simp] theorem raise_ll (e : ErrCode) (s : State) : (raise e s).ll = s.ll := rfl
@[simp] theorem raise_d (e : ErrCode) (s : State) : (raise e s).d = s.d := rfl
@[simp] theorem raise_cl (e : ErrCode) (s : State) : (raise e s).cl = s.cl := rfl
@[simp] theorem raise_prevLen (e : ErrCode) (s : State) : (raise e s).prevLen = s.prevLen := rfl
@[simp] theorem raise_prevValid (e : ErrCode) (s : State) : (raise e s).prevValid = s.prevValid := rfl
@[simp] theorem raise_curCode (e : ErrCode) (s : State) : (raise e s).curCode = s.curCode := rfl
@[simp] theorem raise_curLen (e : ErrCode) (s : State) : (raise e s).curLen = s.curLen := rfl
@[simp] theorem raise_pendLen (e : ErrCode) (s : State) : (raise e s).pendLen = s.pendLen := rfl
@[simp] theorem raise_pendDist (e : ErrCode) (s : State) : (raise e s).pendDist = s.pendDist := rfl
@[simp] theorem raise_pendSym (e : ErrCode) (s : State) : (raise e s).pendSym = s.pendSym := rfl
@[simp] theorem raise_copyRem (e : ErrCode) (s : State) : (raise e s).copyRem = s.copyRem := rfl
@[simp] theorem raise_storedLen (e : ErrCode) (s : State) : (raise e s).storedLen = s.storedLen := rfl
@[simp] theorem raise_storedNlen (e : ErrCode) (s : State) : (raise e s).storedNlen = s.storedNlen := rfl
@[simp] theorem raise_storedRem (e : ErrCode) (s : State) : (raise e s).storedRem = s.storedRem := rfl
@[simp] theorem raise_win (e : ErrCode) (s : State) : (raise e s).win = s.win := rfl
@[simp] theorem raise_wp (e : ErrCode) (s : State) : (raise e s).wp = s.wp := rfl
@[simp] theorem raise_hist (e : ErrCode) (s : State) : (raise e s).hist = s.hist := rfl
@[simp] theorem raise_outCount (e : ErrCode) (s : State) : (raise e s).outCount = s.outCount := rfl
@[simp] theorem raise_outValid (e : ErrCode) (s : State) : (raise e s).outValid = s.outValid := rfl
@[simp] theorem raise_outData (e : ErrCode) (s : State) : (raise e s).outData = s.outData := rfl
@[simp] theorem raise_part (e : ErrCode) (s : State) : (raise e s).part = s.part := rfl
@[simp] theorem raise_fld (e : ErrCode) (s : State) : (raise e s).fld = s.fld := rfl
@[simp] theorem raise_rst (e : ErrCode) (s : State) : (raise e s).rst = s.rst := rfl
@[simp] theorem raise_src (e : ErrCode) (s : State) : (raise e s).src = s.src := rfl
@[simp] theorem raise_outReady (e : ErrCode) (s : State) : (raise e s).outReady = s.outReady := rfl
@[simp] theorem raise_out (e : ErrCode) (s : State) : (raise e s).out = s.out := rfl
@[simp] theorem raise_cfg (e : ErrCode) (s : State) : (raise e s).cfg = s.cfg := rfl

/-! ### `setReader` -/

@[simp] theorem setReader_phase (s : State) (r : Reader) : (s.setReader r).phase = r.phase := rfl
@[simp] theorem setReader_err (s : State) (r : Reader) : (s.setReader r).err = s.err := rfl
@[simp] theorem setReader_bfinal (s : State) (r : Reader) : (s.setReader r).bfinal = s.bfinal := rfl
@[simp] theorem setReader_btype (s : State) (r : Reader) : (s.setReader r).btype = s.btype := rfl
@[simp] theorem setReader_bitbuf (s : State) (r : Reader) : (s.setReader r).bitbuf = s.bitbuf := rfl
@[simp] theorem setReader_bitcnt (s : State) (r : Reader) : (s.setReader r).bitcnt = s.bitcnt := rfl
@[simp] theorem setReader_inCount (s : State) (r : Reader) : (s.setReader r).inCount = s.inCount := rfl
@[simp] theorem setReader_llLen (s : State) (r : Reader) : (s.setReader r).llLen = s.llLen := rfl
@[simp] theorem setReader_dLen (s : State) (r : Reader) : (s.setReader r).dLen = s.dLen := rfl
@[simp] theorem setReader_clLen (s : State) (r : Reader) : (s.setReader r).clLen = s.clLen := rfl
@[simp] theorem setReader_lens (s : State) (r : Reader) : (s.setReader r).lens = s.lens := rfl
@[simp] theorem setReader_lenIdx (s : State) (r : Reader) : (s.setReader r).lenIdx = s.lenIdx := rfl
@[simp] theorem setReader_clIdx (s : State) (r : Reader) : (s.setReader r).clIdx = s.clIdx := rfl
@[simp] theorem setReader_hlit (s : State) (r : Reader) : (s.setReader r).hlit = s.hlit := rfl
@[simp] theorem setReader_hdist (s : State) (r : Reader) : (s.setReader r).hdist = s.hdist := rfl
@[simp] theorem setReader_hclen (s : State) (r : Reader) : (s.setReader r).hclen = s.hclen := rfl
@[simp] theorem setReader_ll (s : State) (r : Reader) : (s.setReader r).ll = s.ll := rfl
@[simp] theorem setReader_d (s : State) (r : Reader) : (s.setReader r).d = s.d := rfl
@[simp] theorem setReader_cl (s : State) (r : Reader) : (s.setReader r).cl = s.cl := rfl
@[simp] theorem setReader_prevLen (s : State) (r : Reader) : (s.setReader r).prevLen = s.prevLen := rfl
@[simp] theorem setReader_prevValid (s : State) (r : Reader) : (s.setReader r).prevValid = s.prevValid := rfl
@[simp] theorem setReader_curCode (s : State) (r : Reader) : (s.setReader r).curCode = r.curCode := rfl
@[simp] theorem setReader_curLen (s : State) (r : Reader) : (s.setReader r).curLen = r.curLen := rfl
@[simp] theorem setReader_pendLen (s : State) (r : Reader) : (s.setReader r).pendLen = s.pendLen := rfl
@[simp] theorem setReader_pendDist (s : State) (r : Reader) : (s.setReader r).pendDist = s.pendDist := rfl
@[simp] theorem setReader_pendSym (s : State) (r : Reader) : (s.setReader r).pendSym = r.pendSym := rfl
@[simp] theorem setReader_copyRem (s : State) (r : Reader) : (s.setReader r).copyRem = s.copyRem := rfl
@[simp] theorem setReader_storedLen (s : State) (r : Reader) : (s.setReader r).storedLen = s.storedLen := rfl
@[simp] theorem setReader_storedNlen (s : State) (r : Reader) : (s.setReader r).storedNlen = s.storedNlen := rfl
@[simp] theorem setReader_storedRem (s : State) (r : Reader) : (s.setReader r).storedRem = s.storedRem := rfl
@[simp] theorem setReader_win (s : State) (r : Reader) : (s.setReader r).win = s.win := rfl
@[simp] theorem setReader_wp (s : State) (r : Reader) : (s.setReader r).wp = s.wp := rfl
@[simp] theorem setReader_hist (s : State) (r : Reader) : (s.setReader r).hist = s.hist := rfl
@[simp] theorem setReader_outCount (s : State) (r : Reader) : (s.setReader r).outCount = s.outCount := rfl
@[simp] theorem setReader_outValid (s : State) (r : Reader) : (s.setReader r).outValid = s.outValid := rfl
@[simp] theorem setReader_outData (s : State) (r : Reader) : (s.setReader r).outData = s.outData := rfl
@[simp] theorem setReader_part (s : State) (r : Reader) : (s.setReader r).part = r.part := rfl
@[simp] theorem setReader_fld (s : State) (r : Reader) : (s.setReader r).fld = r.fld := rfl
@[simp] theorem setReader_rst (s : State) (r : Reader) : (s.setReader r).rst = s.rst := rfl
@[simp] theorem setReader_src (s : State) (r : Reader) : (s.setReader r).src = s.src := rfl
@[simp] theorem setReader_outReady (s : State) (r : Reader) : (s.setReader r).outReady = s.outReady := rfl
@[simp] theorem setReader_out (s : State) (r : Reader) : (s.setReader r).out = s.out := rfl
@[simp] theorem setReader_cfg (s : State) (r : Reader) : (s.setReader r).cfg = s.cfg := rfl

/-! ### `alignToByte` -/

@[simp] theorem alignToByte_phase (s : State) : (alignToByte s).phase = s.phase := rfl
@[simp] theorem alignToByte_err (s : State) : (alignToByte s).err = s.err := rfl
@[simp] theorem alignToByte_bfinal (s : State) : (alignToByte s).bfinal = s.bfinal := rfl
@[simp] theorem alignToByte_btype (s : State) : (alignToByte s).btype = s.btype := rfl
@[simp] theorem alignToByte_bitbuf (s : State) : (alignToByte s).bitbuf = 0 := rfl
@[simp] theorem alignToByte_bitcnt (s : State) : (alignToByte s).bitcnt = 0 := rfl
@[simp] theorem alignToByte_inCount (s : State) : (alignToByte s).inCount = s.inCount := rfl
@[simp] theorem alignToByte_llLen (s : State) : (alignToByte s).llLen = s.llLen := rfl
@[simp] theorem alignToByte_dLen (s : State) : (alignToByte s).dLen = s.dLen := rfl
@[simp] theorem alignToByte_clLen (s : State) : (alignToByte s).clLen = s.clLen := rfl
@[simp] theorem alignToByte_lens (s : State) : (alignToByte s).lens = s.lens := rfl
@[simp] theorem alignToByte_lenIdx (s : State) : (alignToByte s).lenIdx = s.lenIdx := rfl
@[simp] theorem alignToByte_clIdx (s : State) : (alignToByte s).clIdx = s.clIdx := rfl
@[simp] theorem alignToByte_hlit (s : State) : (alignToByte s).hlit = s.hlit := rfl
@[simp] theorem alignToByte_hdist (s : State) : (alignToByte s).hdist = s.hdist := rfl
@[simp] theorem alignToByte_hclen (s : State) : (alignToByte s).hclen = s.hclen := rfl
@[simp] theorem alignToByte_ll (s : State) : (alignToByte s).ll = s.ll := rfl
@[simp] theorem alignToByte_d (s : State) : (alignToByte s).d = s.d := rfl
@[simp] theorem alignToByte_cl (s : State) : (alignToByte s).cl = s.cl := rfl
@[simp] theorem alignToByte_prevLen (s : State) : (alignToByte s).prevLen = s.prevLen := rfl
@[simp] theorem alignToByte_prevValid (s : State) : (alignToByte s).prevValid = s.prevValid := rfl
@[simp] theorem alignToByte_curCode (s : State) : (alignToByte s).curCode = s.curCode := rfl
@[simp] theorem alignToByte_curLen (s : State) : (alignToByte s).curLen = s.curLen := rfl
@[simp] theorem alignToByte_pendLen (s : State) : (alignToByte s).pendLen = s.pendLen := rfl
@[simp] theorem alignToByte_pendDist (s : State) : (alignToByte s).pendDist = s.pendDist := rfl
@[simp] theorem alignToByte_pendSym (s : State) : (alignToByte s).pendSym = s.pendSym := rfl
@[simp] theorem alignToByte_copyRem (s : State) : (alignToByte s).copyRem = s.copyRem := rfl
@[simp] theorem alignToByte_storedLen (s : State) : (alignToByte s).storedLen = s.storedLen := rfl
@[simp] theorem alignToByte_storedNlen (s : State) : (alignToByte s).storedNlen = s.storedNlen := rfl
@[simp] theorem alignToByte_storedRem (s : State) : (alignToByte s).storedRem = s.storedRem := rfl
@[simp] theorem alignToByte_win (s : State) : (alignToByte s).win = s.win := rfl
@[simp] theorem alignToByte_wp (s : State) : (alignToByte s).wp = s.wp := rfl
@[simp] theorem alignToByte_hist (s : State) : (alignToByte s).hist = s.hist := rfl
@[simp] theorem alignToByte_outCount (s : State) : (alignToByte s).outCount = s.outCount := rfl
@[simp] theorem alignToByte_outValid (s : State) : (alignToByte s).outValid = s.outValid := rfl
@[simp] theorem alignToByte_outData (s : State) : (alignToByte s).outData = s.outData := rfl
@[simp] theorem alignToByte_part (s : State) : (alignToByte s).part = s.part := rfl
@[simp] theorem alignToByte_fld (s : State) : (alignToByte s).fld = s.fld := rfl
@[simp] theorem alignToByte_rst (s : State) : (alignToByte s).rst = s.rst := rfl
@[simp] theorem alignToByte_src (s : State) : (alignToByte s).src = s.src := rfl
@[simp] theorem alignToByte_outReady (s : State) : (alignToByte s).outReady = s.outReady := rfl
@[simp] theorem alignToByte_out (s : State) : (alignToByte s).out = s.out := rfl
@[simp] theorem alignToByte_cfg (s : State) : (alignToByte s).cfg = s.cfg := rfl

/-! ### `blockEnd` -/

@[simp] theorem blockEnd_phase (s : State) : (blockEnd s).phase = if s.bfinal then .done else .hdr := rfl
@[simp] theorem blockEnd_err (s : State) : (blockEnd s).err = s.err := rfl
@[simp] theorem blockEnd_bfinal (s : State) : (blockEnd s).bfinal = s.bfinal := rfl
@[simp] theorem blockEnd_btype (s : State) : (blockEnd s).btype = s.btype := rfl
@[simp] theorem blockEnd_bitbuf (s : State) : (blockEnd s).bitbuf = s.bitbuf := rfl
@[simp] theorem blockEnd_bitcnt (s : State) : (blockEnd s).bitcnt = s.bitcnt := rfl
@[simp] theorem blockEnd_inCount (s : State) : (blockEnd s).inCount = s.inCount := rfl
@[simp] theorem blockEnd_llLen (s : State) : (blockEnd s).llLen = s.llLen := rfl
@[simp] theorem blockEnd_dLen (s : State) : (blockEnd s).dLen = s.dLen := rfl
@[simp] theorem blockEnd_clLen (s : State) : (blockEnd s).clLen = s.clLen := rfl
@[simp] theorem blockEnd_lens (s : State) : (blockEnd s).lens = s.lens := rfl
@[simp] theorem blockEnd_lenIdx (s : State) : (blockEnd s).lenIdx = s.lenIdx := rfl
@[simp] theorem blockEnd_clIdx (s : State) : (blockEnd s).clIdx = s.clIdx := rfl
@[simp] theorem blockEnd_hlit (s : State) : (blockEnd s).hlit = s.hlit := rfl
@[simp] theorem blockEnd_hdist (s : State) : (blockEnd s).hdist = s.hdist := rfl
@[simp] theorem blockEnd_hclen (s : State) : (blockEnd s).hclen = s.hclen := rfl
@[simp] theorem blockEnd_ll (s : State) : (blockEnd s).ll = s.ll := rfl
@[simp] theorem blockEnd_d (s : State) : (blockEnd s).d = s.d := rfl
@[simp] theorem blockEnd_cl (s : State) : (blockEnd s).cl = s.cl := rfl
@[simp] theorem blockEnd_prevLen (s : State) : (blockEnd s).prevLen = s.prevLen := rfl
@[simp] theorem blockEnd_prevValid (s : State) : (blockEnd s).prevValid = s.prevValid := rfl
@[simp] theorem blockEnd_curCode (s : State) : (blockEnd s).curCode = s.curCode := rfl
@[simp] theorem blockEnd_curLen (s : State) : (blockEnd s).curLen = s.curLen := rfl
@[simp] theorem blockEnd_pendLen (s : State) : (blockEnd s).pendLen = s.pendLen := rfl
@[simp] theorem blockEnd_pendDist (s : State) : (blockEnd s).pendDist = s.pendDist := rfl
@[simp] theorem blockEnd_pendSym (s : State) : (blockEnd s).pendSym = s.pendSym := rfl
@[simp] theorem blockEnd_copyRem (s : State) : (blockEnd s).copyRem = s.copyRem := rfl
@[simp] theorem blockEnd_storedLen (s : State) : (blockEnd s).storedLen = s.storedLen := rfl
@[simp] theorem blockEnd_storedNlen (s : State) : (blockEnd s).storedNlen = s.storedNlen := rfl
@[simp] theorem blockEnd_storedRem (s : State) : (blockEnd s).storedRem = s.storedRem := rfl
@[simp] theorem blockEnd_win (s : State) : (blockEnd s).win = s.win := rfl
@[simp] theorem blockEnd_wp (s : State) : (blockEnd s).wp = s.wp := rfl
@[simp] theorem blockEnd_hist (s : State) : (blockEnd s).hist = s.hist := rfl
@[simp] theorem blockEnd_outCount (s : State) : (blockEnd s).outCount = s.outCount := rfl
@[simp] theorem blockEnd_outValid (s : State) : (blockEnd s).outValid = s.outValid := rfl
@[simp] theorem blockEnd_outData (s : State) : (blockEnd s).outData = s.outData := rfl
@[simp] theorem blockEnd_part (s : State) : (blockEnd s).part = s.part := rfl
@[simp] theorem blockEnd_fld (s : State) : (blockEnd s).fld = s.fld := rfl
@[simp] theorem blockEnd_rst (s : State) : (blockEnd s).rst = s.rst := rfl
@[simp] theorem blockEnd_src (s : State) : (blockEnd s).src = s.src := rfl
@[simp] theorem blockEnd_outReady (s : State) : (blockEnd s).outReady = s.outReady := rfl
@[simp] theorem blockEnd_out (s : State) : (blockEnd s).out = s.out := rfl
@[simp] theorem blockEnd_cfg (s : State) : (blockEnd s).cfg = s.cfg := rfl

/-! ### `offerByte` -/

@[simp] theorem offerByte_phase (b : Byte) (s : State) : (offerByte b s).phase = s.phase := rfl
@[simp] theorem offerByte_err (b : Byte) (s : State) : (offerByte b s).err = s.err := rfl
@[simp] theorem offerByte_bfinal (b : Byte) (s : State) : (offerByte b s).bfinal = s.bfinal := rfl
@[simp] theorem offerByte_btype (b : Byte) (s : State) : (offerByte b s).btype = s.btype := rfl
@[simp] theorem offerByte_bitbuf (b : Byte) (s : State) : (offerByte b s).bitbuf = s.bitbuf := rfl
@[simp] theorem offerByte_bitcnt (b : Byte) (s : State) : (offerByte b s).bitcnt = s.bitcnt := rfl
@[simp] theorem offerByte_inCount (b : Byte) (s : State) : (offerByte b s).inCount = s.inCount := rfl
@[simp] theorem offerByte_llLen (b : Byte) (s : State) : (offerByte b s).llLen = s.llLen := rfl
@[simp] theorem offerByte_dLen (b : Byte) (s : State) : (offerByte b s).dLen = s.dLen := rfl
@[simp] theorem offerByte_clLen (b : Byte) (s : State) : (offerByte b s).clLen = s.clLen := rfl
@[simp] theorem offerByte_lens (b : Byte) (s : State) : (offerByte b s).lens = s.lens := rfl
@[simp] theorem offerByte_lenIdx (b : Byte) (s : State) : (offerByte b s).lenIdx = s.lenIdx := rfl
@[simp] theorem offerByte_clIdx (b : Byte) (s : State) : (offerByte b s).clIdx = s.clIdx := rfl
@[simp] theorem offerByte_hlit (b : Byte) (s : State) : (offerByte b s).hlit = s.hlit := rfl
@[simp] theorem offerByte_hdist (b : Byte) (s : State) : (offerByte b s).hdist = s.hdist := rfl
@[simp] theorem offerByte_hclen (b : Byte) (s : State) : (offerByte b s).hclen = s.hclen := rfl
@[simp] theorem offerByte_ll (b : Byte) (s : State) : (offerByte b s).ll = s.ll := rfl
@[simp] theorem offerByte_d (b : Byte) (s : State) : (offerByte b s).d = s.d := rfl
@[simp] theorem offerByte_cl (b : Byte) (s : State) : (offerByte b s).cl = s.cl := rfl
@[simp] theorem offerByte_prevLen (b : Byte) (s : State) : (offerByte b s).prevLen = s.prevLen := rfl
@[simp] theorem offerByte_prevValid (b : Byte) (s : State) : (offerByte b s).prevValid = s.prevValid := rfl
@[simp] theorem offerByte_curCode (b : Byte) (s : State) : (offerByte b s).curCode = s.curCode := rfl
@[simp] theorem offerByte_curLen (b : Byte) (s : State) : (offerByte b s).curLen = s.curLen := rfl
@[simp] theorem offerByte_pendLen (b : Byte) (s : State) : (offerByte b s).pendLen = s.pendLen := rfl
@[simp] theorem offerByte_pendDist (b : Byte) (s : State) : (offerByte b s).pendDist = s.pendDist := rfl
@[simp] theorem offerByte_pendSym (b : Byte) (s : State) : (offerByte b s).pendSym = s.pendSym := rfl
@[simp] theorem offerByte_copyRem (b : Byte) (s : State) : (offerByte b s).copyRem = s.copyRem := rfl
@[simp] theorem offerByte_storedLen (b : Byte) (s : State) : (offerByte b s).storedLen = s.storedLen := rfl
@[simp] theorem offerByte_storedNlen (b : Byte) (s : State) : (offerByte b s).storedNlen = s.storedNlen := rfl
@[simp] theorem offerByte_storedRem (b : Byte) (s : State) : (offerByte b s).storedRem = s.storedRem := rfl
@[simp] theorem offerByte_win (b : Byte) (s : State) : (offerByte b s).win = s.win := rfl
@[simp] theorem offerByte_wp (b : Byte) (s : State) : (offerByte b s).wp = s.wp := rfl
@[simp] theorem offerByte_hist (b : Byte) (s : State) : (offerByte b s).hist = s.hist := rfl
@[simp] theorem offerByte_outCount (b : Byte) (s : State) : (offerByte b s).outCount = s.outCount := rfl
@[simp] theorem offerByte_outValid (b : Byte) (s : State) : (offerByte b s).outValid = true := rfl
@[simp] theorem offerByte_outData (b : Byte) (s : State) : (offerByte b s).outData = b := rfl
@[simp] theorem offerByte_part (b : Byte) (s : State) : (offerByte b s).part = s.part := rfl
@[simp] theorem offerByte_fld (b : Byte) (s : State) : (offerByte b s).fld = s.fld := rfl
@[simp] theorem offerByte_rst (b : Byte) (s : State) : (offerByte b s).rst = s.rst := rfl
@[simp] theorem offerByte_src (b : Byte) (s : State) : (offerByte b s).src = s.src := rfl
@[simp] theorem offerByte_outReady (b : Byte) (s : State) : (offerByte b s).outReady = s.outReady := rfl
@[simp] theorem offerByte_out (b : Byte) (s : State) : (offerByte b s).out = s.out := rfl
@[simp] theorem offerByte_cfg (b : Byte) (s : State) : (offerByte b s).cfg = s.cfg := rfl

/-! ### `takeByte` -/

@[simp] theorem takeByte_phase (s : State) : (takeByte s).phase = s.phase := rfl
@[simp] theorem takeByte_err (s : State) : (takeByte s).err = s.err := rfl
@[simp] theorem takeByte_bfinal (s : State) : (takeByte s).bfinal = s.bfinal := rfl
@[simp] theorem takeByte_btype (s : State) : (takeByte s).btype = s.btype := rfl
@[simp] theorem takeByte_bitbuf (s : State) : (takeByte s).bitbuf = s.bitbuf := rfl
@[simp] theorem takeByte_bitcnt (s : State) : (takeByte s).bitcnt = s.bitcnt := rfl
@[simp] theorem takeByte_inCount (s : State) : (takeByte s).inCount = s.inCount := rfl
@[simp] theorem takeByte_llLen (s : State) : (takeByte s).llLen = s.llLen := rfl
@[simp] theorem takeByte_dLen (s : State) : (takeByte s).dLen = s.dLen := rfl
@[simp] theorem takeByte_clLen (s : State) : (takeByte s).clLen = s.clLen := rfl
@[simp] theorem takeByte_lens (s : State) : (takeByte s).lens = s.lens := rfl
@[simp] theorem takeByte_lenIdx (s : State) : (takeByte s).lenIdx = s.lenIdx := rfl
@[simp] theorem takeByte_clIdx (s : State) : (takeByte s).clIdx = s.clIdx := rfl
@[simp] theorem takeByte_hlit (s : State) : (takeByte s).hlit = s.hlit := rfl
@[simp] theorem takeByte_hdist (s : State) : (takeByte s).hdist = s.hdist := rfl
@[simp] theorem takeByte_hclen (s : State) : (takeByte s).hclen = s.hclen := rfl
@[simp] theorem takeByte_ll (s : State) : (takeByte s).ll = s.ll := rfl
@[simp] theorem takeByte_d (s : State) : (takeByte s).d = s.d := rfl
@[simp] theorem takeByte_cl (s : State) : (takeByte s).cl = s.cl := rfl
@[simp] theorem takeByte_prevLen (s : State) : (takeByte s).prevLen = s.prevLen := rfl
@[simp] theorem takeByte_prevValid (s : State) : (takeByte s).prevValid = s.prevValid := rfl
@[simp] theorem takeByte_curCode (s : State) : (takeByte s).curCode = s.curCode := rfl
@[simp] theorem takeByte_curLen (s : State) : (takeByte s).curLen = s.curLen := rfl
@[simp] theorem takeByte_pendLen (s : State) : (takeByte s).pendLen = s.pendLen := rfl
@[simp] theorem takeByte_pendDist (s : State) : (takeByte s).pendDist = s.pendDist := rfl
@[simp] theorem takeByte_pendSym (s : State) : (takeByte s).pendSym = s.pendSym := rfl
@[simp] theorem takeByte_copyRem (s : State) : (takeByte s).copyRem = s.copyRem := rfl
@[simp] theorem takeByte_storedLen (s : State) : (takeByte s).storedLen = s.storedLen := rfl
@[simp] theorem takeByte_storedNlen (s : State) : (takeByte s).storedNlen = s.storedNlen := rfl
@[simp] theorem takeByte_storedRem (s : State) : (takeByte s).storedRem = s.storedRem := rfl
@[simp] theorem takeByte_win (s : State) : (takeByte s).win = Memory.write s.win s.wp.toNat s.outData := rfl
@[simp] theorem takeByte_wp (s : State) : (takeByte s).wp = s.wp + 1 := rfl
@[simp] theorem takeByte_hist (s : State) : (takeByte s).hist = BitVec.ofNat 16 (min (s.hist.toNat + 1) Config.wsize) := rfl
@[simp] theorem takeByte_outCount (s : State) : (takeByte s).outCount = s.outCount + 1 := rfl
@[simp] theorem takeByte_outValid (s : State) : (takeByte s).outValid = false := rfl
@[simp] theorem takeByte_outData (s : State) : (takeByte s).outData = s.outData := rfl
@[simp] theorem takeByte_part (s : State) : (takeByte s).part = s.part := rfl
@[simp] theorem takeByte_fld (s : State) : (takeByte s).fld = s.fld := rfl
@[simp] theorem takeByte_rst (s : State) : (takeByte s).rst = s.rst := rfl
@[simp] theorem takeByte_src (s : State) : (takeByte s).src = s.src := rfl
@[simp] theorem takeByte_outReady (s : State) : (takeByte s).outReady = s.outReady := rfl
@[simp] theorem takeByte_out (s : State) : (takeByte s).out = s.out ++ [s.outData] := rfl
@[simp] theorem takeByte_cfg (s : State) : (takeByte s).cfg = s.cfg := rfl

/-! ### `lengthCode` -/

@[simp] theorem lengthCode_phase (k x : Nat) (s : State) : (lengthCode k x s).phase = .distSym := rfl
@[simp] theorem lengthCode_err (k x : Nat) (s : State) : (lengthCode k x s).err = s.err := rfl
@[simp] theorem lengthCode_bfinal (k x : Nat) (s : State) : (lengthCode k x s).bfinal = s.bfinal := rfl
@[simp] theorem lengthCode_btype (k x : Nat) (s : State) : (lengthCode k x s).btype = s.btype := rfl
@[simp] theorem lengthCode_bitbuf (k x : Nat) (s : State) : (lengthCode k x s).bitbuf = s.bitbuf := rfl
@[simp] theorem lengthCode_bitcnt (k x : Nat) (s : State) : (lengthCode k x s).bitcnt = s.bitcnt := rfl
@[simp] theorem lengthCode_inCount (k x : Nat) (s : State) : (lengthCode k x s).inCount = s.inCount := rfl
@[simp] theorem lengthCode_llLen (k x : Nat) (s : State) : (lengthCode k x s).llLen = s.llLen := rfl
@[simp] theorem lengthCode_dLen (k x : Nat) (s : State) : (lengthCode k x s).dLen = s.dLen := rfl
@[simp] theorem lengthCode_clLen (k x : Nat) (s : State) : (lengthCode k x s).clLen = s.clLen := rfl
@[simp] theorem lengthCode_lens (k x : Nat) (s : State) : (lengthCode k x s).lens = s.lens := rfl
@[simp] theorem lengthCode_lenIdx (k x : Nat) (s : State) : (lengthCode k x s).lenIdx = s.lenIdx := rfl
@[simp] theorem lengthCode_clIdx (k x : Nat) (s : State) : (lengthCode k x s).clIdx = s.clIdx := rfl
@[simp] theorem lengthCode_hlit (k x : Nat) (s : State) : (lengthCode k x s).hlit = s.hlit := rfl
@[simp] theorem lengthCode_hdist (k x : Nat) (s : State) : (lengthCode k x s).hdist = s.hdist := rfl
@[simp] theorem lengthCode_hclen (k x : Nat) (s : State) : (lengthCode k x s).hclen = s.hclen := rfl
@[simp] theorem lengthCode_ll (k x : Nat) (s : State) : (lengthCode k x s).ll = s.ll := rfl
@[simp] theorem lengthCode_d (k x : Nat) (s : State) : (lengthCode k x s).d = s.d := rfl
@[simp] theorem lengthCode_cl (k x : Nat) (s : State) : (lengthCode k x s).cl = s.cl := rfl
@[simp] theorem lengthCode_prevLen (k x : Nat) (s : State) : (lengthCode k x s).prevLen = s.prevLen := rfl
@[simp] theorem lengthCode_prevValid (k x : Nat) (s : State) : (lengthCode k x s).prevValid = s.prevValid := rfl
@[simp] theorem lengthCode_curCode (k x : Nat) (s : State) : (lengthCode k x s).curCode = s.curCode := rfl
@[simp] theorem lengthCode_curLen (k x : Nat) (s : State) : (lengthCode k x s).curLen = s.curLen := rfl
@[simp] theorem lengthCode_pendLen (k x : Nat) (s : State) : (lengthCode k x s).pendLen = lengthOf k x := rfl
@[simp] theorem lengthCode_pendDist (k x : Nat) (s : State) : (lengthCode k x s).pendDist = s.pendDist := rfl
@[simp] theorem lengthCode_pendSym (k x : Nat) (s : State) : (lengthCode k x s).pendSym = BitVec.ofNat 5 k := rfl
@[simp] theorem lengthCode_copyRem (k x : Nat) (s : State) : (lengthCode k x s).copyRem = s.copyRem := rfl
@[simp] theorem lengthCode_storedLen (k x : Nat) (s : State) : (lengthCode k x s).storedLen = s.storedLen := rfl
@[simp] theorem lengthCode_storedNlen (k x : Nat) (s : State) : (lengthCode k x s).storedNlen = s.storedNlen := rfl
@[simp] theorem lengthCode_storedRem (k x : Nat) (s : State) : (lengthCode k x s).storedRem = s.storedRem := rfl
@[simp] theorem lengthCode_win (k x : Nat) (s : State) : (lengthCode k x s).win = s.win := rfl
@[simp] theorem lengthCode_wp (k x : Nat) (s : State) : (lengthCode k x s).wp = s.wp := rfl
@[simp] theorem lengthCode_hist (k x : Nat) (s : State) : (lengthCode k x s).hist = s.hist := rfl
@[simp] theorem lengthCode_outCount (k x : Nat) (s : State) : (lengthCode k x s).outCount = s.outCount := rfl
@[simp] theorem lengthCode_outValid (k x : Nat) (s : State) : (lengthCode k x s).outValid = s.outValid := rfl
@[simp] theorem lengthCode_outData (k x : Nat) (s : State) : (lengthCode k x s).outData = s.outData := rfl
@[simp] theorem lengthCode_part (k x : Nat) (s : State) : (lengthCode k x s).part = s.part := rfl
@[simp] theorem lengthCode_fld (k x : Nat) (s : State) : (lengthCode k x s).fld = s.fld := rfl
@[simp] theorem lengthCode_rst (k x : Nat) (s : State) : (lengthCode k x s).rst = s.rst := rfl
@[simp] theorem lengthCode_src (k x : Nat) (s : State) : (lengthCode k x s).src = s.src := rfl
@[simp] theorem lengthCode_outReady (k x : Nat) (s : State) : (lengthCode k x s).outReady = s.outReady := rfl
@[simp] theorem lengthCode_out (k x : Nat) (s : State) : (lengthCode k x s).out = s.out := rfl
@[simp] theorem lengthCode_cfg (k x : Nat) (s : State) : (lengthCode k x s).cfg = s.cfg := rfl

end Sys2Proof.Machine
end

