-- ==== Sys2Proof/Laws/Ops.lean ====
section
/-! SUPPORT. For each shared operation with cases, what it can do, said once: a frame equation (everything but the named
fields is the old state's), and its cases. -/

namespace Sys2Proof.Machine

/-! ### The bit source -/

/-- Everything `fetchByte` can do (R81). -/
theorem fetchByte_cases (s : State) :
    (s.src = [] ∧ fetchByte s = .wait s) ∨
    (∃ p rest, s.src = p :: rest ∧
      ((p.inErr = true ∧ fetchByte s = .raised .sourceError s) ∨
       (p.inErr = false ∧ p.inValid = true ∧
          fetchByte s =
            .got () { s with bitbuf := p.inData, bitcnt := 8, inCount := s.inCount + 1, src := rest }) ∨
       (p.inErr = false ∧ p.inValid = false ∧ p.inEnd = true ∧ fetchByte s = .raised .unexpectedEndOfInput s) ∨
       (p.inErr = false ∧ p.inValid = false ∧ p.inEnd = false ∧ fetchByte s = .wait { s with src := rest }))) := by
  unfold fetchByte
  cases s.src with
  | nil => simp
  | cons p rest => cases h1 : p.inErr <;> cases h2 : p.inValid <;> cases h3 : p.inEnd <;> simp [h1, h2, h3]

/-- Everything `readBit` can do (R82): the next bit of the buffer, or the first bit of the byte offered, or what
`FetchByte` does when no byte can be taken. -/
theorem readBit_cases (s : State) :
    (s.bitcnt ≠ 0 ∧ readBit s =
      .got (s.bitbuf.getLsbD 0) { s with bitbuf := s.bitbuf >>> 1, bitcnt := s.bitcnt - 1 }) ∨
    (s.bitcnt = 0 ∧
      ((s.src = [] ∧ readBit s = .wait s) ∨
       ∃ p rest, s.src = p :: rest ∧
        ((p.inErr = true ∧ readBit s = .raised .sourceError s) ∨
         (p.inErr = false ∧ p.inValid = true ∧
           readBit s = .got (p.inData.getLsbD 0)
             { s with bitbuf := p.inData >>> 1, bitcnt := 7, inCount := s.inCount + 1, src := rest }) ∨
         (p.inErr = false ∧ p.inValid = false ∧ p.inEnd = true ∧ readBit s = .raised .unexpectedEndOfInput s) ∨
         (p.inErr = false ∧ p.inValid = false ∧ p.inEnd = false ∧ readBit s = .wait { s with src := rest })))) := by
  by_cases hb : s.bitcnt = 0
  · right
    refine ⟨hb, ?_⟩
    rcases fetchByte_cases s with ⟨h, hf⟩ | ⟨p, rest, h, hf⟩
    · left; exact ⟨h, by simp [readBit, hb, hf]⟩
    · right
      refine ⟨p, rest, h, ?_⟩
      rcases hf with ⟨h1, hf⟩ | ⟨h1, h2, hf⟩ | ⟨h1, h2, h3, hf⟩ | ⟨h1, h2, h3, hf⟩
      · exact .inl ⟨h1, by simp [readBit, hb, hf]⟩
      · refine .inr (.inl ⟨h1, h2, ?_⟩)
        simp only [readBit, hb, hf, takeBit, if_true]
        rfl
      · exact .inr (.inr (.inl ⟨h1, h2, h3, by simp [readBit, hb, hf]⟩))
      · exact .inr (.inr (.inr ⟨h1, h2, h3, by simp [readBit, hb, hf]⟩))
  · exact .inl ⟨hb, by rw [readBit, if_neg hb]; rfl⟩

/-! ### Output -/

/-- `afterEmit` changes nothing but the phase and the two loop counters (R261, R362, R395). -/
theorem afterEmit_frame (s : State) :
    afterEmit s =
      { s with
        phase := (afterEmit s).phase, copyRem := (afterEmit s).copyRem, storedRem := (afterEmit s).storedRem } := by
  unfold afterEmit blockEnd
  split <;> (try split) <;> rfl

/-- Everything `afterEmit` can do to the phase and the counters. -/
theorem afterEmit_cases (s : State) :
    (s.phase = .copy ∧ s.copyRem - 1 = 0 ∧ afterEmit s = { s with copyRem := s.copyRem - 1, phase := .token }) ∨
    (s.phase = .copy ∧ s.copyRem - 1 ≠ 0 ∧ afterEmit s = { s with copyRem := s.copyRem - 1 }) ∨
    (s.phase = .storedCopy ∧ s.storedRem - 1 = 0 ∧
      afterEmit s = blockEnd { s with storedRem := s.storedRem - 1 }) ∨
    (s.phase = .storedCopy ∧ s.storedRem - 1 ≠ 0 ∧ afterEmit s = { s with storedRem := s.storedRem - 1 }) ∨
    (s.phase ≠ .copy ∧ s.phase ≠ .storedCopy ∧ afterEmit s = s) := by
  unfold afterEmit
  split
  · rename_i h
    by_cases h1 : s.copyRem - 1 = 0
    · exact .inl ⟨h, h1, if_pos h1⟩
    · exact .inr (.inl ⟨h, h1, if_neg h1⟩)
  · rename_i h
    by_cases h1 : s.storedRem - 1 = 0
    · exact .inr (.inr (.inl ⟨h, h1, if_pos h1⟩))
    · exact .inr (.inr (.inr (.inl ⟨h, h1, if_neg h1⟩)))
  · rename_i h h'
    exact .inr (.inr (.inr (.inr ⟨h, h', rfl⟩)))

/-- `hist` after a byte is taken (R60, R90). -/
theorem takeByte_hist_toNat (s : State) : (takeByte s).hist.toNat = min (s.hist.toNat + 1) 32768 := by
  simp only [takeByte, Config.wsize]
  simp

/-- `wp` after a byte is taken (R59, R90). -/
theorem takeByte_wp_toNat (s : State) : (takeByte s).wp.toNat = (s.wp.toNat + 1) % 32768 := by simp [takeByte]

/-- `out_count` after a byte is taken (R62, R90). -/
theorem takeByte_outCount_toNat (s : State) : (takeByte s).outCount.toNat = (s.outCount.toNat + 1) % 2 ^ 32 := by
  simp [takeByte]

/-- The window after a byte is taken (R90). -/
theorem takeByte_read {s : State} (h : Memory.wf s.win = true) (a : Nat) :
    Memory.read (takeByte s).win a = if a = s.wp.toNat then some s.outData else Memory.read s.win a :=
  Memory.read_write h _ _ _

/-- Taking a byte keeps the window's canonical form (R92). -/
theorem takeByte_wf {s : State} (h : Memory.wf s.win = true) : Memory.wf (takeByte s).win = true :=
  Memory.wf_write h s.wp.isLt _

/-- A sink cycle takes the byte, or changes nothing (R90). -/
theorem sinkCycle_cases (s : State) :
    (s.outReady = true ∧ sinkCycle s = afterEmit (takeByte s)) ∨ (s.outReady = false ∧ sinkCycle s = s) := by
  unfold sinkCycle
  cases s.outReady <;> simp

/-- Emission takes the byte at once, or leaves it offered (R90). -/
theorem emit_cases (b : Byte) (s : State) :
    (s.outReady = true ∧ emit b s = afterEmit (takeByte (offerByte b s))) ∨
    (s.outReady = false ∧ emit b s = offerByte b s) := by
  simpa [emit] using sinkCycle_cases (offerByte b s)

/-- `WinRead` gives the listed byte, or one of its two faults (R91). -/
theorem winRead_cases (dist : BitVec 16) (s : State) :
    ((dist.toNat = 0 ∨ s.hist.toNat < dist.toNat) ∧ winRead dist s = .error .winReadPrecondition) ∨
    (dist.toNat ≠ 0 ∧ dist.toNat ≤ s.hist.toNat ∧
      ((∃ b, Memory.read s.win ((s.wp.toNat + Config.wsize - dist.toNat) % Config.wsize) = some b ∧
          winRead dist s = .ok b) ∨
       (Memory.read s.win ((s.wp.toNat + Config.wsize - dist.toNat) % Config.wsize) = none ∧
          winRead dist s = .error .winReadUnwritten))) := by
  by_cases h : dist.toNat = 0 ∨ s.hist.toNat < dist.toNat
  · exact .inl ⟨h, by simp [winRead, h]⟩
  · refine .inr ⟨by omega, by omega, ?_⟩
    cases hr : Memory.read s.win ((s.wp.toNat + Config.wsize - dist.toNat) % Config.wsize) with
    | none => exact .inr ⟨rfl, by simp [winRead, h, hr]⟩
    | some b => exact .inl ⟨b, rfl, by simp [winRead, h, hr]⟩

/-- Everything one turn of the copy loop can do (R362). -/
theorem copyStep_cases (s : State) :
    (s.copyRem = 0 ∧ copyStep s = .next { s with phase := .token }) ∨
    (s.copyRem ≠ 0 ∧ ∃ b, winRead s.pendDist s = .ok b ∧ copyStep s = .next (emit b s)) ∨
    (s.copyRem ≠ 0 ∧ ∃ f, winRead s.pendDist s = .error f ∧ copyStep s = .fault f) := by
  by_cases h : s.copyRem = 0
  · exact .inl ⟨h, if_pos h⟩
  · cases hw : winRead s.pendDist s with
    | ok b => exact .inr (.inl ⟨h, b, rfl, by rw [copyStep, if_neg h, hw]⟩)
    | error f => exact .inr (.inr ⟨h, f, rfl, by rw [copyStep, if_neg h, hw]⟩)

/-! ### Dynamic tables -/

/-- `writeLens` changes nothing but `lens` and `len_idx`. -/
theorem writeLens_frame (n : Nat) (v : BitVec 4) (s : State) :
    writeLens n v s = { s with lens := (writeLens n v s).lens, lenIdx := (writeLens n v s).lenIdx } := by
  induction n generalizing s with
  | zero => rfl
  | succ n ih =>
    conv => lhs; rw [writeLens, ih]
    rfl

/-- `len_idx` after `n` entries. -/
theorem writeLens_lenIdx (n : Nat) (v : BitVec 4) (s : State) :
    (writeLens n v s).lenIdx = s.lenIdx + BitVec.ofNat 9 n := by
  induction n generalizing s with
  | zero => simp [writeLens]
  | succ n ih =>
    simp only [writeLens, ih]
    rw [BitVec.add_assoc]
    congr 1
    apply BitVec.eq_of_toNat_eq
    simp [Nat.add_comm]

/-- The entries after a run that stays inside the 9-bit index (R216 to R219). -/
theorem writeLens_lens (n : Nat) (v : BitVec 4) (s : State) (h : s.lenIdx.toNat + n < 512) (j : Nat) :
    (writeLens n v s).lens[j]? =
      if s.lenIdx.toNat ≤ j ∧ j < s.lenIdx.toNat + n ∧ j < s.lens.length then some v else s.lens[j]? := by
  induction n generalizing s with
  | zero => simp [writeLens]; omega
  | succ n ih =>
    have h1 : (s.lenIdx + 1).toNat = s.lenIdx.toNat + 1 := by
      rw [BitVec.toNat_add]; simp; omega
    simp only [writeLens]
    rw [ih _ (by simp only [h1]; omega)]
    simp only [h1, List.getElem?_set, List.length_set]
    by_cases hj : j = s.lenIdx.toNat
    · subst hj
      by_cases hl : s.lenIdx.toNat < s.lens.length
      · simp [hl]
      · simp [hl]
    · rw [if_neg (by omega : ¬ s.lenIdx.toNat = j)]
      by_cases hc : s.lenIdx.toNat + 1 ≤ j ∧ j < s.lenIdx.toNat + 1 + n ∧ j < s.lens.length
      · rw [if_pos hc, if_pos (by omega)]
      · rw [if_neg hc, if_neg (by omega)]

theorem writeLens_lens_length (n : Nat) (v : BitVec 4) (s : State) :
    (writeLens n v s).lens.length = s.lens.length := by
  induction n generalizing s with
  | zero => rfl
  | succ n ih => simp [writeLens, ih]

/-- Everything `buildCl` can do (R214). -/
theorem buildCl_cases (s : State) :
    (build Config.maxClBits (clLens s) = none ∧ buildCl s = raise .invalidHuffmanCode s) ∨
    ∃ T, build Config.maxClBits (clLens s) = some T ∧
      buildCl s = { s with cl := T, lenIdx := 0, prevLen := 0, prevValid := false, phase := .dynLens } := by
  unfold buildCl
  cases build Config.maxClBits (clLens s) <;> simp

/-- Everything `buildBlockCodes` can do (R222). -/
theorem buildBlockCodes_cases (s : State) :
    (build Config.maxLlDBits s.llLen = none ∧ buildBlockCodes s = raise .invalidHuffmanCode s) ∨
    ∃ T, build Config.maxLlDBits s.llLen = some T ∧
      ((build Config.maxLlDBits s.dLen = none ∧ buildBlockCodes s = raise .invalidHuffmanCode { s with ll := T }) ∨
       ∃ U, build Config.maxLlDBits s.dLen = some U ∧ buildBlockCodes s = { s with ll := T, d := U, phase := .token }) := by
  unfold buildBlockCodes
  cases build Config.maxLlDBits s.llLen with
  | none => simp
  | some T => cases build Config.maxLlDBits s.dLen <;> simp

/-- Everything `lensTurnEnd` can do (R215). -/
theorem lensTurnEnd_cases (s : State) :
    (s.lenIdx.toNat < totalLens s ∧ lensTurnEnd s = s) ∨
    (totalLens s ≤ s.lenIdx.toNat ∧ lensTurnEnd s = buildBlockCodes (splitLens s)) := by
  unfold lensTurnEnd
  by_cases h : s.lenIdx.toNat < totalLens s
  · exact .inl ⟨h, by simp [h]⟩
  · exact .inr ⟨by omega, by simp [h]⟩

/-- Everything a run of zeros can do (R218 to R220). -/
theorem repeatZero_cases (r : Nat) (s : State) :
    (repeatFits r s = true ∧
      repeatZero r s = lensTurnEnd { writeLens r 0 s with prevLen := 0, prevValid := true }) ∨
    (repeatFits r s = false ∧ repeatZero r s = raise .invalidDynamicTableDescription s) := by
  unfold repeatZero
  cases repeatFits r s <;> simp

/-- The codes of a block are made from, and into, these registers alone (R221, R222). -/
theorem buildBlockCodes_splitLens_frame (s : State) :
    buildBlockCodes (splitLens s) =
      { s with
        llLen := (buildBlockCodes (splitLens s)).llLen, dLen := (buildBlockCodes (splitLens s)).dLen
        ll := (buildBlockCodes (splitLens s)).ll, d := (buildBlockCodes (splitLens s)).d
        phase := (buildBlockCodes (splitLens s)).phase, err := (buildBlockCodes (splitLens s)).err } := by
  rcases buildBlockCodes_cases (splitLens s) with ⟨-, h⟩ | ⟨T, -, ⟨-, h⟩ | ⟨U, -, h⟩⟩ <;> rw [h] <;> rfl

/-! ### References -/

/-- Everything the reference check can do (R361). -/
theorem referenceCheck_cases (s : State) :
    (s.hist.toNat < s.pendDist.toNat ∧ referenceCheck s = raise .invalidDistance s) ∨
    (s.pendDist.toNat ≤ s.hist.toNat ∧ referenceCheck s = { s with copyRem := s.pendLen, phase := .copy }) := by
  unfold referenceCheck
  by_cases h : s.hist < s.pendDist
  · exact .inl ⟨by simpa [BitVec.lt_def] using h, by simp [h]⟩
  · exact .inr ⟨by simpa [BitVec.lt_def] using h, by simp [h]⟩

/-! ### The start of an element and its completed fields -/

/-- `beginElement` changes the byte buffer or `cl_len` (R213, R391). -/
theorem beginElement_frame (s : State) :
    beginElement s =
      { s with
        bitbuf := (beginElement s).bitbuf, bitcnt := (beginElement s).bitcnt, clLen := (beginElement s).clLen } := by
  unfold beginElement alignToByte
  split <;> (try split) <;> rfl

/-- Everything `beginElement` can do. -/
theorem beginElement_cases (s : State) :
    (s.phase = .storedHdr ∧ s.fld = [] ∧ beginElement s = alignToByte s) ∨
    (s.phase = .dynCll ∧ s.fld = [] ∧ s.clIdx = 0 ∧ beginElement s = { s with clLen := List.replicate 19 0 }) ∨
    beginElement s = s := by
  unfold beginElement
  split
  · rename_i h
    by_cases h1 : s.fld = []
    · exact .inl ⟨h, h1, by simp [h1]⟩
    · exact .inr (.inr (by simp [h1]))
  · rename_i h
    by_cases h1 : s.fld = [] ∧ s.clIdx = 0
    · exact .inr (.inl ⟨h, h1.1, h1.2, if_pos (by rw [h1.1, h1.2]; rfl)⟩)
    · refine .inr (.inr (if_neg ?_))
      intro h2
      simp only [Bool.and_eq_true, List.isEmpty_iff, beq_iff_eq] at h2
      exact h1 h2
  · exact .inr (.inr rfl)

/-- `latchField` changes only the register of a completed field (R171, R211, R392). -/
theorem latchField_frame (s : State) :
    latchField s =
      { s with
        bfinal := (latchField s).bfinal, hlit := (latchField s).hlit, hdist := (latchField s).hdist
        storedLen := (latchField s).storedLen } := by
  unfold latchField
  split <;> (try split) <;> (try split) <;> rfl

end Sys2Proof.Machine
end

