-- ==== Sys2Proof/Laws/Fetch.lean ====
section
/-! SUPPORT. What reading one element from the input can do: its frame, and that it reads exactly what `decode` decodes
from the bits to come. -/

namespace Sys2Proof.Machine

/-- The state an access to the input leaves. -/
def Read.state {α : Type} : Read α → State
  | .got _ s => s
  | .wait s => s
  | .raised _ s => s

theorem readFrame_refl (s : State) : readFrame s s := rfl

theorem readFrame_trans {s t u : State} (h1 : readFrame s t) (h2 : readFrame t u) : readFrame s u := by
  unfold readFrame at *
  rw [h2, h1]

@[simp] theorem setReader_reader (s : State) (r : Reader) : (s.setReader r).reader = r := rfl
@[simp] theorem setReader_codes (s : State) (r : Reader) : (s.setReader r).codes = s.codes := rfl
@[simp] theorem setReader_self (s : State) : s.setReader s.reader = s := rfl
@[simp] theorem upcoming_setReader (s : State) (r : Reader) : upcoming (s.setReader r) = upcoming s := rfl

theorem setReader_readFrame (s : State) (r : Reader) : readFrame s (s.setReader r) := rfl

theorem latchField_readFrame (s : State) : readFrame s (latchField s) := by
  unfold readFrame
  rw [latchField_frame]

@[simp] theorem latchField_reader (s : State) : (latchField s).reader = s.reader := by
  rw [latchField_frame]; rfl

@[simp] theorem latchField_codes (s : State) : (latchField s).codes = s.codes := by
  rw [latchField_frame]; rfl

@[simp] theorem upcoming_latchField (s : State) : upcoming (latchField s) = upcoming s := by
  rw [latchField_frame]; rfl

@[simp] theorem consumeBit_reader (r : Reader) (b : Bool) (s : State) :
    (consumeBit r b s).reader = pushBit r b := by simp [consumeBit]

@[simp] theorem consumeBit_codes (r : Reader) (b : Bool) (s : State) : (consumeBit r b s).codes = s.codes := by
  simp [consumeBit]

@[simp] theorem upcoming_consumeBit (r : Reader) (b : Bool) (s : State) :
    upcoming (consumeBit r b s) = upcoming s := by simp [consumeBit]

theorem consumeBit_readFrame (r : Reader) (b : Bool) (s : State) : readFrame s (consumeBit r b s) :=
  readFrame_trans (setReader_readFrame s _) (latchField_readFrame _)

/-- What `readBit` may write. -/
theorem readBit_frame (s : State) :
    (readBit s).state =
      { s with
        bitbuf := (readBit s).state.bitbuf, bitcnt := (readBit s).state.bitcnt
        inCount := (readBit s).state.inCount, src := (readBit s).state.src } := by
  rcases readBit_cases s with ⟨-, h⟩ | ⟨-, ⟨-, h⟩ | ⟨p, rest, -, ⟨-, h⟩ | ⟨-, -, h⟩ | ⟨-, -, -, h⟩ | ⟨-, -, -, h⟩⟩⟩ <;>
    rw [h] <;> rfl

theorem readBit_readFrame (s : State) : readFrame s (readBit s).state := by
  unfold readFrame; rw [readBit_frame]

theorem readBit_reader (s : State) : (readBit s).state.reader = s.reader := by rw [readBit_frame]; rfl

theorem readBit_codes (s : State) : (readBit s).state.codes = s.codes := by rw [readBit_frame]; rfl

/-- Everything one turn of `fetchElement` can do. -/
theorem fetchElement_succ (n : Nat) (s : State) :
    (∃ i r, look s.codes s.reader = .instr i r ∧ fetchElement (n + 1) s = .got i (s.setReader r)) ∨
    (∃ r, look s.codes s.reader = .invalid r ∧
      fetchElement (n + 1) s = .raised .invalidHuffmanCode (s.setReader r)) ∨
    (∃ r, look s.codes s.reader = .more r ∧
      ((∃ b t, readBit (s.setReader r) = .got b t ∧ fetchElement (n + 1) s = fetchElement n (consumeBit r b t)) ∨
       (∃ t, readBit (s.setReader r) = .wait t ∧ fetchElement (n + 1) s = .wait t) ∨
       (∃ e t, readBit (s.setReader r) = .raised e t ∧ fetchElement (n + 1) s = .raised e t))) := by
  cases hl : look s.codes s.reader with
  | instr i r => exact .inl ⟨i, r, rfl, by simp [fetchElement, hl]⟩
  | invalid r => exact .inr (.inl ⟨r, rfl, by simp [fetchElement, hl]⟩)
  | more r =>
    refine .inr (.inr ⟨r, rfl, ?_⟩)
    cases hr : readBit (s.setReader r) with
    | got b t => exact .inl ⟨b, t, rfl, by simp [fetchElement, hl, hr]⟩
    | wait t => exact .inr (.inl ⟨t, rfl, by simp [fetchElement, hl, hr]⟩)
    | raised e t => exact .inr (.inr ⟨e, t, rfl, by simp [fetchElement, hl, hr]⟩)

/-- Reading an element changes nothing that reading may not write. -/
theorem fetchElement_readFrame (n : Nat) (s : State) : readFrame s (fetchElement n s).state := by
  induction n generalizing s with
  | zero => rfl
  | succ n ih =>
    rcases fetchElement_succ n s with ⟨i, r, -, hf⟩ | ⟨r, -, hf⟩ | ⟨r, -, hf⟩
    · rw [hf]; exact setReader_readFrame s r
    · rw [hf]; exact setReader_readFrame s r
    · have h := readFrame_trans (setReader_readFrame s r) (readBit_readFrame (s.setReader r))
      rcases hf with ⟨b, t, hr, hf⟩ | ⟨t, hr, hf⟩ | ⟨e, t, hr, hf⟩ <;> rw [hf] <;> rw [hr] at h
      · exact readFrame_trans h (readFrame_trans (consumeBit_readFrame r b t) (ih _))
      · exact h
      · exact h

theorem readFrame_codes {s t : State} (h : readFrame s t) : t.codes = s.codes := by
  unfold readFrame at h; rw [h]; rfl

theorem readsOnly_codes {s t : State} (h : readsOnly s t) : t.codes = s.codes := readFrame_codes h.frame

/-! ### What reading may change -/

theorem readsOnly_refl (s : State) : readsOnly s s :=
  ⟨rfl, rfl, fun _ => rfl, fun _ => ⟨rfl, rfl⟩, fun _ => rfl, [], rfl, by simp, by simp⟩

theorem ne_of_beganIn {p q r : Phase} (h : beganIn q = beganIn p) (hr : r = .hdr ∨ r = .dynHdr ∨ r = .storedHdr)
    (hp : p ≠ r) : q ≠ r := by
  rcases hr with rfl | rfl | rfl <;> cases p <;> cases q <;> simp [beganIn] at h hp ⊢

theorem readsOnly_trans {s t u : State} (h1 : readsOnly s t) (h2 : readsOnly t u) : readsOnly s u where
  frame := readFrame_trans h1.frame h2.frame
  phase := h2.phase.trans h1.phase
  bfinal h := (h2.bfinal (ne_of_beganIn h1.phase (by simp) h)).trans (h1.bfinal h)
  counts h :=
    have h' := h2.counts (ne_of_beganIn h1.phase (by simp) h)
    ⟨h'.1.trans (h1.counts h).1, h'.2.trans (h1.counts h).2⟩
  storedLen h := (h2.storedLen (ne_of_beganIn h1.phase (by simp) h)).trans (h1.storedLen h)
  bytes := by
    obtain ⟨k, hk, hk1, hk2⟩ := h1.bytes
    obtain ⟨l, hl, hl1, hl2⟩ := h2.bytes
    refine ⟨k ++ l, by rw [hk, hl, List.append_assoc], ?_, ?_⟩
    · intro p hp
      exact (List.mem_append.1 hp).elim (hk1 p) (hl1 p)
    · rw [hl2, hk2, List.length_append, BitVec.ofNat_add, BitVec.add_assoc]

theorem setReader_readsOnly (s : State) {r : Reader} (h : beganIn r.phase = beganIn s.phase) :
    readsOnly s (s.setReader r) :=
  ⟨rfl, h, fun _ => rfl, fun _ => ⟨rfl, rfl⟩, fun _ => rfl, [], rfl, by simp, by simp [State.setReader]⟩

/-- A field is latched only in the phase it belongs to (R171, R211, R392). -/
theorem latchField_readsOnly (s : State) : readsOnly s (latchField s) where
  frame := latchField_readFrame s
  phase := by rw [latchField_frame]
  bfinal h := by unfold latchField; split <;> (try split) <;> (try split) <;> first | rfl | contradiction
  counts h := by unfold latchField; split <;> (try split) <;> (try split) <;> first | exact ⟨rfl, rfl⟩ | contradiction
  storedLen h := by unfold latchField; split <;> (try split) <;> (try split) <;> first | rfl | contradiction
  bytes := ⟨[], by rw [latchField_frame]; rfl, by simp, by rw [latchField_frame]; simp⟩

theorem consumeBit_readsOnly {r : Reader} {s : State} (b : Bool) (h : beganIn r.phase = beganIn s.phase) :
    readsOnly s (consumeBit r b s) :=
  readsOnly_trans (setReader_readsOnly s (by simpa using h)) (latchField_readsOnly _)

/-- `ReadBit` takes no byte, or the one that is offered (R81, R82). -/
theorem readBit_readsOnly {s t : State} {b : Bool} (h : readBit s = .got b t) : readsOnly s t := by
  rcases readBit_cases s with ⟨-, hr⟩ | ⟨-, ⟨-, hr⟩ | ⟨p, rest, hs, ⟨-, hr⟩ | ⟨h1, h2, hr⟩ | ⟨-, -, -, hr⟩ | ⟨-, -, -, hr⟩⟩⟩ <;>
    rw [hr] at h <;> cases h
  · exact ⟨rfl, rfl, fun _ => rfl, fun _ => ⟨rfl, rfl⟩, fun _ => rfl, [], rfl, by simp, by simp⟩
  · exact ⟨rfl, rfl, fun _ => rfl, fun _ => ⟨rfl, rfl⟩, fun _ => rfl, [p], hs, by simp [h1, h2], rfl⟩

/-- A stall uses up one cycle in which no byte is offered, or there is none (R81). -/
theorem readBit_wait {s t : State} (h : readBit s = .wait t) :
    t = s ∨ ∃ p, s.src = p :: t.src ∧ p.inValid = false ∧ p.inErr = false ∧ t = { s with src := t.src } := by
  rcases readBit_cases s with ⟨-, hr⟩ | ⟨-, ⟨-, hr⟩ | ⟨p, rest, hs, ⟨-, hr⟩ | ⟨-, -, hr⟩ | ⟨-, -, -, hr⟩ | ⟨h1, h2, -, hr⟩⟩⟩ <;>
    rw [hr] at h <;> cases h
  · exact .inl rfl
  · exact .inr ⟨p, hs, h2, h1, rfl⟩

theorem readBit_raised {s t : State} {e : ErrCode} (h : readBit s = .raised e t) :
    t = s ∧ (e = .sourceError ∨ e = .unexpectedEndOfInput) := by
  rcases readBit_cases s with ⟨-, hr⟩ | ⟨-, ⟨-, hr⟩ | ⟨p, rest, -, ⟨-, hr⟩ | ⟨-, -, hr⟩ | ⟨-, -, -, hr⟩ | ⟨-, -, -, hr⟩⟩⟩ <;>
    rw [hr] at h <;> cases h <;> simp

/-- What reading an element says of the state it leaves. After a stall, one cycle without a byte may be used up too. -/
def readLeaves (s : State) : Read Instr → Prop
  | .got _ t => readsOnly s t
  | .raised _ t => readsOnly s t
  | .wait t => ∃ u, readsOnly s u ∧
      (t = u ∨ ∃ p, u.src = p :: t.src ∧ p.inValid = false ∧ p.inErr = false ∧ t = { u with src := t.src })

theorem readLeaves_trans {s t : State} {x : Read Instr} (h1 : readsOnly s t) (h2 : readLeaves t x) : readLeaves s x := by
  cases x with
  | got i u => exact readsOnly_trans h1 h2
  | raised e u => exact readsOnly_trans h1 h2
  | wait u => exact h2.imp fun v hv => ⟨readsOnly_trans h1 hv.1, hv.2⟩

/-- Reading an element does nothing but read. -/
theorem fetchElement_leaves (n : Nat) (s : State) : readLeaves s (fetchElement n s) := by
  induction n generalizing s with
  | zero => exact ⟨s, readsOnly_refl s, .inl rfl⟩
  | succ n ih =>
    have hl := look_inPhase s.codes s.reader
    rcases fetchElement_succ n s with ⟨i, r, h, hf⟩ | ⟨r, h, hf⟩ | ⟨r, h, hf⟩ <;> rw [h] at hl
    · rw [hf]; exact setReader_readsOnly s hl.2
    · rw [hf]; exact setReader_readsOnly s hl
    · have hr0 := setReader_readsOnly s (r := r) hl
      rcases hf with ⟨b, t, hr, hf⟩ | ⟨t, hr, hf⟩ | ⟨e, t, hr, hf⟩ <;> rw [hf]
      · have h1 := readBit_readsOnly hr
        exact readLeaves_trans (readsOnly_trans (readsOnly_trans hr0 h1)
          (consumeBit_readsOnly b h1.phase.symm)) (ih _)
      · exact ⟨_, hr0, readBit_wait hr⟩
      · obtain ⟨rfl, -⟩ := readBit_raised hr
        exact hr0

/-- How many bytes reading an element takes, and how many bits it leaves (R45, R46, R82, R86). -/
theorem fetchElement_bytes (n : Nat) (s : State) :
    ∃ k, k ≤ n ∧ (fetchElement n s).state.inCount = s.inCount + BitVec.ofNat 32 k ∧
      (k ≠ 0 → (fetchElement n s).state.bitcnt.toNat ≤ 7) ∧
      (k = 0 → (fetchElement n s).state.bitcnt.toNat ≤ s.bitcnt.toNat) := by
  induction n generalizing s with
  | zero => exact ⟨0, by simp [fetchElement, Read.state]⟩
  | succ n ih =>
    rcases fetchElement_succ n s with ⟨i, r, -, hf⟩ | ⟨r, -, hf⟩ | ⟨r, -, hf⟩
    · rw [hf]; exact ⟨0, by simp [Read.state, State.setReader]⟩
    · rw [hf]; exact ⟨0, by simp [Read.state, State.setReader]⟩
    · rcases hf with ⟨b, t, hr, hf⟩ | ⟨t, hr, hf⟩ | ⟨e, t, hr, hf⟩ <;> rw [hf]
      · obtain ⟨k, h1, h2, h3, h4⟩ := ih (consumeBit r b t)
        generalize hw : fetchElement n (consumeBit r b t) = w at h2 h3 h4 ⊢
        clear hw hf
        have c1 : (consumeBit r b t).inCount = t.inCount := by
          unfold consumeBit; rw [latchField_frame]; rfl
        have c2 : (consumeBit r b t).bitcnt = t.bitcnt := by
          unfold consumeBit; rw [latchField_frame]; rfl
        rw [c1] at h2
        rw [c2] at h4
        rcases readBit_cases (s.setReader r) with
          ⟨h, hb⟩ | ⟨h, ⟨-, hb⟩ | ⟨p, rest, hp, ⟨-, hb⟩ | ⟨-, -, hb⟩ | ⟨-, -, -, hb⟩ | ⟨-, -, -, hb⟩⟩⟩ <;>
          rw [hb] at hr <;> cases hr
        · have hne : s.bitcnt.toNat ≠ 0 := fun h0 => h (BitVec.eq_of_toNat_eq h0)
          have hm : (s.bitcnt - 1).toNat = s.bitcnt.toNat - 1 := by
            rw [BitVec.toNat_sub]; have := s.bitcnt.isLt; simp; omega
          simp only [State.setReader, hm] at h2 h4
          exact ⟨k, by omega, h2, h3, fun hk => by have := h4 hk; omega⟩
        · simp only [State.setReader] at h2 h4
          refine ⟨k + 1, by omega, ?_, ?_, by simp⟩
          · rw [h2, BitVec.ofNat_add, BitVec.add_assoc, BitVec.add_comm (1 : BitVec 32)]; rfl
          · intro _
            by_cases hk : k = 0
            · have := h4 hk; simpa using this
            · exact h3 hk
      · rcases readBit_wait hr with rfl | ⟨p, -, -, -, h2⟩
        · exact ⟨0, by simp [Read.state, State.setReader]⟩
        · rw [h2]; exact ⟨0, by simp [Read.state, State.setReader]⟩
      · obtain ⟨rfl, -⟩ := readBit_raised hr
        exact ⟨0, by simp [Read.state, State.setReader]⟩

/-! ### The bits to come -/

theorem getLsbD_zero_eq {w : Nat} (v : BitVec w) : v.getLsbD 0 = (v.toNat % 2 == 1) := by
  simp only [BitVec.getLsbD, Nat.testBit_zero]
  rcases Nat.mod_two_eq_zero_or_one v.toNat with h | h <;> simp [h]

theorem upcoming_eq_cons {s : State} {b : Bool} {bs : List Bool} (h : upcoming s = b :: bs) :
    ∃ t, readBit s = .got b t ∧ upcoming t = bs := by
  rcases readBit_cases s with ⟨hb, hr⟩ | ⟨hb, hr⟩
  · have hn : s.bitcnt.toNat ≠ 0 := fun h0 => hb (BitVec.eq_of_toNat_eq h0)
    obtain ⟨k, hk⟩ := Nat.exists_eq_succ_of_ne_zero hn
    simp only [upcoming, bufferBits, hk, lsbBits, List.cons_append, List.cons.injEq] at h
    rw [getLsbD_zero_eq, h.1] at hr
    refine ⟨_, hr, ?_⟩
    have h1 : (s.bitcnt - 1).toNat = k := by
      rw [BitVec.toNat_sub]; have := s.bitcnt.isLt; simp; omega
    rw [← h.2]
    simp only [upcoming, bufferBits, h1]
    simp [Nat.shiftRight_eq_div_pow]
  · rcases hr with ⟨h0, hr⟩ | ⟨p, rest, h0, hr⟩
    · simp [upcoming, bufferBits, hb, h0, offeredBytes, byteBits, lsbBits] at h
    · have hup : upcoming s = byteBits (offeredBytes (p :: rest)) := by
        simp [upcoming, bufferBits, hb, h0, lsbBits]
      rw [hup] at h
      rcases hr with ⟨h1, -⟩ | ⟨h1, h2, hr⟩ | ⟨h1, h2, -, -⟩ | ⟨h1, h2, -, -⟩
      · simp [offeredBytes, h1, byteBits] at h
      · simp only [offeredBytes, h1, h2, byteBits_cons, Bool.not_false, Bool.and_self, if_true,
          lsbBits_succ 7, List.cons_append, List.cons.injEq] at h
        rw [getLsbD_zero_eq, h.1] at hr
        refine ⟨_, hr, ?_⟩
        rw [← h.2]
        simp [upcoming, bufferBits, Nat.shiftRight_eq_div_pow]
      · simp [offeredBytes, h1, h2, byteBits] at h
      · simp [offeredBytes, h1, h2, byteBits] at h

/-- What the port answers when a bit is needed and none is to come (R81, R432). -/
def starved (s : State) : Read Unit :=
  match s.src with
  | [] => .wait s
  | p :: rest =>
    if p.inErr then .raised .sourceError s
    else if p.inEnd then .raised .unexpectedEndOfInput s
    else .wait { s with src := rest }

theorem upcoming_eq_nil {s : State} (h : upcoming s = []) :
    s.bitcnt = 0 ∧
      ((∃ t, starved s = .wait t ∧ readBit s = .wait t) ∨ (∃ e, starved s = .raised e s ∧ readBit s = .raised e s)) := by
  have hb : s.bitcnt = 0 := by
    apply BitVec.eq_of_toNat_eq
    have := congrArg List.length h
    simp only [upcoming, bufferBits, List.length_append, lsbBits_length, List.length_nil] at this
    simp; omega
  refine ⟨hb, ?_⟩
  rcases readBit_cases s with ⟨hb', -⟩ | ⟨-, ⟨h0, hr⟩ | ⟨p, rest, h0, hr⟩⟩
  · exact absurd hb hb'
  · exact .inl ⟨s, by simp [starved, h0], hr⟩
  · rcases hr with ⟨h1, hr⟩ | ⟨h1, h2, hr⟩ | ⟨h1, h2, h3, hr⟩ | ⟨h1, h2, h3, hr⟩
    · exact .inr ⟨_, by simp [starved, h0, h1], hr⟩
    · have := congrArg List.length h
      simp [upcoming, h0, offeredBytes, h1, h2, byteBits_cons] at this
    · exact .inr ⟨_, by simp [starved, h0, h1, h3], hr⟩
    · exact .inl ⟨_, by simp [starved, h0, h1, h3], hr⟩

/-! ### How long an element can be -/

theorem fieldWidth_le (c : Codes) (r : Reader) : fieldWidth c r ≤ 32 := by
  have h1 : ∀ k, lenXb.getD k 0 ≤ 5 := by
    intro k
    by_cases h : k < 29
    · have : ∀ k : Fin 29, lenXb.getD k 0 ≤ 5 := by decide
      exact this ⟨k, h⟩
    · rw [List.getD_eq_default _ _ (by simpa [lenXb] using h)]; omega
  have h2 : ∀ k, distXb.getD k 0 ≤ 13 := by
    intro k
    by_cases h : k < 30
    · have : ∀ k : Fin 30, distXb.getD k 0 ≤ 13 := by decide
      exact this ⟨k, h⟩
    · rw [List.getD_eq_default _ _ (by simpa [distXb] using h)]; omega
  have h3 : ∀ k, clsXb k ≤ 7 := by intro k; unfold clsXb; split <;> (try split) <;> (try split) <;> omega
  unfold fieldWidth
  have := h1 r.pendSym.toNat
  have := h2 r.pendSym.toNat
  have := h3 (pendingClsSymbol c r)
  split <;> omega

/-- A bound on the bits an element can still take (R128). -/
def bitsLeft (r : Reader) : Nat :=
  if r.inCodeword then (if r.part = .start then 15 else 15 - r.curLen.toNat) + 32 else 32 - r.fld.length

theorem bitsLeft_le (r : Reader) : bitsLeft r ≤ 47 := by unfold bitsLeft; split <;> (try split) <;> omega

/-- A field that needs a bit. -/
theorem lookField_more {c : Codes} {r r' : Reader} (h : lookField c r = .more r') :
    r' = r ∧ r.fld.length < fieldWidth c r := by
  unfold lookField at h
  split at h
  · exact ⟨by injection h with h; exact h.symm, ‹_›⟩
  · cases hf : fieldInstr c r <;> simp [hf] at h

/-- A resolved symbol whose extra bits are needed. -/
theorem resolved_more {c : Codes} {r r' : Reader} {sym : Nat} (h : resolved c r sym = .more r') :
    r'.fld = [] ∧ r'.inCodeword = false := by
  have key : ∀ q : Reader, q.fld = [] → q.inCodeword = false → lookField c q = .more r' →
      r'.fld = [] ∧ r'.inCodeword = false := by
    intro q h1 h2 h3
    obtain ⟨rfl, -⟩ := lookField_more h3
    exact ⟨h1, h2⟩
  unfold resolved at h
  split at h
  · by_cases h1 : sym < 256
    · simp [h1] at h
    by_cases h2 : sym = 256
    · simp [h2] at h
    by_cases h3 : sym < 286
    · simp only [h1, h2, h3, if_true, if_false] at h
      exact key _ rfl rfl h
    · simp only [h1, h2, h3, if_false] at h
      split at h
      · contradiction
      · split at h <;> contradiction
  · by_cases h1 : sym < 30
    · simp only [h1, if_true] at h
      exact key _ rfl rfl h
    · simp only [h1, if_false] at h
      split at h
      · contradiction
      · split at h <;> contradiction
  · rename_i hp
    split at h
    · contradiction
    · split at h
      · contradiction
      · exact key _ rfl (by simp [Reader.inCodeword, hp]) h
  · contradiction

theorem pushBit_codeword {r : Reader} (h : r.inCodeword = true) (b : Bool) :
    pushBit r b = { r with curCode := (r.curCode <<< 1) ||| (if b then 1 else 0), curLen := r.curLen + 1 } := by
  unfold pushBit; rw [if_pos h]

theorem pushBit_field {r : Reader} (h : r.inCodeword = false) (b : Bool) :
    pushBit r b = { r with fld := r.fld ++ [b] } := by
  unfold pushBit; rw [h]; rfl

/-- What a codeword's cursor has left after a bit. -/
theorem bitsLeft_push_codeword {r : Reader} (h : r.inCodeword = true) (hp : r.part ≠ .start)
    (hl : r.curLen.toNat ≤ 14) (b : Bool) : bitsLeft (pushBit r b) = 15 - (r.curLen.toNat + 1) + 32 := by
  have h1 : (r.curLen + 1).toNat = r.curLen.toNat + 1 := by rw [BitVec.toNat_add]; simp; omega
  rw [pushBit_codeword h]
  unfold bitsLeft
  rw [if_pos (by exact h), if_neg (by exact hp)]
  simp only [h1]

/-- What a field has left after a bit. -/
theorem bitsLeft_push_field {r : Reader} (h : r.inCodeword = false) (b : Bool) :
    bitsLeft (pushBit r b) = 32 - (r.fld.length + 1) := by
  rw [pushBit_field h]
  unfold bitsLeft
  rw [if_neg (by show ¬ r.inCodeword = true; simp [h])]
  simp

/-- Every bit read brings the element's end nearer (R206: the loop runs at most `maxbits` times). -/
theorem bitsLeft_push {c : Codes} {r r' : Reader} (h : look c r = .more r') (b : Bool) :
    bitsLeft (pushBit r' b) < bitsLeft r := by
  unfold look at h
  by_cases hi : r.inCodeword = true
  · have hleft : bitsLeft r = (if r.part = .start then 15 else 15 - r.curLen.toNat) + 32 := by
      unfold bitsLeft; rw [if_pos hi]
    rw [if_pos hi] at h
    unfold lookSymbol at h
    split at h
    · rename_i hs
      injection h with h
      subst h
      have hi' : Reader.inCodeword { r with part := .code, curCode := 0, curLen := 0 } = true := by
        revert hi; unfold Reader.inCodeword; cases r.phase <;> simp
      rw [bitsLeft_push_codeword hi' (by simp) (by simp), hleft, if_pos hs]
      simp
    · rename_i hs
      rw [if_neg hs] at hleft
      split at h
      · rename_i h0
        injection h with h; subst h
        rw [bitsLeft_push_codeword hi hs (by simp [h0]), hleft, h0]
        decide
      · split at h
        · obtain ⟨h1, h2⟩ := resolved_more h
          rw [bitsLeft_push_field h2, h1, hleft]
          simp
        · split at h
          · rename_i hb
            injection h with h; subst h
            unfold beginsCodeword at hb
            obtain ⟨w, -, hw⟩ := List.any_eq_true.1 hb
            simp only [Bool.and_eq_true, decide_eq_true_eq, BitVec.lt_def] at hw
            have := w.len.isLt
            rw [bitsLeft_push_codeword hi hs (by omega), hleft]
            omega
          · contradiction
  · rw [if_neg hi] at h
    obtain ⟨rfl, hl⟩ := lookField_more h
    have hw := fieldWidth_le c r'
    rw [bitsLeft_push_field (by simpa using hi)]
    unfold bitsLeft
    rw [if_neg hi]
    omega

/-! ### Stalls and the bound -/

/-- The reader a look leaves in the middle of an element looks the same: a stall there loses nothing (R13). -/
theorem look_more_again {c : Codes} {r q : Reader} (h : look c r = .more q) : look c q = .more q := by
  have hf : ∀ q' : Reader, q'.inCodeword = false → lookField c q' = .more q → look c q = .more q := by
    intro q' hi hl
    obtain ⟨rfl, hlt⟩ := lookField_more hl
    rw [look, if_neg (by simp [hi])]
    exact hl
  unfold look at h
  by_cases hi : r.inCodeword = true
  · rw [if_pos hi] at h
    unfold lookSymbol at h
    split at h
    · injection h with h; subst h
      have hi' : Reader.inCodeword { r with part := .code, curCode := 0, curLen := 0 } = true := by
        revert hi; unfold Reader.inCodeword; cases r.phase <;> simp
      rw [look, if_pos hi', lookSymbol, if_neg (by simp), if_pos rfl]
    · rename_i hp
      split at h
      · rename_i h0
        injection h with h; subst h
        rw [look, if_pos hi, lookSymbol, if_neg hp, if_pos h0]
      · rename_i h0
        split at h
        · rename_i sym hs
          unfold resolved at h
          split at h
          · split at h
            · cases h
            · split at h
              · cases h
              · split at h
                · exact hf _ rfl h
                · split at h
                  · cases h
                  · split at h <;> cases h
          · split at h
            · exact hf _ rfl h
            · split at h
              · cases h
              · split at h <;> cases h
          · rename_i hph
            split at h
            · cases h
            · split at h
              · cases h
              · exact hf _ (by simp [Reader.inCodeword, hph]) h
          · cases h
        · rename_i hn
          split at h
          · rename_i hb
            injection h with h; subst h
            rw [look, if_pos hi, lookSymbol, if_neg hp, if_neg h0, hn]
            simp [hb]
          · cases h
  · rw [if_neg hi] at h
    exact hf r (by simpa using hi) h

/-- The bound of `fetchElement` is never what ends the loop. -/
theorem fetchElement_fuel (n m : Nat) (s : State) (hn : bitsLeft s.reader < n) (hm : bitsLeft s.reader < m) :
    fetchElement n s = fetchElement m s := by
  induction n generalizing s m with
  | zero => omega
  | succ n ih =>
    cases m with
    | zero => omega
    | succ m =>
      simp only [fetchElement]
      cases hl : look s.codes s.reader with
      | instr i r => rfl
      | invalid r => rfl
      | more r =>
        simp only
        cases hr : readBit (s.setReader r) with
        | got b t =>
          have := bitsLeft_push hl b
          exact ih _ _ (by simp; omega) (by simp; omega)
        | wait t => rfl
        | raised e t => rfl

/-! ### Reading an element is decoding the bits to come -/

/-- What `fetchElement` answers, by what `decode` answers on the bits to come. -/
theorem fetchElement_decode (n : Nat) (s : State) (hn : bitsLeft s.reader < n) :
    match decode s.codes s.reader (upcoming s) with
    | .instr i r rest => ∃ t, fetchElement n s = .got i t ∧ t.reader = r ∧ upcoming t = rest
    | .invalidHuffmanCode r rest =>
        ∃ t, fetchElement n s = .raised .invalidHuffmanCode t ∧ t.reader = r ∧ upcoming t = rest
    | .short r => ∃ t, readsOnly s t ∧ t.reader = r ∧ upcoming t = [] ∧
        ((∃ u, starved t = .wait u ∧ fetchElement n s = .wait u) ∨
         (∃ e, starved t = .raised e t ∧ fetchElement n s = .raised e t)) := by
  induction n generalizing s with
  | zero => omega
  | succ n ih =>
    cases hu : upcoming s with
    | nil =>
      simp only [decode, fetchElement]
      cases hl : look s.codes s.reader with
      | instr i r => exact ⟨_, rfl, rfl, by simpa using hu⟩
      | invalid r => exact ⟨_, rfl, rfl, by simpa using hu⟩
      | more r =>
        have hl' := look_inPhase s.codes s.reader
        rw [hl] at hl'
        obtain ⟨-, ⟨u, h1, h2⟩ | ⟨e, h1, h2⟩⟩ := upcoming_eq_nil (s := s.setReader r) (by simpa using hu)
        · exact ⟨s.setReader r, setReader_readsOnly s hl', rfl, by simpa using hu, .inl ⟨u, h1, by simp [h2]⟩⟩
        · exact ⟨s.setReader r, setReader_readsOnly s hl', rfl, by simpa using hu, .inr ⟨e, h1, by simp [h2]⟩⟩
    | cons b bs =>
      simp only [decode, fetchElement]
      cases hl : look s.codes s.reader with
      | instr i r => exact ⟨_, rfl, rfl, by simpa using hu⟩
      | invalid r => exact ⟨_, rfl, rfl, by simpa using hu⟩
      | more r =>
        obtain ⟨t, h1, h2⟩ := upcoming_eq_cons (s := s.setReader r) (by simpa using hu)
        have hl' := look_inPhase s.codes s.reader
        rw [hl] at hl'
        have hf := readBit_readsOnly h1
        have hc := readBit_codes (s.setReader r)
        simp only [h1, Read.state] at hc
        have := ih (consumeBit r b t) (by have := bitsLeft_push hl b; simp; omega)
        simp only [consumeBit_codes, consumeBit_reader, upcoming_consumeBit, h2, hc, setReader_codes] at this
        simp only [h1]
        revert this
        cases decode s.codes (pushBit r b) bs with
        | instr i r' rest => exact id
        | invalidHuffmanCode r' rest => exact id
        | short r' =>
          rintro ⟨u, hu1, hu2⟩
          exact ⟨u, readsOnly_trans (readsOnly_trans (setReader_readsOnly s hl') hf)
            (readsOnly_trans (consumeBit_readsOnly b hf.phase.symm) hu1), hu2⟩

end Sys2Proof.Machine
end

