-- ==== Sys2Proof/Laws/PerInstr.lean ====
section
/-! SUPPORT. Facts about each element as syntax: which phase reads it, whether a codeword stands before its fields, and how
many field bits it has (R95, R120, R128, R138). -/

namespace Sys2Proof.Laws.Encoding

/-- An element is read in a phase that reads the input; it has a codeword exactly where that phase decodes one; and its
fixed-width fields have at most 32 bits (LEN and NLEN), at most 13 of them after a codeword (R95). -/
def Statement (i : Instr) : Prop :=
  Machine.readsInput i.form.1 = true ∧ i.form.2.1.isSome = (Reader.start i.form.1).inCodeword ∧
    i.form.2.2.length ≤ (if i.form.2.1.isSome then 13 else 32)

end Sys2Proof.Laws.Encoding

theorem Sys2Proof.Laws.Encoding.bhStored (final : Bool) : Sys2Proof.Laws.Encoding.Statement (.bhStored final) :=
  ⟨rfl, rfl, by simp [Sys2Proof.Instr.form]⟩

theorem Sys2Proof.Laws.Encoding.bhFixed (final : Bool) : Sys2Proof.Laws.Encoding.Statement (.bhFixed final) :=
  ⟨rfl, rfl, by simp [Sys2Proof.Instr.form]⟩

theorem Sys2Proof.Laws.Encoding.bhDynamic (final : Bool) : Sys2Proof.Laws.Encoding.Statement (.bhDynamic final) :=
  ⟨rfl, rfl, by simp [Sys2Proof.Instr.form]⟩

theorem Sys2Proof.Laws.Encoding.bhReserved (final : Bool) : Sys2Proof.Laws.Encoding.Statement (.bhReserved final) :=
  ⟨rfl, rfl, by simp [Sys2Proof.Instr.form]⟩

theorem Sys2Proof.Laws.Encoding.dynHeader (hlit : BitVec 5) (hdist : BitVec 5) (hclen : BitVec 4) : Sys2Proof.Laws.Encoding.Statement (.dynHeader hlit hdist hclen) :=
  ⟨rfl, rfl, by simp [Sys2Proof.Instr.form]⟩

theorem Sys2Proof.Laws.Encoding.clCodeLength (len : BitVec 3) : Sys2Proof.Laws.Encoding.Statement (.clCodeLength len) :=
  ⟨rfl, rfl, by simp [Sys2Proof.Instr.form]⟩

theorem Sys2Proof.Laws.Encoding.clLen (sym : BitVec 4) : Sys2Proof.Laws.Encoding.Statement (.clLen sym) :=
  ⟨rfl, rfl, by simp [Sys2Proof.Instr.form]⟩

theorem Sys2Proof.Laws.Encoding.clRepPrev (extra : BitVec 2) : Sys2Proof.Laws.Encoding.Statement (.clRepPrev extra) :=
  ⟨rfl, rfl, by simp [Sys2Proof.Instr.form]⟩

theorem Sys2Proof.Laws.Encoding.clRepZ3 (extra : BitVec 3) : Sys2Proof.Laws.Encoding.Statement (.clRepZ3 extra) :=
  ⟨rfl, rfl, by simp [Sys2Proof.Instr.form]⟩

theorem Sys2Proof.Laws.Encoding.clRepZ11 (extra : BitVec 7) : Sys2Proof.Laws.Encoding.Statement (.clRepZ11 extra) :=
  ⟨rfl, rfl, by simp [Sys2Proof.Instr.form]⟩

theorem Sys2Proof.Laws.Encoding.lit (b : BitVec 8) : Sys2Proof.Laws.Encoding.Statement (.lit b) :=
  ⟨rfl, rfl, by simp [Sys2Proof.Instr.form]⟩

theorem Sys2Proof.Laws.Encoding.eob : Sys2Proof.Laws.Encoding.Statement .eob :=
  ⟨rfl, rfl, by decide⟩

theorem Sys2Proof.Laws.Encoding.len257 : Sys2Proof.Laws.Encoding.Statement .len257 :=
  ⟨rfl, rfl, by decide⟩

theorem Sys2Proof.Laws.Encoding.len258 : Sys2Proof.Laws.Encoding.Statement .len258 :=
  ⟨rfl, rfl, by decide⟩

theorem Sys2Proof.Laws.Encoding.len259 : Sys2Proof.Laws.Encoding.Statement .len259 :=
  ⟨rfl, rfl, by decide⟩

theorem Sys2Proof.Laws.Encoding.len260 : Sys2Proof.Laws.Encoding.Statement .len260 :=
  ⟨rfl, rfl, by decide⟩

theorem Sys2Proof.Laws.Encoding.len261 : Sys2Proof.Laws.Encoding.Statement .len261 :=
  ⟨rfl, rfl, by decide⟩

theorem Sys2Proof.Laws.Encoding.len262 : Sys2Proof.Laws.Encoding.Statement .len262 :=
  ⟨rfl, rfl, by decide⟩

theorem Sys2Proof.Laws.Encoding.len263 : Sys2Proof.Laws.Encoding.Statement .len263 :=
  ⟨rfl, rfl, by decide⟩

theorem Sys2Proof.Laws.Encoding.len264 : Sys2Proof.Laws.Encoding.Statement .len264 :=
  ⟨rfl, rfl, by decide⟩

theorem Sys2Proof.Laws.Encoding.len265 (extra : BitVec 1) : Sys2Proof.Laws.Encoding.Statement (.len265 extra) :=
  ⟨rfl, rfl, by simp [Sys2Proof.Instr.form]⟩

theorem Sys2Proof.Laws.Encoding.len266 (extra : BitVec 1) : Sys2Proof.Laws.Encoding.Statement (.len266 extra) :=
  ⟨rfl, rfl, by simp [Sys2Proof.Instr.form]⟩

theorem Sys2Proof.Laws.Encoding.len267 (extra : BitVec 1) : Sys2Proof.Laws.Encoding.Statement (.len267 extra) :=
  ⟨rfl, rfl, by simp [Sys2Proof.Instr.form]⟩

theorem Sys2Proof.Laws.Encoding.len268 (extra : BitVec 1) : Sys2Proof.Laws.Encoding.Statement (.len268 extra) :=
  ⟨rfl, rfl, by simp [Sys2Proof.Instr.form]⟩

theorem Sys2Proof.Laws.Encoding.len269 (extra : BitVec 2) : Sys2Proof.Laws.Encoding.Statement (.len269 extra) :=
  ⟨rfl, rfl, by simp [Sys2Proof.Instr.form]⟩

theorem Sys2Proof.Laws.Encoding.len270 (extra : BitVec 2) : Sys2Proof.Laws.Encoding.Statement (.len270 extra) :=
  ⟨rfl, rfl, by simp [Sys2Proof.Instr.form]⟩

theorem Sys2Proof.Laws.Encoding.len271 (extra : BitVec 2) : Sys2Proof.Laws.Encoding.Statement (.len271 extra) :=
  ⟨rfl, rfl, by simp [Sys2Proof.Instr.form]⟩

theorem Sys2Proof.Laws.Encoding.len272 (extra : BitVec 2) : Sys2Proof.Laws.Encoding.Statement (.len272 extra) :=
  ⟨rfl, rfl, by simp [Sys2Proof.Instr.form]⟩

theorem Sys2Proof.Laws.Encoding.len273 (extra : BitVec 3) : Sys2Proof.Laws.Encoding.Statement (.len273 extra) :=
  ⟨rfl, rfl, by simp [Sys2Proof.Instr.form]⟩

theorem Sys2Proof.Laws.Encoding.len274 (extra : BitVec 3) : Sys2Proof.Laws.Encoding.Statement (.len274 extra) :=
  ⟨rfl, rfl, by simp [Sys2Proof.Instr.form]⟩

theorem Sys2Proof.Laws.Encoding.len275 (extra : BitVec 3) : Sys2Proof.Laws.Encoding.Statement (.len275 extra) :=
  ⟨rfl, rfl, by simp [Sys2Proof.Instr.form]⟩

theorem Sys2Proof.Laws.Encoding.len276 (extra : BitVec 3) : Sys2Proof.Laws.Encoding.Statement (.len276 extra) :=
  ⟨rfl, rfl, by simp [Sys2Proof.Instr.form]⟩

theorem Sys2Proof.Laws.Encoding.len277 (extra : BitVec 4) : Sys2Proof.Laws.Encoding.Statement (.len277 extra) :=
  ⟨rfl, rfl, by simp [Sys2Proof.Instr.form]⟩

theorem Sys2Proof.Laws.Encoding.len278 (extra : BitVec 4) : Sys2Proof.Laws.Encoding.Statement (.len278 extra) :=
  ⟨rfl, rfl, by simp [Sys2Proof.Instr.form]⟩

theorem Sys2Proof.Laws.Encoding.len279 (extra : BitVec 4) : Sys2Proof.Laws.Encoding.Statement (.len279 extra) :=
  ⟨rfl, rfl, by simp [Sys2Proof.Instr.form]⟩

theorem Sys2Proof.Laws.Encoding.len280 (extra : BitVec 4) : Sys2Proof.Laws.Encoding.Statement (.len280 extra) :=
  ⟨rfl, rfl, by simp [Sys2Proof.Instr.form]⟩

theorem Sys2Proof.Laws.Encoding.len281 (extra : BitVec 5) : Sys2Proof.Laws.Encoding.Statement (.len281 extra) :=
  ⟨rfl, rfl, by simp [Sys2Proof.Instr.form]⟩

theorem Sys2Proof.Laws.Encoding.len282 (extra : BitVec 5) : Sys2Proof.Laws.Encoding.Statement (.len282 extra) :=
  ⟨rfl, rfl, by simp [Sys2Proof.Instr.form]⟩

theorem Sys2Proof.Laws.Encoding.len283 (extra : BitVec 5) : Sys2Proof.Laws.Encoding.Statement (.len283 extra) :=
  ⟨rfl, rfl, by simp [Sys2Proof.Instr.form]⟩

theorem Sys2Proof.Laws.Encoding.len284 (extra : BitVec 5) : Sys2Proof.Laws.Encoding.Statement (.len284 extra) :=
  ⟨rfl, rfl, by simp [Sys2Proof.Instr.form]⟩

theorem Sys2Proof.Laws.Encoding.len285 : Sys2Proof.Laws.Encoding.Statement .len285 :=
  ⟨rfl, rfl, by decide⟩

theorem Sys2Proof.Laws.Encoding.llRsv286 : Sys2Proof.Laws.Encoding.Statement .llRsv286 :=
  ⟨rfl, rfl, by decide⟩

theorem Sys2Proof.Laws.Encoding.llRsv287 : Sys2Proof.Laws.Encoding.Statement .llRsv287 :=
  ⟨rfl, rfl, by decide⟩

theorem Sys2Proof.Laws.Encoding.dist0 : Sys2Proof.Laws.Encoding.Statement .dist0 :=
  ⟨rfl, rfl, by decide⟩

theorem Sys2Proof.Laws.Encoding.dist1 : Sys2Proof.Laws.Encoding.Statement .dist1 :=
  ⟨rfl, rfl, by decide⟩

theorem Sys2Proof.Laws.Encoding.dist2 : Sys2Proof.Laws.Encoding.Statement .dist2 :=
  ⟨rfl, rfl, by decide⟩

theorem Sys2Proof.Laws.Encoding.dist3 : Sys2Proof.Laws.Encoding.Statement .dist3 :=
  ⟨rfl, rfl, by decide⟩

theorem Sys2Proof.Laws.Encoding.dist4 (extra : BitVec 1) : Sys2Proof.Laws.Encoding.Statement (.dist4 extra) :=
  ⟨rfl, rfl, by simp [Sys2Proof.Instr.form]⟩

theorem Sys2Proof.Laws.Encoding.dist5 (extra : BitVec 1) : Sys2Proof.Laws.Encoding.Statement (.dist5 extra) :=
  ⟨rfl, rfl, by simp [Sys2Proof.Instr.form]⟩

theorem Sys2Proof.Laws.Encoding.dist6 (extra : BitVec 2) : Sys2Proof.Laws.Encoding.Statement (.dist6 extra) :=
  ⟨rfl, rfl, by simp [Sys2Proof.Instr.form]⟩

theorem Sys2Proof.Laws.Encoding.dist7 (extra : BitVec 2) : Sys2Proof.Laws.Encoding.Statement (.dist7 extra) :=
  ⟨rfl, rfl, by simp [Sys2Proof.Instr.form]⟩

theorem Sys2Proof.Laws.Encoding.dist8 (extra : BitVec 3) : Sys2Proof.Laws.Encoding.Statement (.dist8 extra) :=
  ⟨rfl, rfl, by simp [Sys2Proof.Instr.form]⟩

theorem Sys2Proof.Laws.Encoding.dist9 (extra : BitVec 3) : Sys2Proof.Laws.Encoding.Statement (.dist9 extra) :=
  ⟨rfl, rfl, by simp [Sys2Proof.Instr.form]⟩

theorem Sys2Proof.Laws.Encoding.dist10 (extra : BitVec 4) : Sys2Proof.Laws.Encoding.Statement (.dist10 extra) :=
  ⟨rfl, rfl, by simp [Sys2Proof.Instr.form]⟩

theorem Sys2Proof.Laws.Encoding.dist11 (extra : BitVec 4) : Sys2Proof.Laws.Encoding.Statement (.dist11 extra) :=
  ⟨rfl, rfl, by simp [Sys2Proof.Instr.form]⟩

theorem Sys2Proof.Laws.Encoding.dist12 (extra : BitVec 5) : Sys2Proof.Laws.Encoding.Statement (.dist12 extra) :=
  ⟨rfl, rfl, by simp [Sys2Proof.Instr.form]⟩

theorem Sys2Proof.Laws.Encoding.dist13 (extra : BitVec 5) : Sys2Proof.Laws.Encoding.Statement (.dist13 extra) :=
  ⟨rfl, rfl, by simp [Sys2Proof.Instr.form]⟩

theorem Sys2Proof.Laws.Encoding.dist14 (extra : BitVec 6) : Sys2Proof.Laws.Encoding.Statement (.dist14 extra) :=
  ⟨rfl, rfl, by simp [Sys2Proof.Instr.form]⟩

theorem Sys2Proof.Laws.Encoding.dist15 (extra : BitVec 6) : Sys2Proof.Laws.Encoding.Statement (.dist15 extra) :=
  ⟨rfl, rfl, by simp [Sys2Proof.Instr.form]⟩

theorem Sys2Proof.Laws.Encoding.dist16 (extra : BitVec 7) : Sys2Proof.Laws.Encoding.Statement (.dist16 extra) :=
  ⟨rfl, rfl, by simp [Sys2Proof.Instr.form]⟩

theorem Sys2Proof.Laws.Encoding.dist17 (extra : BitVec 7) : Sys2Proof.Laws.Encoding.Statement (.dist17 extra) :=
  ⟨rfl, rfl, by simp [Sys2Proof.Instr.form]⟩

theorem Sys2Proof.Laws.Encoding.dist18 (extra : BitVec 8) : Sys2Proof.Laws.Encoding.Statement (.dist18 extra) :=
  ⟨rfl, rfl, by simp [Sys2Proof.Instr.form]⟩

theorem Sys2Proof.Laws.Encoding.dist19 (extra : BitVec 8) : Sys2Proof.Laws.Encoding.Statement (.dist19 extra) :=
  ⟨rfl, rfl, by simp [Sys2Proof.Instr.form]⟩

theorem Sys2Proof.Laws.Encoding.dist20 (extra : BitVec 9) : Sys2Proof.Laws.Encoding.Statement (.dist20 extra) :=
  ⟨rfl, rfl, by simp [Sys2Proof.Instr.form]⟩

theorem Sys2Proof.Laws.Encoding.dist21 (extra : BitVec 9) : Sys2Proof.Laws.Encoding.Statement (.dist21 extra) :=
  ⟨rfl, rfl, by simp [Sys2Proof.Instr.form]⟩

theorem Sys2Proof.Laws.Encoding.dist22 (extra : BitVec 10) : Sys2Proof.Laws.Encoding.Statement (.dist22 extra) :=
  ⟨rfl, rfl, by simp [Sys2Proof.Instr.form]⟩

theorem Sys2Proof.Laws.Encoding.dist23 (extra : BitVec 10) : Sys2Proof.Laws.Encoding.Statement (.dist23 extra) :=
  ⟨rfl, rfl, by simp [Sys2Proof.Instr.form]⟩

theorem Sys2Proof.Laws.Encoding.dist24 (extra : BitVec 11) : Sys2Proof.Laws.Encoding.Statement (.dist24 extra) :=
  ⟨rfl, rfl, by simp [Sys2Proof.Instr.form]⟩

theorem Sys2Proof.Laws.Encoding.dist25 (extra : BitVec 11) : Sys2Proof.Laws.Encoding.Statement (.dist25 extra) :=
  ⟨rfl, rfl, by simp [Sys2Proof.Instr.form]⟩

theorem Sys2Proof.Laws.Encoding.dist26 (extra : BitVec 12) : Sys2Proof.Laws.Encoding.Statement (.dist26 extra) :=
  ⟨rfl, rfl, by simp [Sys2Proof.Instr.form]⟩

theorem Sys2Proof.Laws.Encoding.dist27 (extra : BitVec 12) : Sys2Proof.Laws.Encoding.Statement (.dist27 extra) :=
  ⟨rfl, rfl, by simp [Sys2Proof.Instr.form]⟩

theorem Sys2Proof.Laws.Encoding.dist28 (extra : BitVec 13) : Sys2Proof.Laws.Encoding.Statement (.dist28 extra) :=
  ⟨rfl, rfl, by simp [Sys2Proof.Instr.form]⟩

theorem Sys2Proof.Laws.Encoding.dist29 (extra : BitVec 13) : Sys2Proof.Laws.Encoding.Statement (.dist29 extra) :=
  ⟨rfl, rfl, by simp [Sys2Proof.Instr.form]⟩

theorem Sys2Proof.Laws.Encoding.dRsv30 : Sys2Proof.Laws.Encoding.Statement .dRsv30 :=
  ⟨rfl, rfl, by decide⟩

theorem Sys2Proof.Laws.Encoding.dRsv31 : Sys2Proof.Laws.Encoding.Statement .dRsv31 :=
  ⟨rfl, rfl, by decide⟩

theorem Sys2Proof.Laws.Encoding.stHeader (len : BitVec 16) (nlen : BitVec 16) : Sys2Proof.Laws.Encoding.Statement (.stHeader len nlen) :=
  ⟨rfl, rfl, by simp [Sys2Proof.Instr.form]⟩

theorem Sys2Proof.Laws.Encoding.stData (b : BitVec 8) : Sys2Proof.Laws.Encoding.Statement (.stData b) :=
  ⟨rfl, rfl, by simp [Sys2Proof.Instr.form]⟩
end

