-- ==== Sys2Proof/Laws/Scan.lean ====
section
/-! SUPPORT. What a decoding says of its bits: the field or the codeword they begin with, and where they are rejected. -/

namespace Sys2Proof

/-! ### Fields -/

theorem lsbBits_bitsToNat (bs : List Bool) : lsbBits bs.length (bitsToNat bs) = bs := by
  induction bs with
  | nil => rfl
  | cons b bs ih =>
    have h1 : (bitsToNat (b :: bs)) / 2 = bitsToNat bs := by cases b <;> simp [bitsToNat]; omega
    have h2 : (bitsToNat (b :: bs) % 2 == 1) = b := by cases b <;> simp [bitsToNat]
    rw [List.length_cons, lsbBits_succ, h1, h2, ih]

/-- A field that decodes to an element is at the front of the bits. -/
theorem decode_field_instr {c : Codes} {r : Reader} {bits : List Bool} {i : Instr} {q : Reader} {rest : List Bool}
    (hi : r.inCodeword = false) (hw : r.fld.length ≤ fieldWidth c r) (h : decode c r bits = .instr i q rest) :
    ∃ f, bits = f ++ rest ∧ (r.fld ++ f).length = fieldWidth c r ∧ fieldInstr c { r with fld := r.fld ++ f } = some i := by
  induction bits generalizing r with
  | nil =>
    simp only [decode, look, hi, lookField] at h
    by_cases hl : r.fld.length < fieldWidth c r
    · simp [hl] at h
    · cases hf : fieldInstr c r <;> simp [hl, hf] at h
      obtain ⟨rfl, -, rfl⟩ := h
      exact ⟨[], rfl, by simp; omega, by simpa using hf⟩
  | cons b bs ih =>
    by_cases hl : r.fld.length < fieldWidth c r
    · have hp : pushBit r b = { r with fld := r.fld ++ [b] } := by simp [pushBit, hi]
      have hm : look c r = .more r := by simp [look, hi, lookField, hl]
      simp only [decode, hm, hp] at h
      obtain ⟨f, hf, h1, h2⟩ := ih (r := { r with fld := r.fld ++ [b] }) (by rw [← hi]; rfl)
        (by rw [show fieldWidth c { r with fld := r.fld ++ [b] } = fieldWidth c r from rfl]; simp; omega) h
      refine ⟨b :: f, by rw [hf]; rfl, ?_, ?_⟩
      · simpa [fieldWidth, pendingClsSymbol] using h1
      · simpa using h2
    · cases hf : fieldInstr c r with
      | none => simp [decode, look, hi, lookField, hl, hf] at h
      | some j =>
        simp [decode, look, hi, lookField, hl, hf] at h
        obtain ⟨rfl, -, rfl⟩ := h
        exact ⟨[], rfl, by simp; omega, by simpa using hf⟩

/-- A field is rejected only if no element has its value. -/
theorem decode_field_invalid {c : Codes} {r : Reader} {bits : List Bool} {q : Reader} {rest : List Bool}
    (hi : r.inCodeword = false) (h : decode c r bits = .invalidHuffmanCode q rest) :
    ∃ f, fieldInstr c { r with fld := f } = none := by
  induction bits generalizing r with
  | nil =>
    by_cases hl : r.fld.length < fieldWidth c r
    · simp [decode, look, hi, lookField, hl] at h
    · cases hf : fieldInstr c r <;> simp [decode, look, hi, lookField, hl, hf] at h
      exact ⟨r.fld, hf⟩
  | cons b bs ih =>
    by_cases hl : r.fld.length < fieldWidth c r
    · have hp : pushBit r b = { r with fld := r.fld ++ [b] } := by simp [pushBit, hi]
      have hm : look c r = .more r := by simp [look, hi, lookField, hl]
      simp only [decode, hm, hp] at h
      exact ih (r := { r with fld := r.fld ++ [b] }) (by rw [← hi]; rfl) h
    · cases hf : fieldInstr c r <;> simp [decode, look, hi, lookField, hl, hf] at h
      exact ⟨r.fld, hf⟩

/-! ### Codewords -/

/-- The value of bits whose first is the most significant. -/
def msbValue (bs : List Bool) : Nat := bitsToNat bs.reverse

theorem msbBits_msbValue (bs : List Bool) : msbBits bs.length (msbValue bs) = bs := by
  have := lsbBits_bitsToNat bs.reverse
  rw [List.length_reverse] at this
  rw [msbBits, msbValue, this, List.reverse_reverse]

theorem msbValue_lt (bs : List Bool) : msbValue bs < 2 ^ bs.length := by
  have := bitsToNat_lt bs.reverse
  rwa [List.length_reverse] at this

theorem msbValue_append (bs : List Bool) (b : Bool) : msbValue (bs ++ [b]) = 2 * msbValue bs + (if b then 1 else 0) := by
  rw [msbValue, List.reverse_append]
  simp [bitsToNat, msbValue]
  cases b <;> simp
  omega

/-- The reader inside a codeword after the bits `bs`, at the root if there are none. -/
def Reader.after (r : Reader) (bs : List Bool) : Reader :=
  { r with part := .code, curCode := BitVec.ofNat 15 (msbValue bs), curLen := BitVec.ofNat 4 bs.length }

theorem pushBit_after {r : Reader} {bs : List Bool} (hi : (r.after bs).inCodeword = true) (hk : bs.length ≤ 14) (b : Bool) :
    pushBit (r.after bs) b = r.after (bs ++ [b]) := by
  have hor : ∀ a x : Nat, x < 2 → 2 * a ||| x = 2 * a + x := by
    intro a x hx
    have := Nat.two_pow_add_eq_or_of_lt (i := 1) (by simpa using hx) a
    simpa using this.symm
  have hlt := msbValue_lt bs
  have hpow : 2 ^ bs.length ≤ 2 ^ 14 := Nat.pow_le_pow_right (by omega) hk
  unfold pushBit
  rw [if_pos hi]
  unfold Reader.after
  congr 1
  · apply BitVec.eq_of_toNat_eq
    rw [BitVec.toNat_or, BitVec.toNat_shiftLeft, msbValue_append]
    simp only [BitVec.toNat_ofNat, Nat.shiftLeft_eq, pow_one]
    simp only [show (2 : Nat) ^ 15 = 32768 from rfl, show (2 : Nat) ^ 14 = 16384 from rfl] at hpow ⊢
    rw [Nat.mod_eq_of_lt (a := msbValue bs) (by omega), Nat.mul_comm (msbValue bs) 2,
      Nat.mod_eq_of_lt (a := 2 * msbValue bs) (by omega)]
    cases b
    · have := hor (msbValue bs) 0 (by omega)
      simpa using (Nat.mod_eq_of_lt (show 2 * msbValue bs < 32768 by omega)).symm
    · have := hor (msbValue bs) 1 (by omega)
      simp only [if_true]
      rw [Nat.mod_eq_of_lt (by omega), ← this]
      rfl
  · apply BitVec.eq_of_toNat_eq
    simp

/-- The codeword of a symbol whose entry the cursor stands on is the bits read. -/
theorem codewordBits_eq {T : Code} {s : Nat} {bs : List Bool} (h1 : 1 ≤ bs.length) (h15 : bs.length ≤ 15)
    (h : T[s]? = some { len := BitVec.ofNat 4 bs.length, code := BitVec.ofNat 15 (msbValue bs) }) :
    hasCodeword T s = true ∧ codewordBits T s = bs := by
  have hn : (BitVec.ofNat 4 bs.length).toNat = bs.length := by simp; omega
  have hv := msbValue_lt bs
  have hpow : 2 ^ bs.length ≤ 2 ^ 15 := Nat.pow_le_pow_right (by omega) h15
  constructor
  · refine hasCodeword_iff.2 ⟨_, h, ?_⟩
    intro h0
    have h0 : BitVec.ofNat 4 bs.length = 0 := h0
    rw [h0] at hn
    simp at hn
    omega
  · simp only [codewordBits, h, hn, BitVec.toNat_ofNat]
    rw [Nat.mod_eq_of_lt (by omega)]
    exact msbBits_msbValue bs

theorem codewordBits_length {T : Code} {s : Nat} {w : Codeword} (h : T[s]? = some w) :
    (codewordBits T s).length = w.len.toNat := by simp [codewordBits, h]

theorem codewordBits_length_le (T : Code) (s : Nat) : (codewordBits T s).length ≤ 15 := by
  unfold codewordBits
  cases h : T[s]? with
  | none => simp
  | some w => have := w.len.isLt; simp; omega

/-- The first test of `DecodeSym`: the bits read are a codeword. -/
theorem findSymbol_after {T : Code} (hT : T.ok) {bs : List Bool} (h1 : 1 ≤ bs.length) (h15 : bs.length ≤ 15) (s : Nat) :
    findSymbol T (BitVec.ofNat 4 bs.length) (BitVec.ofNat 15 (msbValue bs)) = some s ↔
      hasCodeword T s = true ∧ codewordBits T s = bs := by
  constructor
  · intro h
    exact codewordBits_eq h1 h15 (findSymbol_some h)
  · rintro ⟨hs, rfl⟩
    obtain ⟨w, hw, h0⟩ := hasCodeword_iff.1 hs
    have hfit := hT.fits _ (List.mem_of_getElem? hw)
    rw [codewordBits_length hw]
    have hval : msbValue (codewordBits T s) = w.code.toNat := by
      simp only [codewordBits, hw, msbValue, msbBits, List.reverse_reverse, bitsToNat_lsbBits]
      exact Nat.mod_eq_of_lt hfit
    rw [hval, BitVec.ofNat_toNat, BitVec.ofNat_toNat, BitVec.setWidth_eq, BitVec.setWidth_eq]
    exact findSymbol_codeword hT hw h0

/-- The second test of `DecodeSym`: the bits read are a proper beginning of a codeword. -/
theorem beginsCodeword_after {T : Code} (hT : T.ok) {bs : List Bool} (h15 : bs.length ≤ 15) :
    beginsCodeword T (BitVec.ofNat 4 bs.length) (BitVec.ofNat 15 (msbValue bs)) = true ↔
      ∃ s, hasCodeword T s = true ∧ bs <+: codewordBits T s ∧ bs ≠ codewordBits T s := by
  have hn : (BitVec.ofNat 4 bs.length).toNat = bs.length := by simp; omega
  have hv := msbValue_lt bs
  have hpow : 2 ^ bs.length ≤ 2 ^ 15 := Nat.pow_le_pow_right (by omega) h15
  have hm : (BitVec.ofNat 15 (msbValue bs)).toNat = msbValue bs := by
    rw [BitVec.toNat_ofNat, Nat.mod_eq_of_lt (by omega)]
  have key : ∀ w : Codeword, w.code.toNat < 2 ^ w.len.toNat →
      (bs <+: msbBits w.len.toNat w.code.toNat ↔
        bs.length ≤ w.len.toNat ∧ w.code.toNat / 2 ^ (w.len.toNat - bs.length) = msbValue bs) := by
    intro w hw
    conv => lhs; rw [← msbBits_msbValue bs]
    exact msbBits_prefix hv hw
  unfold beginsCodeword
  rw [List.any_eq_true]
  constructor
  · rintro ⟨w, hmem, h⟩
    simp only [Bool.and_eq_true, decide_eq_true_eq, beq_iff_eq, BitVec.lt_def, hn] at h
    obtain ⟨s, hs⟩ := List.mem_iff_getElem?.1 hmem
    have h0 : w.len ≠ 0 := by intro h0; rw [h0] at h; simp at h
    refine ⟨s, hasCodeword_iff.2 ⟨w, hs, h0⟩, ?_, ?_⟩
    · simp only [codewordBits, hs]
      refine (key w (hT.fits w hmem)).2 ⟨by omega, ?_⟩
      have := congrArg BitVec.toNat h.2
      rwa [codeword_shift, hm] at this
    · intro he
      have := congrArg List.length he
      rw [codewordBits_length hs] at this
      omega
  · rintro ⟨s, hs, hp, hne⟩
    obtain ⟨w, hw, -⟩ := hasCodeword_iff.1 hs
    have hmem := List.mem_of_getElem? hw
    have hlt : bs.length < w.len.toNat := by
      rcases Nat.lt_or_ge bs.length w.len.toNat with h | h
      · exact h
      · exact absurd (hp.eq_of_length_le (by rw [codewordBits_length hw]; exact h)) hne
    simp only [codewordBits, hw] at hp
    refine ⟨w, hmem, ?_⟩
    simp only [Bool.and_eq_true, decide_eq_true_eq, beq_iff_eq, BitVec.lt_def, hn]
    refine ⟨hlt, BitVec.eq_of_toNat_eq ?_⟩
    rw [codeword_shift, hm]
    exact ((key w (hT.fits w hmem)).1 hp).2

theorem Code.begun_length {T : Code} {bs : List Bool} (h : T.begun bs) : bs.length ≤ 14 := by
  rcases h with rfl | ⟨s, -, hp, hne⟩
  · simp
  · have h1 := codewordBits_length_le T s
    have h2 : bs.length < (codewordBits T s).length := by
      rcases Nat.lt_or_ge bs.length (codewordBits T s).length with h | h
      · exact h
      · exact absurd (hp.eq_of_length_le h) hne
    omega

/-- In a prefix-free code, bits that are still open are no codeword. -/
theorem Code.begun_not_codeword {T : Code} (hT : T.ok) {bs : List Bool} (h : T.begun bs) (s : Nat)
    (hs : hasCodeword T s = true) : codewordBits T s ≠ bs := by
  rintro rfl
  rcases h with h | ⟨t, ht, hp, hne⟩
  · obtain ⟨w, hw, h0⟩ := hasCodeword_iff.1 hs
    have := codewordBits_length hw
    rw [h] at this
    exact h0 (BitVec.eq_of_toNat_eq this.symm)
  · exact hne (congrArg (codewordBits T) (hT.prefixFree s t hs ht hp))

/-- The reader at an element's start reads the codeword from the root. -/
theorem decode_start_after {c : Codes} {ph : Phase} (hi : (Reader.start ph).inCodeword = true) (bits : List Bool) :
    decode c (Reader.start ph) bits = decode c ((Reader.start ph).after []) bits := by
  have hi' : ((Reader.start ph).after []).inCodeword = true := by
    cases ph <;> first | rfl | simp [Reader.start, Reader.inCodeword] at hi
  have h1 : look c (Reader.start ph) = .more ((Reader.start ph).after []) := by
    unfold look lookSymbol
    rw [if_pos hi, if_pos (show (Reader.start ph).part = .start from rfl)]
    rfl
  have h2 : look c ((Reader.start ph).after []) = .more ((Reader.start ph).after []) := by
    unfold look lookSymbol
    rw [if_pos hi', if_neg (by simp [Reader.after]), if_pos (by simp [Reader.after])]
  cases bits <;> simp only [decode, h1, h2]

/-- What a look says inside a codeword (R206). -/
theorem look_after {c : Codes} {r : Reader} {bs : List Bool} (hi : (r.after bs).inCodeword = true)
    (hT : (c.forPhase r.phase).ok) (h15 : bs.length ≤ 15) :
    ((c.forPhase r.phase).begun bs ∧ look c (r.after bs) = .more (r.after bs)) ∨
    (∃ s, hasCodeword (c.forPhase r.phase) s = true ∧ codewordBits (c.forPhase r.phase) s = bs ∧
      look c (r.after bs) = resolved c (r.after bs) s) ∨
    (bs ≠ [] ∧ (∀ s, hasCodeword (c.forPhase r.phase) s = true → ¬ bs <+: codewordBits (c.forPhase r.phase) s) ∧
      look c (r.after bs) = .invalid (r.after bs)) := by
  have hl : look c (r.after bs) = lookSymbol c (r.after bs) := by unfold look; rw [if_pos hi]
  rw [hl]
  unfold lookSymbol
  rw [if_neg (by simp [Reader.after])]
  rcases bs with _ | ⟨b, bs⟩
  · exact .inl ⟨.inl rfl, by simp [Reader.after]⟩
  · generalize hb : b :: bs = cs at *
    have h1 : 1 ≤ cs.length := by rw [← hb]; simp
    have hc0 : (r.after cs).curLen ≠ 0 := by
      intro h0
      have := congrArg BitVec.toNat h0
      simp [Reader.after] at this
      omega
    rw [if_neg hc0]
    show _ ∨ (∃ s, _ ∧ _ ∧ (match findSymbol (c.forPhase r.phase) (BitVec.ofNat 4 cs.length)
      (BitVec.ofNat 15 (msbValue cs)) with
      | some sym => resolved c (r.after cs) sym
      | none => if beginsCodeword (c.forPhase r.phase) (BitVec.ofNat 4 cs.length) (BitVec.ofNat 15 (msbValue cs)) = true
          then Look.more (r.after cs) else Look.invalid (r.after cs)) = _) ∨ _
    cases hf : findSymbol (c.forPhase r.phase) (BitVec.ofNat 4 cs.length) (BitVec.ofNat 15 (msbValue cs)) with
    | some s =>
      obtain ⟨h2, h3⟩ := (findSymbol_after hT h1 h15 s).1 hf
      exact .inr (.inl ⟨s, h2, h3, rfl⟩)
    | none =>
      by_cases hbg : beginsCodeword (c.forPhase r.phase) (BitVec.ofNat 4 cs.length)
          (BitVec.ofNat 15 (msbValue cs)) = true
      · have h2 := (beginsCodeword_after hT h15).1 hbg
        refine .inl ⟨.inr h2, ?_⟩
        show (match findSymbol (c.forPhase r.phase) (BitVec.ofNat 4 cs.length) (BitVec.ofNat 15 (msbValue cs)) with
          | some sym => _ | none => _) = _
        rw [hf]
        simp [Reader.after, hbg]
      · refine .inr (.inr ⟨by rw [← hb]; simp, ?_, ?_⟩)
        · intro s hs hp
          by_cases he : cs = codewordBits (c.forPhase r.phase) s
          · have := (findSymbol_after hT h1 h15 s).2 ⟨hs, he.symm⟩
            rw [hf] at this
            cases this
          · exact hbg ((beginsCodeword_after hT h15).2 ⟨s, hs, hp, he⟩)
        · show (match findSymbol (c.forPhase r.phase) (BitVec.ofNat 4 cs.length) (BitVec.ofNat 15 (msbValue cs)) with
            | some sym => _ | none => _) = _
          rw [hf]
          simp [Reader.after, hbg]

/-- How a decoding inside a codeword goes on (R206): the bits run out, or complete a codeword, or show that there is none. -/
theorem decode_after {c : Codes} {r : Reader} {read : List Bool} (hi : ∀ bs, (r.after bs).inCodeword = true)
    (hT : (c.forPhase r.phase).ok) (ho : (c.forPhase r.phase).begun read) (bits : List Bool) :
    ((c.forPhase r.phase).begun (read ++ bits) ∧ ∃ q, decode c (r.after read) bits = .short q) ∨
    (∃ s more rest, hasCodeword (c.forPhase r.phase) s = true ∧ codewordBits (c.forPhase r.phase) s = read ++ more ∧
      bits = more ++ rest ∧
      decode c (r.after read) bits = afterLook c (resolved c (r.after (read ++ more)) s) rest) ∨
    (∃ more b rest, (c.forPhase r.phase).begun (read ++ more) ∧ bits = more ++ b :: rest ∧
      (∀ s, hasCodeword (c.forPhase r.phase) s = true →
        ¬ (read ++ more ++ [b]) <+: codewordBits (c.forPhase r.phase) s) ∧
      decode c (r.after read) bits = .invalidHuffmanCode (r.after (read ++ more ++ [b])) rest) := by
  induction bits generalizing read with
  | nil =>
    have h14 := Code.begun_length ho
    rcases look_after (hi read) hT (by omega) with ⟨-, h⟩ | ⟨s, hs, he, -⟩ | ⟨hne, hn, -⟩
    · exact .inl ⟨by simpa using ho, r.after read, by simp [decode, h]⟩
    · exact absurd he (Code.begun_not_codeword hT ho s hs)
    · rcases ho with ho | ⟨s, hs, hp, -⟩
      · exact absurd ho hne
      · exact absurd hp (hn s hs)
  | cons b bs ih =>
    have h14 := Code.begun_length ho
    have hmore : look c (r.after read) = .more (r.after read) := by
      rcases look_after (hi read) hT (by omega) with ⟨-, h⟩ | ⟨s, hs, he, -⟩ | ⟨hne, hn, -⟩
      · exact h
      · exact absurd he (Code.begun_not_codeword hT ho s hs)
      · rcases ho with ho | ⟨s, hs, hp, -⟩
        · exact absurd ho hne
        · exact absurd hp (hn s hs)
    simp only [decode, hmore, pushBit_after (hi read) h14]
    rcases look_after (bs := read ++ [b]) (hi _) hT (by simp; omega) with ⟨ho', -⟩ | ⟨s, hs, he, hl⟩ | ⟨-, hn, hl⟩
    · rcases ih ho' with ⟨h0, h⟩ | ⟨s, more, rest, h1, h2, h3, h4⟩ | ⟨more, b', rest, h1, h2, h3, h4⟩
      · exact .inl ⟨by simpa using h0, h⟩
      · exact .inr (.inl ⟨s, b :: more, rest, h1, by simp [h2], by rw [h3]; rfl, by rw [h4]; simp⟩)
      · exact .inr (.inr ⟨b :: more, b', rest, by simpa using h1, by rw [h2]; rfl, by simpa using h3,
          by rw [h4]; simp⟩)
    · exact .inr (.inl ⟨s, [b], bs, hs, he, rfl, by rw [decode_eq_afterLook, hl]⟩)
    · refine .inr (.inr ⟨[], b, bs, by simpa using ho, rfl, by simpa using hn, ?_⟩)
      rw [decode_eq_afterLook, hl]
      simp [afterLook]

end Sys2Proof
end

