-- ==== Sys2Proof/Laws/Step.lean ====
section
/-! SUPPORT. Everything one step can do, said once. -/

namespace Sys2Proof.Machine

/-! ### Reading stays in the phase's element (R120, R138) -/

/-- What `fetchElement` says of phases. -/
def readInPhase (p : Phase) : Read Instr → Prop
  | .got i s => i.form.1 = beganIn p ∧ beganIn s.phase = beganIn p
  | .wait s => beganIn s.phase = beganIn p
  | .raised e s => beganIn s.phase = beganIn p ∧ e ≠ .none

/-- The element read is one of the phase's, the phase stays inside the element while it is read, and an error is one of
the port's or `InvalidHuffmanCode`. -/
theorem fetchElement_inPhase (n : Nat) (s : State) : readInPhase s.phase (fetchElement n s) := by
  induction n generalizing s with
  | zero => rfl
  | succ n ih =>
    have hl := look_inPhase s.codes s.reader
    rcases fetchElement_succ n s with ⟨i, r, h, hf⟩ | ⟨r, h, hf⟩ | ⟨r, h, hf⟩ <;> rw [h] at hl
    · rw [hf]; exact hl
    · rw [hf]; exact ⟨hl, by simp⟩
    · have hl : beganIn r.phase = beganIn s.phase := hl
      rcases hf with ⟨b, t, hr, hf⟩ | ⟨t, hr, hf⟩ | ⟨e, t, hr, hf⟩ <;> rw [hf]
      · have h2 := ih (consumeBit r b t)
        have h3 : (consumeBit r b t).phase = r.phase := by
          have := congrArg Reader.phase (consumeBit_reader r b t)
          simpa [State.reader] using this
        rw [h3] at h2
        cases hf : fetchElement n (consumeBit r b t) <;> rw [hf] at h2 <;>
          simpa [readInPhase, hl] using h2
      · have h4 := congrArg Reader.phase (readBit_reader (s.setReader r))
        rw [hr] at h4
        exact (congrArg beganIn h4).trans hl
      · obtain ⟨rfl, he⟩ := readBit_raised hr
        exact ⟨hl, by rcases he with rfl | rfl <;> simp⟩

/-! ### The step -/

theorem beginElement_phase (s : State) : (beginElement s).phase = s.phase := by rw [beginElement_frame]

/-- Everything one step can do. -/
theorem step_cases (s : State) :
    (s.rst = true ∧ step s = .next (applyReset s)) ∨
    (s.rst = false ∧ s.outValid = true ∧ step s = .next (sinkCycle s)) ∨
    (s.rst = false ∧ s.outValid = false ∧
      (((s.phase = .done ∨ s.phase = .error) ∧ step s = .next s) ∨
       (s.phase = .copy ∧ step s = copyStep s) ∨
       (readsInput s.phase = true ∧
        ((∃ i t, fetchElement fetchBound (beginElement s) = .got i t ∧ step s = exec i t) ∨
         (∃ t, fetchElement fetchBound (beginElement s) = .wait t ∧ step s = .next t) ∨
         (∃ e t, fetchElement fetchBound (beginElement s) = .raised e t ∧ step s = .next (raise e t)))))) := by
  cases hr : s.rst
  · cases ho : s.outValid
    · refine .inr (.inr ⟨rfl, rfl, ?_⟩)
      cases hp : s.phase
      case done => exact .inl ⟨.inl rfl, by simp [step, hr, ho, hp]⟩
      case error => exact .inl ⟨.inr rfl, by simp [step, hr, ho, hp]⟩
      case copy => exact .inr (.inl ⟨rfl, by simp [step, hr, ho, hp]⟩)
      all_goals
        refine .inr (.inr ⟨rfl, ?_⟩)
        cases hf : fetchElement fetchBound (beginElement s) with
        | got i t => exact .inl ⟨i, t, rfl, by simp [step, hr, ho, hp, hf]⟩
        | wait t => exact .inr (.inl ⟨t, rfl, by simp [step, hr, ho, hp, hf]⟩)
        | raised e t => exact .inr (.inr ⟨e, t, rfl, by simp [step, hr, ho, hp, hf]⟩)
    · exact .inr (.inl ⟨rfl, rfl, by simp [step, hr, ho]⟩)
  · exact .inl ⟨rfl, by simp [step, hr]⟩

/-- A step in a phase that reads is what reading the element answers. -/
theorem step_reads {s : State} (hr : s.rst = false) (ho : s.outValid = false) (hp : readsInput s.phase = true) :
    step s =
      match fetchElement fetchBound (beginElement s) with
      | .got i t => exec i t
      | .wait t => .next t
      | .raised e t => .next (raise e t) := by
  rcases step_cases s with ⟨h, -⟩ | ⟨-, h, -⟩ | ⟨-, -, ⟨h | h, -⟩ | ⟨h, -⟩ | ⟨-, ⟨i, t, hf, h⟩ | ⟨t, hf, h⟩ | ⟨e, t, hf, h⟩⟩⟩
  · simp [hr] at h
  · simp [ho] at h
  · simp [h, readsInput] at hp
  · simp [h, readsInput] at hp
  · simp [h, readsInput] at hp
  all_goals rw [h, hf]

end Sys2Proof.Machine
end

