-- ==== Sys2Proof/Tests/Slice0.lean ====
section
/-! SUPPORT. Tests of the model against words and examples taken from the spec, the well-formedness checks on ill-formed
terms, and for every statement with hypotheses a named witness that meets them. -/

namespace Sys2Proof.Tests

open Sys2Proof Sys2Proof.Machine

/-! ### Words, written out -/

/-- A codeword as the spec prints it: most significant bit first. -/
def cw : Nat → Nat → List Bool
  | 0, _ => []
  | n + 1, v => v.testBit n :: cw n v

/-- A field as the spec numbers it: offset 0 is bit 0. -/
def fld (n v : Nat) : List Bool := (List.range n).map v.testBit

/-- The elements that words decode to, in the format of phase `ph`. -/
def elems (c : Codes) (ph : Phase) (ws : List (List Bool)) : List (Option Instr) :=
  ws.map fun w => (decode c (Reader.start ph) w).instr?

/-- Codes with no codeword. -/
def noCodes : Codes := { ll := [], d := [], cl := [], prevValid := false }

/-! ### WellFormed refuses ill-formed terms -/

theorem test_wf_literal_without_codeword : (Instr.lit 0x41).wellFormed noCodes = false := by decide

theorem test_wf_distance_without_codeword : (Instr.dist4 1).wellFormed noCodes = false := by decide

theorem test_wf_cls_without_codeword : (Instr.clLen 5).wellFormed noCodes = false := by decide

/-- A symbol of length 0 is in the alphabet and has no codeword (R200). -/
theorem test_wf_unused_symbol :
    (Instr.clLen 0).wellFormed { noCodes with cl := [{ len := 0, code := 0 }, { len := 1, code := 0 }] } = false := by
  decide

/-- Symbol 16 has no extra bits to carry a value where there is no previous length (R217). -/
theorem test_wf_repeat_extra_without_previous :
    (Instr.clRepPrev 1).wellFormed { tableCodes with prevValid := false } = false ∧
    (Instr.clRepPrev 0).wellFormed { tableCodes with prevValid := false } = true ∧
    (Instr.clRepPrev 1).wellFormed tableCodes = true := by decide

theorem test_wf_fields_are_always_well_formed : (Instr.stHeader 5 0).wellFormed noCodes = true := by decide

/-! ### One step -/

/-- What is true of the next state, if there is one. -/
def after (s : State) (p : State → Bool) : Bool :=
  match step s with
  | .next t => p t
  | _ => false

theorem exists_next {s : State} {p : State → Bool} (h : after s p = true) : ∃ t, step s = .next t ∧ p t = true := by
  unfold after at h
  cases hs : step s with
  | next t => rw [hs] at h; exact ⟨t, rfl, h⟩
  | fault f => rw [hs] at h; cases h
  | refused r => rw [hs] at h; cases h

/-- A state at the start of an element of phase `ph`, with bytes offered. -/
def at_ (ph : Phase) (bs : List Byte) : State := { State.reset with phase := ph, src := bs.map offer }

/-- V1's first byte, 0x73: a final fixed block (R171, R172). Five bits of the byte are left. -/
theorem test_step_header :
    after (at_ .hdr [0x73]) (fun t => t.phase == .token && t.bfinal && t.btype == 1 && t.inCount == 1 && t.bitcnt == 5) =
      true := by decide

/-- V1 from its header on: the literal 'A' (R360's example), and 5 bits left of byte 0x04. -/
theorem test_step_literal :
    after { at_ .token [0x04] with ll := fixedLl, d := fixedD, bitbuf := 0x0E, bitcnt := 5 } (fun t =>
      t.out == [0x41] && t.wp == 1 && t.hist == 1 && t.outCount == 1 && t.win == [(0, 0x41)] && t.phase == .token &&
        t.bitcnt == 5) = true := by decide +kernel

/-- R176's example: byte 0x06 raises `ReservedBlockType`, code 2, with no output. -/
theorem test_step_reserved :
    after (at_ .hdr [0x06]) (fun t => t.phase == .error && errCode t == 2 && t.out == [] && t.bitcnt == 5) = true := by
  decide

/-- R396's example, bytes 01 00 00 FF FF, after the header: the rest of byte 0x01 is discarded, then DONE. -/
theorem test_step_stored_empty :
    after { at_ .storedHdr [0x00, 0x00, 0xFF, 0xFF] with bfinal := true, bitbuf := 0, bitcnt := 5, inCount := 1 }
      (fun t => t.phase == .done && t.inCount == 5 && t.out == []) = true := by decide

/-- R394's example: LEN = 5 with NLEN = 0xFFFB raises code 5 with no raw byte taken. -/
theorem test_step_stored_mismatch :
    after (at_ .storedHdr [0x05, 0x00, 0xFB, 0xFF, 0x68]) (fun t => t.phase == .error && errCode t == 5 &&
      t.inCount == 4 && t.out == []) = true := by decide

/-- R395: 'h', the first raw byte of "hello". -/
theorem test_step_raw_byte :
    after { at_ .storedCopy [0x68, 0x65] with storedRem := 5 } (fun t =>
      t.phase == .storedCopy && t.storedRem == 4 && t.out == [0x68] && t.inCount == 1) = true := by decide

/-- R211's example: HLIT = 1, HDIST = 0, HCLEN = 14 give 258, 1 and 18. The 14 bits 10000 00000 0111 in two bytes. -/
theorem test_step_dyn_header :
    after (at_ .dynHdr [0x01, 0x38]) (fun t =>
      t.hlit == 258 && t.hdist == 1 && t.hclen == 18 && t.clIdx == 0 && t.phase == .dynCll && t.bitcnt == 2) = true := by
  decide

/-- R212's example: HLIT field 30 under `STRICT_COUNTS` raises; with the default it goes on. -/
theorem test_strict_counts :
    (match execDynHeader 30 0 0 { State.reset with cfg := { strictCounts := true } } with
      | .next t => t.phase == .error && errCode t == 3 | _ => false) = true ∧
    (match execDynHeader 30 0 0 State.reset with | .next t => t.phase == .dynCll | _ => false) = true := by
  decide

/-- R213, R214's example: with `hclen` = 4 and 2, 0, 2 read, the field 1 completes the code-length code. -/
theorem test_cll_example :
    (match execClCodeLength 1 { State.reset with
        phase := .dynCll, hclen := 4, clIdx := 3, clLen := ((List.replicate 19 0).set 16 2).set 18 2 } with
      | .next t => t.phase == .dynLens && t.clLen.getD 0 0 == 1 && t.cl.getD 0 ⟨0, 0⟩ == ⟨1, 0⟩ &&
          t.cl.getD 16 ⟨0, 0⟩ == ⟨2, 2⟩ && t.cl.getD 18 ⟨0, 0⟩ == ⟨2, 3⟩ | _ => false) = true := by decide

/-- R216's and R217's examples: `lens[97]` = 3, then symbol 16 with extra 0 repeats it to `lens[100]`. -/
theorem test_lens_examples :
    (match execClLen 3 { State.reset with phase := .dynLens, lenIdx := 97, hlit := 258, hdist := 1 } with
      | .next t => t.lens.getD 97 0 == 3 && t.lenIdx == 98 &&
          (match execClRepPrev 0 t with
            | .next u => (u.lens.drop 97).take 5 == [3, 3, 3, 3, 0] && u.lenIdx == 101 | _ => false)
      | _ => false) = true := by decide

/-- R218's example, and R220's: `total` = 259, `len_idx` = 250 and 10 entries do not fit. -/
theorem test_repeat_zero_examples :
    (match execClRepZ3 7 { State.reset with phase := .dynLens, hlit := 258, hdist := 1 } with
      | .next t => t.lenIdx == 10 && t.prevValid | _ => false) = true ∧
    (match execClRepZ3 7 { State.reset with phase := .dynLens, lenIdx := 250, hlit := 258, hdist := 1 } with
      | .next t => t.phase == .error && errCode t == 3 && t.lenIdx == 250 | _ => false) = true ∧
    (match execClRepZ11 86 { State.reset with phase := .dynLens, hlit := 258, hdist := 1 } with
      | .next t => t.lenIdx == 97 | _ => false) = true := by decide +kernel

/-- R131, R294: the last length of code 284 is 258 (decision D24), and code 265 with extra 1 gives 12. -/
theorem test_length_ends :
    (match execLen284 31 State.reset with | .next t => t.pendLen == 258 && t.pendSym == 27 | _ => false) = true ∧
    (match execLen265 1 State.reset with | .next t => t.pendLen == 12 && t.phase == .distSym | _ => false) = true := by
  decide

/-- R132: the last distance of code 29 is 32768, within a full window. R361's example: distance 10 after 3 bytes. -/
theorem test_distance_ends :
    (match execDist29 8191 { State.reset with hist := 32768, pendLen := 3 } with
      | .next t => t.pendDist == 32768 && t.phase == .copy && t.copyRem == 3 | _ => false) = true ∧
    (match execDist6 1 { State.reset with hist := 3, pendLen := 3 } with
      | .next t => t.phase == .error && errCode t == 4 && t.out == [] | _ => false) = true := by decide

/-- R81: an idle cycle is a stall that changes nothing but the source. -/
theorem test_stall : after { State.reset with src := [idleCycle] } (fun t => t == State.reset) = true := by
  decide +kernel

/-- R90: with `out_ready` = 0 the byte waits on the port and is not yet in the window. -/
theorem test_output_waits :
    (match execLit 0x41 { State.reset with phase := .token, outReady := false } with
      | .next t => t.outValid && t.outData == 0x41 && t.out == [] && t.win == [] && t.hist == 0 | _ => false) = true := by
  decide

/-- R470: reset in any phase; the byte on `out_data` is withdrawn and the byte offered is not taken. -/
theorem test_reset :
    after { at_ .copy [0x55] with rst := true, outValid := true, hist := 9, err := .none, inCount := 4 } (fun t =>
      t == { State.reset with src := [offer 0x55] }) = true := by decide +kernel

/-- A word of the opcode table runs as the first instruction after reset. -/
theorem test_with_fetch_word :
    after (State.reset.withFetchWord 8 2) (fun t => t.phase == .token && t.btype == 1) = true ∧
    after (State.reset.withFetchWord 16 0x41) (fun t => t.out == [0x41]) = true := by decide +kernel
/-! ### Witnesses: states and operands that meet the hypotheses of the statements -/

/-- R362's example: "AB" has been output, and `Reference(4, 2)` is about to be copied. -/
def copying (rem : BitVec 9) : State :=
  { State.reset with
    phase := .copy, copyRem := rem, pendLen := 4, pendDist := 2, win := [(0, 0x41), (1, 0x42)], wp := 2, hist := 2
    outCount := 2, out := [0x41, 0x42] }

/-- A code without codewords is prefix-free. -/
theorem unused_ok (n : Nat) : Code.ok (List.replicate n { len := 0, code := 0 }) where
  fits w hw := by rw [List.eq_of_mem_replicate hw]; decide
  prefixFree s t hs := by
    unfold hasCodeword at hs
    cases h : (List.replicate n ({ len := 0, code := 0 } : Codeword))[s]? with
    | none => rw [h] at hs; cases hs
    | some w => rw [h, List.eq_of_mem_replicate (List.mem_of_getElem? h)] at hs; cases hs

/-- Before the first byte of the copy, and before its last (any count from 1 to 258). -/
theorem copying_inv (rem : BitVec 9) (h : 1 ≤ rem.toNat ∧ rem.toNat ≤ 258) : Inv (copying rem) where
  winWf := by change Memory.wf [(0, 0x41), (1, 0x42)] = true; decide
  histEq := by change (2 : BitVec 16).toNat = min 2 32768; decide
  wpEq := by change (2 : BitVec 15).toNat = 2 % 32768; decide
  outCountEq := by change (2 : BitVec 32).toNat = 2 % 2 ^ 32; decide
  window dist h1 h2 := by
    change dist ≤ 2 at h2
    change Memory.read [(0, 0x41), (1, 0x42)] ((2 + 32768 - dist) % 32768) = ([0x41, 0x42] : List Byte)[2 - dist]?
    have : dist = 1 ∨ dist = 2 := by omega
    rcases this with rfl | rfl <;> decide
  errIff := by change ErrCode.none = .none ↔ Phase.copy ≠ .error; decide
  sizes := by
    refine ⟨?_, ?_, ?_, ?_, ?_, ?_, ?_⟩ <;> exact List.length_replicate
  codesOk := ⟨unused_ok _, unused_ok _, unused_ok _⟩
  buffer := by change (0 : BitVec 4).toNat ≤ 8 ∧ (0 : BitVec 8).toNat < 2 ^ (0 : BitVec 4).toNat; decide
  offered := by intro h; cases h
  copying _ := ⟨h.1, h.2, by change 1 ≤ (2 : BitVec 16).toNat; decide, by change (2 : BitVec 16).toNat ≤ 2; decide⟩
  storing := by intro h; cases h
  lengthHeld := by intro h; rcases h with h | h <;> cases h
  clls := by intro h; cases h
  counts := by intro h; rcases h with h | h <;> cases h
  lensLeft := by intro h; cases h
  reading := by intro h; cases h
  codewordOnly _ := rfl
  betweenElements _ := ⟨rfl, rfl⟩

/-- The invariant does not speak of the sink's pin. -/
theorem inv_setsReady {s : State} (h : Inv s) (r : Bool) : Inv (hostSetsReady r s) := by
  cases h
  constructor <;> assumption

/-- One raw byte of a stored block is left, and the source offers it. -/
def storing : State := { State.reset with phase := .storedCopy, storedRem := 1, src := [offer 5] }

theorem storing_inv : Inv storing where
  winWf := by change Memory.wf [] = true; decide
  histEq := by change (0 : BitVec 16).toNat = min 0 32768; decide
  wpEq := by change (0 : BitVec 15).toNat = 0 % 32768; decide
  outCountEq := by change (0 : BitVec 32).toNat = 0 % 2 ^ 32; decide
  window dist h1 h2 := by
    change dist ≤ 0 at h2
    omega
  errIff := by change ErrCode.none = .none ↔ Phase.storedCopy ≠ .error; decide
  sizes := by
    refine ⟨?_, ?_, ?_, ?_, ?_, ?_, ?_⟩ <;> exact List.length_replicate
  codesOk := ⟨unused_ok _, unused_ok _, unused_ok _⟩
  buffer := by change (0 : BitVec 4).toNat ≤ 8 ∧ (0 : BitVec 8).toNat < 2 ^ (0 : BitVec 4).toNat; decide
  offered := by intro h; cases h
  copying := by intro h; cases h
  storing _ := by change 1 ≤ (1 : BitVec 16).toNat; decide
  lengthHeld := by intro h; rcases h with h | h <;> cases h
  clls := by intro h; cases h
  counts := by intro h; rcases h with h | h <;> cases h
  lensLeft := by intro h; cases h
  reading _ := ⟨Reader.start .storedCopy, rfl⟩
  codewordOnly _ := rfl
  betweenElements _ := ⟨rfl, rfl⟩

theorem witness_ResetCycleSetsTheStatedValues : (hostResets (copying 4)).rst = true := rfl

/-- One state for each of DONE and ERROR. -/
theorem witness_DoneAndErrorAreIdle :
    (∃ s : State, s.rst = false ∧ s.outValid = false ∧ s.phase = .done) ∧
    (∃ s : State, s.rst = false ∧ s.outValid = false ∧ s.phase = .error) :=
  ⟨⟨at_ .done [1], by decide⟩, ⟨at_ .error [1], by decide⟩⟩

theorem witness_RaiseRecordsTheErrorAndFreezesTheEngine : (copying 4).rst = false ∧ (copying 4).outValid = false :=
  ⟨rfl, rfl⟩

theorem witness_EveryStepKeepsTheInvariant : ∃ s t, Inv s ∧ step s = .next t := by
  obtain ⟨t, ht, -⟩ := exists_next (s := copying 4) (p := fun t => t.out.length == 3) (by decide)
  exact ⟨_, t, copying_inv 4 (by decide), ht⟩

theorem witness_NoStepFaultsUnderTheInvariant : ∃ s, Inv s := ⟨_, copying_inv 258 (by decide)⟩

theorem witness_CopyBeyondTheHistoryFaults :
    ∃ s : State, s.rst = false ∧ s.outValid = false ∧ s.phase = .copy ∧ s.copyRem ≠ 0 ∧ s.hist.toNat < s.pendDist.toNat :=
  ⟨{ copying 1 with pendDist := 3 }, by decide⟩

/-- One cycle for each case of the priority; in the first three all later signals are high too. -/
theorem witness_InputSignalsHaveAPriority :
    [(⟨true, 5, true, true⟩ : InSample), ⟨true, 5, true, false⟩, ⟨false, 5, true, false⟩, ⟨false, 5, false, false⟩].map
      (fun p => match fetchByte { State.reset with src := [p] } with
        | .raised e _ => errNumber e | .got _ t => if t.bitbuf == 5 then 100 else 101 | .wait _ => 0) =
      [7, 100, 1, 0] := by decide

/-- A state for each clause: bits held (one, the least), a byte to take, a stall, and an error. -/
theorem witness_ReadBitConsumesTheLowestBit :
    (∃ s : State, s.bitcnt ≠ 0) ∧ (∃ s t, s.bitcnt = 0 ∧ fetchByte s = .got () t) ∧
    (∃ s t, s.bitcnt = 0 ∧ fetchByte s = .wait t) ∧ (∃ s e t, s.bitcnt = 0 ∧ fetchByte s = .raised e t) :=
  ⟨⟨{ State.reset with bitcnt := 1 }, by decide⟩, ⟨at_ .hdr [1], _, rfl, rfl⟩, ⟨State.reset, _, rfl, rfl⟩,
    ⟨hostEnds State.reset, _, _, rfl, rfl⟩⟩

/-- A byte to come; a stored header before its first bit, inside it, and another element. -/
theorem witness_AlignmentOpensTheNextByte :
    (∃ (s : State) (p : InSample) (rest : List InSample), s.src = p :: rest ∧ p.inValid = true ∧ p.inErr = false) ∧
    (∃ s : State, s.phase = .storedHdr ∧ s.fld = []) ∧ (∃ s : State, s.phase = .storedHdr ∧ s.fld ≠ []) ∧
    (∃ s : State, s.phase ≠ .storedHdr) :=
  ⟨⟨at_ .storedHdr [5], offer 5, [], rfl, rfl, rfl⟩, ⟨at_ .storedHdr [5], rfl, rfl⟩,
    ⟨{ at_ .storedHdr [5] with fld := [true] }, rfl, by decide⟩, ⟨at_ .hdr [5], by decide⟩⟩

theorem witness_ByteIsTakenOnlyToConsumeABit :
    ∃ s t, s.rst = false ∧ step s = .next t ∧ (t.inCount != s.inCount) = true := by
  obtain ⟨t, ht, hp⟩ := exists_next (s := at_ .hdr [0x73]) (p := fun t => t.inCount != (at_ .hdr [0x73]).inCount)
    (by decide)
  exact ⟨_, t, rfl, ht, hp⟩

/-- The input has ended; and a byte is offered where one is needed. -/
theorem witness_NoByteIsTakenWhileNotReady :
    (∃ s t, s.rst = false ∧ needsByte s = true ∧ inReady s = false ∧ step s = .next t) ∧
    (∃ s, Inv s ∧ inReady s = true) := by
  obtain ⟨t, ht, -⟩ := exists_next (s := hostEnds State.reset) (p := fun t => t.phase == .error) (by decide)
  exact ⟨⟨_, t, rfl, rfl, rfl, ht⟩, storing, storing_inv, rfl⟩

theorem witness_BitPositionNeverFalls : ∃ s t, s.rst = false ∧ step s = .next t := by
  obtain ⟨t, ht, -⟩ := exists_next (s := at_ .hdr [0x73]) (p := fun t => t.bitcnt == 5) (by decide)
  exact ⟨_, t, rfl, ht⟩

/-- The largest value of three bits, and the only value of none. -/
theorem witness_FieldsAreReadLeastSignificantFirst : 7 < 2 ^ 3 ∧ 0 < 2 ^ 0 := by decide

theorem witness_StepRunsTheDecodedElement :
    let s := at_ .hdr [0x73]
    s.rst = false ∧ s.outValid = false ∧ readsInput s.phase = true ∧
      decode (beginElement s).codes (beginElement s).reader (upcoming (beginElement s)) =
        .instr (.bhFixed true) (Reader.start .hdr) [false, true, true, true, false] := by decide

/-- Two bits of a header are there and the third is not; then a stall for good, the end, an I/O error, an idle cycle. -/
theorem witness_StepWithoutInputStallsOrRaises :
    ∀ l ∈ [[], [endCycle], [errCycle], [idleCycle]],
      let s : State := { State.reset with bitbuf := 3, bitcnt := 2, src := l }
      s.rst = false ∧ s.outValid = false ∧ readsInput s.phase = true ∧
        decode (beginElement s).codes (beginElement s).reader (upcoming (beginElement s)) =
          .short { Reader.start .hdr with fld := [true, true] } := by decide

theorem witness_ThirtyTwoBitsSettleAnElement : 32 ≤ (List.replicate 32 false).length := by decide

/-- The wait in the middle of an element, after it, and before a step that reads nothing. -/
theorem witness_StallsDoNotChangeTheResult :
    (at_ .storedCopy [1, 2]).src = [] ++ [offer 1, offer 2] ∧ (at_ .storedCopy [1, 2]).src = [offer 1] ++ [offer 2] ∧
    (copying 4).src = [] ++ [] ∧ (at_ .storedCopy [1, 2]).rst = false ∧ (copying 4).rst = false := by decide

/-- The two-symbol code is prefix-free. -/
theorem two_symbols_ok : Code.ok [{ len := 1, code := 0 }, { len := 1, code := 1 }] where
  fits := by unfold Code.fits; decide
  prefixFree s t hs ht hp := by
    have hlt : ∀ s, hasCodeword [{ len := 1, code := 0 }, { len := 1, code := 1 }] s = true → s < 2 := by
      intro s hs
      match s, hs with
      | 0, _ => decide
      | 1, _ => decide
    have h1 := hlt s hs
    have h2 := hlt t ht
    interval_cases s <;> interval_cases t <;> first | rfl | (exact absurd hp (by decide))

/-- Codes with two literals, 0 and 1, and the code of one used distance that R204 allows: symbol 0 with codeword 0. -/
def smallCodes : Codes where
  ll := [{ len := 1, code := 0 }, { len := 1, code := 1 }]
  d := { len := 1, code := 0 } :: List.replicate 31 { len := 0, code := 0 }
  cl := List.replicate 19 { len := 0, code := 0 }
  prevValid := false

theorem one_symbol_ok : smallCodes.d.ok where
  fits := by unfold Code.fits; decide
  prefixFree s t hs ht _ := by
    have key : ∀ s, hasCodeword smallCodes.d s = true → s = 0 := by
      intro s hs
      by_cases h : s < 32
      · have : ∀ k < 32, hasCodeword smallCodes.d k = true → k = 0 := by decide
        exact this s h hs
      · have hn : smallCodes.d[s]? = none := List.getElem?_eq_none (by change 32 ≤ s; omega)
        simp [hasCodeword, hn] at hs
    rw [key s hs, key t ht]

/-- A literal to encode, and bits that decode to it. -/
theorem witness_EncodedElementsDecodeBack :
    smallCodes.ll.ok ∧ smallCodes.d.ok ∧ smallCodes.cl.ok ∧ (Instr.lit 1).wellFormed smallCodes = true ∧
      beganIn .token = .token ∧
      decode smallCodes (Reader.start .token) [true, false] =
        .instr (.lit 1) { Reader.start .token with curCode := 1, curLen := 1 } [false] :=
  ⟨two_symbols_ok, one_symbol_ok, unused_ok _, by decide, rfl, by decide⟩

/-- An empty code rejects its first bit (R206); and codes for the decoder's clauses. -/
theorem witness_StepRaisesOnABadCodeword :
    (let s := at_ .distSym [0x01]
    s.rst = false ∧ s.outValid = false ∧ readsInput s.phase = true ∧
      decode (beginElement s).codes (beginElement s).reader (upcoming (beginElement s)) =
        .invalidHuffmanCode { Reader.start .distSym with part := .code, curCode := 1, curLen := 1 }
          [false, false, false, false, false, false, false]) ∧
    smallCodes.ll.ok ∧ smallCodes.d.ok ∧ smallCodes.cl.ok ∧
    smallCodes.ll.length ≤ 288 ∧ smallCodes.d.length ≤ 32 ∧ smallCodes.cl.length ≤ 19 :=
  ⟨by decide, two_symbols_ok, one_symbol_ok, unused_ok _, by decide, by decide, by decide⟩

/-- R206: a code with no codeword rejects its first bit, a one-symbol code with codeword 0 a first bit of 1, and not a
first bit of 0. -/
theorem test_rejected_codewords :
    decode smallCodes (Reader.start .dynLens) [false, true] =
      .invalidHuffmanCode { Reader.start .dynLens with part := .code, curLen := 1 } [true] ∧
    decode smallCodes (Reader.start .distSym) [true, true] =
      .invalidHuffmanCode { Reader.start .distSym with part := .code, curCode := 1, curLen := 1 } [true] ∧
    (decode smallCodes (Reader.start .distSym) [false, true]).instr? = some .dist0 := by decide

/-- A complete code, just not over-subscribed, and one symbol more. -/
theorem witness_BuildRejectsExactlyOverSubscribedLengths :
    (∀ l ∈ ([1, 1] : List (BitVec 4)), l.toNat ≤ 1) ∧ (build 1 [1, 1]).isSome = true ∧
    (∀ l ∈ ([1, 1, 1] : List (BitVec 4)), l.toNat ≤ 1) ∧ build 1 [1, 1, 1] = none := by decide

/-- The source's example lengths (V7), a complete code. -/
theorem witness_BuiltCodesArePrefixFree :
    (∀ l ∈ ([3, 3, 3, 3, 3, 2, 4, 4] : List (BitVec 4)), l.toNat ≤ 15) ∧
    (build 15 [3, 3, 3, 3, 3, 2, 4, 4]).isSome = true := by decide

/-- Symbols 0 and 2 of one length, with a symbol of another, shorter, between them. -/
theorem witness_CodewordsOfOneLengthAreConsecutive :
    ∃ T, build 15 [2, 1, 2] = some T ∧ T[0]? = some { len := 2, code := 2 } ∧ T[2]? = some { len := 2, code := 3 } ∧
      T[1]? = some { len := 1, code := 0 } :=
  ⟨[{ len := 2, code := 2 }, { len := 1, code := 0 }, { len := 2, code := 3 }], by decide⟩

/-- The ends of R133's ranges. -/
theorem witness_FixedCodewordsAreAsTabulated :
    [codewordBits fixedLl 143, codewordBits fixedLl 144, codewordBits fixedLl 255, codewordBits fixedLl 256,
        codewordBits fixedLl 279, codewordBits fixedLl 280, codewordBits fixedLl 287, codewordBits fixedD 31] =
      [cw 8 0b10111111, cw 9 0b110010000, cw 9 0b111111111, cw 7 0, cw 7 0b0010111, cw 8 0b11000000, cw 8 0b11000111,
        cw 5 0b11111] := by decide +kernel

/-- Either side of both bounds, under `STRICT_COUNTS` (R212): the fields 29 and 30 for HLIT and HDIST. -/
theorem witness_DynamicHeaderSetsTheCounts :
    [execDynHeader 29 29 0 { State.reset with cfg := { strictCounts := true } },
        execDynHeader 30 0 0 { State.reset with cfg := { strictCounts := true } },
        execDynHeader 0 30 0 { State.reset with cfg := { strictCounts := true } },
        execDynHeader 31 31 15 State.reset].map
      (fun o => match o with | .next t => t.phase | _ => .hdr) = [.dynCll, .error, .error, .dynCll] := by decide

/-- The start of the loop, and the last field but one of the longest loop. -/
theorem witness_CodeLengthFieldsFillTheirSymbols :
    (∃ s : State, s.phase = .dynCll ∧ s.fld = [] ∧ s.clIdx = 0) ∧
    (∃ s : State, s.clIdx.toNat + 1 < s.hclen.toNat ∧ s.hclen.toNat ≤ 19 ∧ s.clIdx = 17) :=
  ⟨⟨at_ .dynCll [], by decide⟩, ⟨{ at_ .dynCll [] with clIdx := 17, hclen := 19 }, by decide⟩⟩

/-- The shortest and the longest loop's last field; a built code and an over-subscribed one. -/
theorem witness_LastCodeLengthFieldBuildsTheCode :
    (∃ s : State, s.clIdx.toNat + 1 = s.hclen.toNat ∧ s.hclen.toNat ≤ 19 ∧
      (build 7 ((s.clLen.set 0 1).map fun l => l.setWidth 4)).isSome = true) ∧
    (∃ s : State, s.clIdx.toNat + 1 = s.hclen.toNat ∧ s.hclen.toNat ≤ 19 ∧
      build 7 ((s.clLen.set 15 1).map fun l => l.setWidth 4) = none) :=
  ⟨⟨{ at_ .dynCll [] with clIdx := 3, hclen := 4 }, by decide⟩,
    ⟨{ at_ .dynCll [] with clIdx := 18, hclen := 19, clLen := List.replicate 19 1 }, by decide⟩⟩

/-- The last entry but one, and the last, of the longest sequence. -/
theorem witness_CodeLengthSymbolWritesOneEntry :
    ∀ k ∈ [318, 319], ∃ s : State, s.hlit.toNat + s.hdist.toNat ≤ 320 ∧ s.lenIdx.toNat = k ∧
      (if k = 318 then s.lenIdx.toNat + 1 < s.hlit.toNat + s.hdist.toNat
        else s.lenIdx.toNat + 1 = s.hlit.toNat + s.hdist.toNat) := by
  intro k hk
  refine ⟨{ State.reset with hlit := 288, hdist := 32, lenIdx := BitVec.ofNat 9 k }, ?_⟩
  revert k
  decide

/-- No previous length; six entries that are one too many; six that fit exactly; six that leave one missing. -/
theorem witness_RepeatOfThePreviousLength :
    ∀ k ∈ [252, 253, 254], ∀ v : Bool,
      let s : State := { State.reset with hlit := 258, hdist := 1, lenIdx := BitVec.ofNat 9 k, prevValid := v }
      s.lens.length = 320 ∧ s.hlit.toNat + s.hdist.toNat ≤ 320 ∧ s.prevValid = v ∧ s.lenIdx.toNat = k ∧
        s.hlit.toNat + s.hdist.toNat = 253 + (3 + (3 : BitVec 2).toNat) := by decide +kernel

/-- Symbol 17 with its longest run and symbol 18 with its longest: one too many, and an exact fit. -/
theorem witness_RepeatsOfLengthZero :
    ∀ k ∈ [249, 250, 121, 122],
      let s : State := { State.reset with hlit := 258, hdist := 1, lenIdx := BitVec.ofNat 9 k }
      s.lens.length = 320 ∧ s.hlit.toNat + s.hdist.toNat ≤ 320 ∧ s.lenIdx.toNat = k ∧
        s.hlit.toNat + s.hdist.toNat = 249 + (3 + (7 : BitVec 3).toNat) ∧
        s.hlit.toNat + s.hdist.toNat = 121 + (11 + (127 : BitVec 7).toNat) := by decide +kernel

/-- A byte offered in each of the phases told apart, the last byte of its loop and not, with the sink ready and not. -/
theorem witness_OfferedByteIsTakenOrWaits :
    ∀ r : Bool, ∀ ph ∈ [Phase.copy, .storedCopy, .token], ∀ n ∈ [1, 2],
      ∃ s : State, s.rst = false ∧ s.outValid = true ∧ s.outReady = r ∧ s.phase = ph ∧
        s.copyRem = BitVec.ofNat 9 n ∧ s.storedRem = BitVec.ofNat 16 n := by
  intro r ph _ n _
  exact ⟨{ State.reset with
    outValid := true, outReady := r, phase := ph, copyRem := BitVec.ofNat 9 n, storedRem := BitVec.ofNat 16 n },
    rfl, rfl, rfl, rfl, rfl, rfl⟩

/-- The sink ready and not: the two clauses of LiteralIsEmitted and of RawByteIsCopied. -/
theorem witness_LiteralIsEmitted : State.reset.outReady = true ∧ (hostSetsReady false State.reset).outReady = false :=
  ⟨rfl, rfl⟩

theorem witness_RawByteIsCopied :
    (at_ .storedCopy [1]).outReady = true ∧ (hostSetsReady false (at_ .storedCopy [1])).outReady = false := ⟨rfl, rfl⟩

theorem witness_EndOfBlockEndsTheBlock :
    ({ State.reset with bfinal := true } : State).bfinal = true ∧ State.reset.bfinal = false := ⟨rfl, rfl⟩

/-- Either side of the reference check: a distance equal to the history, and one more (also for every DISTANCE code). -/
theorem witness_ReferenceIsCheckedBeforeItIsCopied :
    ({ copying 4 with pendDist := 2 } : State).pendDist.toNat ≤ (copying 4).hist.toNat ∧
    (copying 4).hist.toNat < ({ copying 4 with pendDist := 3 } : State).pendDist.toNat := by decide

/-- The largest history with the largest distance, and one byte less. -/
theorem witness_DistanceCodes20To29 :
    24577 + (8191 : BitVec 13).toNat ≤ ({ State.reset with hist := 32768 } : State).hist.toNat ∧
    ({ State.reset with hist := 32767 } : State).hist.toNat < 24577 + (8191 : BitVec 13).toNat := by decide

theorem witness_DistanceCodes0To9 :
    1 ≤ ({ State.reset with hist := 1 } : State).hist.toNat ∧ State.reset.hist.toNat < 1 := by decide

theorem witness_DistanceCodes10To19 :
    33 + (0 : BitVec 4).toNat ≤ ({ State.reset with hist := 33 } : State).hist.toNat ∧
    ({ State.reset with hist := 32 } : State).hist.toNat < 33 + (0 : BitVec 4).toNat := by decide

theorem witness_UndefinedSymbolsRaise :
    ∀ i ∈ [Instr.llRsv286, .llRsv287, .dRsv30, .dRsv31], exec i State.reset = .next (raise .invalidHuffmanCode State.reset) := by
  intro i hi
  simp only [List.mem_cons, List.not_mem_nil, or_false] at hi
  rcases hi with rfl | rfl | rfl | rfl <;> rfl

/-- LEN = 0xFFFF with NLEN = 0, LEN = 0 with NLEN = 0xFFFF, and LEN = NLEN. -/
theorem witness_StoredHeaderChecksItsLengths :
    ((0 : BitVec 16) = ~~~(0xFFFF) ∧ (0xFFFF : BitVec 16) ≠ 0) ∧ (0xFFFF : BitVec 16) = ~~~0 ∧
    (5 : BitVec 16) ≠ ~~~5 := by decide

/-- The last entry of the window. -/
theorem witness_WindowWritesAreReadBack : Memory.wf (copying 4).win = true ∧ 32767 < 32768 := by decide

theorem witness_EmittingElementsWriteOneWindowEntry :
    ∃ i b s t, (i = .lit b ∨ i = .stData b) ∧ Memory.wf s.win = true ∧ exec i s = .next t :=
  ⟨.lit 1, 1, copying 4, _, .inl rfl, by decide, rfl⟩

theorem witness_OtherElementsKeepWindowAndPorts : (∀ b, Instr.eob ≠ .lit b) ∧ (∀ b, Instr.eob ≠ .stData b) := by
  constructor <;> intro b h <;> cases h

/-- The first byte of the example's copy, and its last, with the sink ready and not. -/
theorem witness_CopyEmitsTheByteBehind :
    ∀ rem ∈ [1, 4], ∀ r : Bool, let s := hostSetsReady r (copying rem)
      Inv s ∧ s.rst = false ∧ s.outValid = false ∧ s.phase = .copy ∧ s.outReady = r := by
  intro rem h r
  refine ⟨inv_setsReady (copying_inv rem ?_) r, rfl, rfl, rfl, rfl⟩
  revert rem
  decide

/-- The example overlaps itself: 4 bytes from 2 behind. -/
theorem witness_CopyIsThePeriodicRepetition :
    Inv (copying 4) ∧ (copying 4).rst = false ∧ (copying 4).outValid = false ∧ (copying 4).phase = .copy ∧
      (copying 4).outReady = true := ⟨copying_inv 4 (by decide), rfl, rfl, rfl, rfl⟩

/-- A step that emits a byte. -/
theorem witness_OutputIsAppendOnly : ∃ s t, s.rst = false ∧ step s = .next t ∧ (t.out != s.out) = true := by
  obtain ⟨t, ht, hp⟩ := exists_next (s := copying 4) (p := fun t => t.out != (copying 4).out) (by decide)
  exact ⟨_, t, rfl, ht, hp⟩

theorem witness_FailingStepEmitsNothing :
    ∃ s t, s.rst = false ∧ s.phase ≠ .error ∧ step s = .next t ∧ (t.phase == .error) = true := by
  obtain ⟨t, ht, hp⟩ := exists_next (s := hostEnds (at_ .token [])) (p := fun t => t.phase == .error) (by decide)
  exact ⟨_, t, rfl, by decide, ht, hp⟩

theorem witness_PhasesMoveOnlyAlongTheTable : ∃ s t, s.rst = false ∧ step s = .next t ∧ (t.phase != s.phase) = true := by
  obtain ⟨t, ht, hp⟩ := exists_next (s := copying 1) (p := fun t => t.phase != (copying 1).phase) (by decide)
  exact ⟨_, t, rfl, ht, hp⟩

/-- Each way to stand still. -/
theorem witness_StepsStandStillOnlyWhileWaiting :
    [at_ .done [1], at_ .error [1], State.reset, { copying 4 with outValid := true, outReady := false }].all
      (fun s => after s (fun t => t == s)) = true := by decide +kernel

theorem witness_DoneOnlyAfterTheFinalBlock :
    ∃ s t, s.rst = false ∧ step s = .next t ∧ (t.phase == .done) = true ∧ s.phase ≠ .done := by
  obtain ⟨t, ht, hp⟩ := exists_next (s := { at_ .storedHdr [0, 0, 0xFF, 0xFF] with bfinal := true })
    (p := fun t => t.phase == .done) (by decide)
  exact ⟨_, t, rfl, ht, hp, by decide⟩

theorem witness_WindowCarriesOver :
    ∃ s t, Memory.wf s.win = true ∧ s.rst = false ∧ step s = .next t ∧ s.hist.toNat ≤ 32768 := by
  obtain ⟨t, ht, -⟩ := exists_next (s := copying 4) (p := fun t => t.hist == 3) (by decide)
  exact ⟨_, t, by decide, rfl, ht, by decide⟩

theorem witness_HostSideIsOnlyRead : ∃ s t, step s = .next t := by
  obtain ⟨t, ht, -⟩ := exists_next (s := at_ .hdr [0x73]) (p := fun t => t.src == []) (by decide)
  exact ⟨_, t, ht⟩

/-! ### Decoding: every constructor, from the spec's encoding of it -/

/-- BH (R122): offset 0 is BFINAL, offsets 1 and 2 are BTYPE, first one least significant. Bytes 0x01, 0x03, 0x05, 0x07
and 0x06 are the examples of R173 to R176. -/
theorem test_decode_bh :
    elems noCodes .hdr [fld 3 0x01, fld 3 0x03, fld 3 0x05, fld 3 0x07, fld 3 0x06, fld 3 0x00] =
      [some (.bhStored true), some (.bhFixed true), some (.bhDynamic true), some (.bhReserved true),
        some (.bhReserved false), some (.bhStored false)] := by decide

/-- DH (R125): 5 bits, 5 bits, 4 bits; CLL: 3 bits. The fields of R211's example, and the largest. -/
theorem test_decode_dh_cll :
    elems noCodes .dynHdr [fld 5 1 ++ fld 5 0 ++ fld 4 14, fld 5 31 ++ fld 5 31 ++ fld 4 15] =
      [some (.dynHeader 1 0 14), some (.dynHeader 31 31 15)] ∧
    elems noCodes .dynCll [[true, true, false], [false, false, true]] =
      [some (.clCodeLength 3), some (.clCodeLength 4)] := by decide

/-- The code-length code of R214's example: 0 is symbol 0, 10 is symbol 16, 11 is symbol 18. -/
def exampleCl : Code :=
  (build 7 (([16, 17, 18, 0].zip [2, 0, 2, 1]).foldl
    (fun (L : List (BitVec 4)) (p : Nat × BitVec 4) => L.set p.1 p.2) (List.replicate 19 0))).getD []

/-- CLS (R126) under R214's code. Extra bits are least significant first. -/
theorem test_decode_cls :
    elems { noCodes with cl := exampleCl, prevValid := true } .dynLens
      [cw 1 0b0, cw 2 0b10 ++ [true, false], cw 2 0b11 ++ fld 7 86] =
      [some (.clLen 0), some (.clRepPrev 1), some (.clRepZ11 86)] := by decide

/-- With codeword 0 for symbol 15 and 1 for symbol 17. -/
theorem test_decode_cls_17 :
    elems { noCodes with cl := (build 7 ((List.replicate 15 0) ++ [1, 0, 1, 0])).getD [] } .dynLens
      [cw 1 0, cw 1 1 ++ [true, true, true]] = [some (.clLen 15), some (.clRepZ3 7)] := by decide

/-- R217, decision D15: with no previous length, symbol 16's extra bits are not read. -/
theorem test_decode_cls_16_first :
    decode { noCodes with cl := exampleCl } (Reader.start .dynLens) [true, false, true, true] =
      .instr (.clRepPrev 0) { Reader.start .dynLens with curCode := 2, curLen := 2 } [true, true] := by decide

/-- TK, literals and end of block (R133, R206's example): fixed codewords of 8, 9 and 7 bits. -/
theorem test_decode_literals :
    elems tableCodes .token
      [cw 8 0b01110001, cw 8 0b00110000, cw 8 0b10111111, cw 9 0b110010000, cw 9 0b111111111, cw 7 0] =
      [some (.lit 0x41), some (.lit 0), some (.lit 143), some (.lit 144), some (.lit 255), some .eob] := by
  decide +kernel

/-- TK, length codes: the codewords of R131's table, then the extra bits. -/
theorem test_decode_lengths_257_to_270 :
    elems tableCodes .token
      [cw 7 0b0000001, cw 7 0b0000010, cw 7 0b0000011, cw 7 0b0000100, cw 7 0b0000101, cw 7 0b0000110, cw 7
        0b0000111, cw 7 0b0001000, cw 7 0b0001001 ++ fld 1 1, cw 7 0b0001010 ++ fld 1 1, cw 7 0b0001011 ++
        fld 1 1, cw 7 0b0001100 ++ fld 1 1, cw 7 0b0001101 ++ fld 2 1, cw 7 0b0001110 ++ fld 2 3] =
      [some .len257, some .len258, some .len259, some .len260, some .len261, some .len262, some .len263,
        some .len264, some (.len265 1), some (.len266 1), some (.len267 1), some (.len268 1), some (.len269
        1), some (.len270 3)] := by
  decide +kernel

/-- TK, length codes, the rest of R131's table. -/
theorem test_decode_lengths_271_to_285 :
    elems tableCodes .token
      [cw 7 0b0001111 ++ fld 2 1, cw 7 0b0010000 ++ fld 2 3, cw 7 0b0010001 ++ fld 3 1, cw 7 0b0010010 ++
        fld 3 7, cw 7 0b0010011 ++ fld 3 1, cw 7 0b0010100 ++ fld 3 7, cw 7 0b0010101 ++ fld 4 1, cw 7
        0b0010110 ++ fld 4 15, cw 7 0b0010111 ++ fld 4 1, cw 8 0b11000000 ++ fld 4 15, cw 8 0b11000001 ++
        fld 5 1, cw 8 0b11000010 ++ fld 5 31, cw 8 0b11000011 ++ fld 5 1, cw 8 0b11000100 ++ fld 5 31, cw 8
        0b11000101] =
      [some (.len271 1), some (.len272 3), some (.len273 1), some (.len274 7), some (.len275 1), some
        (.len276 7), some (.len277 1), some (.len278 15), some (.len279 1), some (.len280 15), some (.len281
        1), some (.len282 31), some (.len283 1), some (.len284 31), some .len285] := by
  decide +kernel

/-- TK, the undefined symbols: 0xC0 + (s - 280) in 8 bits (R133). -/
theorem test_decode_undefined_lit_len :
    elems tableCodes .token [cw 8 0b11000110, cw 8 0b11000111] = [some .llRsv286, some .llRsv287] := by
  decide +kernel

/-- DSYM: the codewords of R132's table, then the extra bits. -/
theorem test_decode_distances_0_to_14 :
    elems tableCodes .distSym
      [cw 5 0b00000, cw 5 0b00001, cw 5 0b00010, cw 5 0b00011, cw 5 0b00100 ++ fld 1 1, cw 5 0b00101 ++ fld
        1 1, cw 5 0b00110 ++ fld 2 1, cw 5 0b00111 ++ fld 2 3, cw 5 0b01000 ++ fld 3 1, cw 5 0b01001 ++ fld
        3 7, cw 5 0b01010 ++ fld 4 1, cw 5 0b01011 ++ fld 4 15, cw 5 0b01100 ++ fld 5 1, cw 5 0b01101 ++ fld
        5 31, cw 5 0b01110 ++ fld 6 1] =
      [some .dist0, some .dist1, some .dist2, some .dist3, some (.dist4 1), some (.dist5 1), some (.dist6
        1), some (.dist7 3), some (.dist8 1), some (.dist9 7), some (.dist10 1), some (.dist11 15), some
        (.dist12 1), some (.dist13 31), some (.dist14 1)] := by
  decide

/-- DSYM, the rest of R132's table. -/
theorem test_decode_distances_15_to_29 :
    elems tableCodes .distSym
      [cw 5 0b01111 ++ fld 6 63, cw 5 0b10000 ++ fld 7 1, cw 5 0b10001 ++ fld 7 127, cw 5 0b10010 ++ fld 8
        1, cw 5 0b10011 ++ fld 8 255, cw 5 0b10100 ++ fld 9 1, cw 5 0b10101 ++ fld 9 511, cw 5 0b10110 ++
        fld 10 1, cw 5 0b10111 ++ fld 10 1023, cw 5 0b11000 ++ fld 11 1, cw 5 0b11001 ++ fld 11 2047, cw 5
        0b11010 ++ fld 12 1, cw 5 0b11011 ++ fld 12 4095, cw 5 0b11100 ++ fld 13 1, cw 5 0b11101 ++ fld 13
        8191] =
      [some (.dist15 63), some (.dist16 1), some (.dist17 127), some (.dist18 1), some (.dist19 255), some
        (.dist20 1), some (.dist21 511), some (.dist22 1), some (.dist23 1023), some (.dist24 1), some
        (.dist25 2047), some (.dist26 1), some (.dist27 4095), some (.dist28 1), some (.dist29 8191)] := by
  decide

/-- DSYM, the undefined symbols (R209). -/
theorem test_decode_undefined_distances :
    elems tableCodes .distSym [cw 5 0b11110, cw 5 0b11111] = [some .dRsv30, some .dRsv31] := by decide

/-- ST (R123): LEN and NLEN are little-endian (R392, R393: bytes 05 00 FA FF), and a raw byte is itself. -/
theorem test_decode_stored :
    elems noCodes .storedHdr [fld 8 0x05 ++ fld 8 0x00 ++ fld 8 0xFA ++ fld 8 0xFF] = [some (.stHeader 5 0xFFFA)] ∧
    elems noCodes .storedCopy [fld 8 0x68] = [some (.stData 0x68)] := by decide

/-- Bits that begin no codeword are rejected by name; the bit that shows it is consumed (R206). A one-symbol code with
codeword 0 rejects a first bit of 1. -/
theorem test_decode_rejects :
    decode { noCodes with d := [{ len := 1, code := 0 }] } (Reader.start .distSym) [true, true] =
      .invalidHuffmanCode { Reader.start .distSym with part := .code, curCode := 1, curLen := 1 } [true] := by
  decide

/-- Words of the opcode table: BH_DYNAMIC with BFINAL, CL_REP_Z3, LIT 0x41, LEN257, D_RSV31. -/
theorem test_table_words :
    [decodeTableWord 8 4, decodeTableWord 8 17, decodeTableWord 16 0x41, decodeTableWord 16 257,
        decodeTableWord 8 31] =
      [some (.bhDynamic false), some (.clRepZ3 0), some (.lit 0x41), some .len257, some .dRsv31] := by
  decide +kernel

end Sys2Proof.Tests
end

/-! Family 20_memory: the bit source (R82 to R85, R391) and the append-only output (R94). -/

/-! ### Fields that begin at a byte boundary (R85) -/

namespace Sys2Proof

/-- Two bytes are the 16 bits of the little-endian field they hold (R85). -/
theorem byteBits_cons_cons (lo hi : Byte) (bs : List Byte) :
    byteBits (lo :: hi :: bs) = lsbBits 16 (hi ++ lo).toNat ++ byteBits bs := by
  have hv : (hi ++ lo).toNat = 2 ^ 8 * hi.toNat + lo.toNat := by
    rw [BitVec.toNat_append, Nat.shiftLeft_eq, Nat.mul_comm, Nat.two_pow_add_eq_or_of_lt lo.isLt]
  have hlo : (hi ++ lo).toNat % 2 ^ 8 = lo.toNat := by have := lo.isLt; omega
  have hhi : (hi ++ lo).toNat / 2 ^ 8 = hi.toNat := by have := lo.isLt; omega
  rw [byteBits_cons, byteBits_cons, lsbBits_add 8 8, ← lsbBits_mod 8 (hi ++ lo).toNat, hlo, hhi, List.append_assoc]

/-- The value of a field of two words, the first one read the low half. -/
theorem bitsToNat_two_words (lo hi : BitVec 16) :
    bitsToNat (lsbBits 16 lo.toNat ++ lsbBits 16 hi.toNat) = lo.toNat + 2 ^ 16 * hi.toNat := by
  rw [bitsToNat_append, bitsToNat_lsbBits, bitsToNat_lsbBits, lsbBits_length, Nat.mod_eq_of_lt lo.isLt,
    Nat.mod_eq_of_lt hi.isLt]

/-- The 32 bits of LEN and NLEN decode to them (R123, R392, R393). -/
theorem decode_stHeader (c : Codes) (len nlen : BitVec 16) (rest : List Bool) :
    decode c (Reader.start .storedHdr) (lsbBits 16 len.toNat ++ lsbBits 16 nlen.toNat ++ rest) =
      .instr (.stHeader len nlen) (Reader.start .storedHdr) rest := by
  have hlen : BitVec.ofNat 16 (len.toNat + 2 ^ 16 * nlen.toNat) = len := by
    apply BitVec.eq_of_toNat_eq
    have := len.isLt
    rw [BitVec.toNat_ofNat]
    omega
  have hnlen : BitVec.ofNat 16 ((len.toNat + 2 ^ 16 * nlen.toNat) / 65536) = nlen := by
    apply BitVec.eq_of_toNat_eq
    have := len.isLt
    have := nlen.isLt
    rw [BitVec.toNat_ofNat]
    omega
  rw [decode_field c _ _ rest rfl (by simp [Reader.start, fieldWidth])]
  simp only [fieldInstr, Reader.start, List.nil_append, bitsToNat_two_words, hlen, hnlen]

/-- The 8 bits of a raw byte decode to it (R123, R395). -/
theorem decode_stData (c : Codes) (b : Byte) (rest : List Bool) :
    decode c (Reader.start .storedCopy) (lsbBits 8 b.toNat ++ rest) =
      .instr (.stData b) (Reader.start .storedCopy) rest := by
  rw [decode_field c _ _ rest rfl (by simp [Reader.start, fieldWidth])]
  simp [fieldInstr, Reader.start, bitsToNat_lsbBits, Nat.mod_eq_of_lt b.isLt]

/-- Settles O16: two bytes are one little-endian field, and the decoder reads such fields to their end. -/
theorem multiByteFieldsAreLittleEndian : Obligations.MultiByteFieldsAreLittleEndian := by
  intro c a0 a1 b0 b1 rest
  constructor
  · rw [byteBits_cons_cons, byteBits_cons_cons, ← List.append_assoc]
    exact decode_stHeader c (a1 ++ a0) (b1 ++ b0) (byteBits rest)
  · rw [byteBits_cons]
    exact decode_stData c a0 (byteBits (a1 :: rest))

end Sys2Proof

namespace Sys2Proof.Machine

/-! ### `ReadBit` and `AlignToByte` (R82, R84, R391) -/

/-- A byte offered is taken (R81). -/
theorem fetchByte_of_offered {s : State} {p : InSample} {rest : List InSample} (hs : s.src = p :: rest)
    (hv : p.inValid = true) (he : p.inErr = false) :
    fetchByte s = .got () { s with bitbuf := p.inData, bitcnt := 8, inCount := s.inCount + 1, src := rest } := by
  simp [fetchByte, hs, hv, he]

theorem readBit_of_held {s : State} (h : s.bitcnt ≠ 0) : readBit s = takeBit s := if_neg h

theorem readBit_of_fetched {s t : State} (h : s.bitcnt = 0) (hf : fetchByte s = .got () t) :
    readBit s = takeBit t := by
  simp [readBit, h, hf]

theorem readBit_of_fetch_waits {s t : State} (h : s.bitcnt = 0) (hf : fetchByte s = .wait t) :
    readBit s = .wait t := by
  simp [readBit, h, hf]

theorem readBit_of_fetch_raises {s t : State} {e : ErrCode} (h : s.bitcnt = 0) (hf : fetchByte s = .raised e t) :
    readBit s = .raised e t := by
  simp [readBit, h, hf]

/-- Settles O10, by the four cases of `ReadBit`: bits held, and the three answers of the fetch. -/
theorem readBitConsumesTheLowestBit : Obligations.ReadBitConsumesTheLowestBit := fun _ =>
  ⟨readBit_of_held, fun _ => readBit_of_fetched, fun _ => readBit_of_fetch_waits, fun _ _ => readBit_of_fetch_raises⟩

theorem beginElement_of_header_start {s : State} (hp : s.phase = .storedHdr) (hf : s.fld = []) :
    beginElement s = alignToByte s := by
  simp [beginElement, hp, hf]

theorem beginElement_of_header_begun {s : State} (hp : s.phase = .storedHdr) (hf : s.fld ≠ []) :
    beginElement s = s := by
  simp [beginElement, hp, hf]

/-- No element but a stored header aligns (R391). -/
theorem beginElement_keeps_buffer {s : State} (hp : s.phase ≠ .storedHdr) :
    (beginElement s).bitbuf = s.bitbuf ∧ (beginElement s).bitcnt = s.bitcnt := by
  rcases beginElement_cases s with ⟨h, -⟩ | ⟨-, -, -, h⟩ | h
  · exact absurd h hp
  · rw [h]; exact ⟨rfl, rfl⟩
  · rw [h]; exact ⟨rfl, rfl⟩

/-- After alignment nothing is held, so the bit position is that of a byte (R46, R84). -/
theorem bitpos_alignToByte (s : State) : bitpos (alignToByte s) = 8 * (s.inCount.toNat : Int) := by
  simp [bitpos]

/-- After alignment a byte offered is taken, and its bit 0 is read (R84). -/
theorem readBit_alignToByte {s : State} {p : InSample} {rest : List InSample} (hs : s.src = p :: rest)
    (hv : p.inValid = true) (he : p.inErr = false) :
    readBit (alignToByte s) = .got (p.inData.getLsbD 0)
      { s with bitbuf := p.inData >>> 1, bitcnt := 7, inCount := s.inCount + 1, src := rest } := by
  rw [readBit_of_fetched rfl (fetchByte_of_offered (s := alignToByte s) hs hv he)]
  simp [takeBit]

/-- Settles O11: what `AlignToByte` leaves, when it runs, and that the next `ReadBit` takes a byte. -/
theorem alignmentOpensTheNextByte : Obligations.AlignmentOpensTheNextByte := fun s _ _ =>
  ⟨rfl, rfl, bitpos_alignToByte s, beginElement_of_header_start, beginElement_of_header_begun,
    beginElement_keeps_buffer, fun _ _ => readBit_alignToByte⟩

/-! ### The output side

`SameOutput s t`: the window, its registers and the output port are in `t` as they were in `s`. It holds from before to
after reading, and from before to after every meaning but the two that emit a byte (R90). -/

/-- `t` agrees with `s` on the window and its registers, on the output port, and on the bytes taken. -/
structure SameOutput (s t : State) : Prop where
  win : t.win = s.win
  wp : t.wp = s.wp
  hist : t.hist = s.hist
  outCount : t.outCount = s.outCount
  outValid : t.outValid = s.outValid
  outData : t.outData = s.outData
  out : t.out = s.out

theorem SameOutput.trans {s t u : State} (h : SameOutput s t) (h' : SameOutput t u) : SameOutput s u where
  win := h'.win.trans h.win
  wp := h'.wp.trans h.wp
  hist := h'.hist.trans h.hist
  outCount := h'.outCount.trans h.outCount
  outValid := h'.outValid.trans h.outValid
  outData := h'.outData.trans h.outData
  out := h'.out.trans h.out

theorem raise_sameOutput (e : ErrCode) (s : State) : SameOutput s (raise e s) := by constructor <;> rfl

theorem beginElement_sameOutput (s : State) : SameOutput s (beginElement s) := by
  rw [beginElement_frame]; constructor <;> rfl

theorem readFrame.sameOutput {s t : State} (h : readFrame s t) : SameOutput s t := by
  rw [h]; constructor <;> rfl

/-- Reading an element leaves the output side as it was, however it ends. -/
theorem fetchElement_sameOutput (n : Nat) (s : State) : SameOutput s (fetchElement n (beginElement s)).state :=
  (beginElement_sameOutput s).trans (fetchElement_readFrame n _).sameOutput

theorem blockEnd_sameOutput (s : State) : SameOutput s (blockEnd s) := by constructor <;> rfl

theorem lengthCode_sameOutput (k x : Nat) (s : State) : SameOutput s (lengthCode k x s) := by constructor <;> rfl

theorem distanceCode_sameOutput (ds x : Nat) (s : State) : SameOutput s (distanceCode ds x s) := by
  unfold distanceCode
  rcases referenceCheck_cases { s with pendSym := BitVec.ofNat 5 ds, pendDist := distanceOf ds x } with
    ⟨-, h⟩ | ⟨-, h⟩ <;> rw [h] <;> constructor <;> rfl

theorem buildCl_sameOutput (s : State) : SameOutput s (buildCl s) := by
  rcases buildCl_cases s with ⟨-, h⟩ | ⟨T, -, h⟩ <;> rw [h] <;> constructor <;> rfl

theorem lensTurnEnd_sameOutput (s : State) : SameOutput s (lensTurnEnd s) := by
  rcases lensTurnEnd_cases s with ⟨-, h⟩ | ⟨-, h⟩
  · rw [h]; constructor <;> rfl
  · rw [h, buildBlockCodes_splitLens_frame]; constructor <;> rfl

theorem writeLens_sameOutput (n : Nat) (v : BitVec 4) (s : State) : SameOutput s (writeLens n v s) := by
  rw [writeLens_frame]; constructor <;> rfl

/-- Entries are written, `prev_len` is set, and the turn ends (R215 to R219). -/
theorem lensTurn_sameOutput (n : Nat) (v prev : BitVec 4) (s : State) :
    SameOutput s (lensTurnEnd { writeLens n v s with prevLen := prev, prevValid := true }) := by
  have hp : SameOutput (writeLens n v s) { writeLens n v s with prevLen := prev, prevValid := true } := by
    constructor <;> rfl
  exact ((writeLens_sameOutput n v s).trans hp).trans (lensTurnEnd_sameOutput _)

theorem repeatZero_sameOutput (r : Nat) (s : State) : SameOutput s (repeatZero r s) := by
  rcases repeatZero_cases r s with ⟨-, h⟩ | ⟨-, h⟩ <;> rw [h]
  · exact lensTurn_sameOutput r 0 0 s
  · exact raise_sameOutput _ s

/-! ### Meanings with cases -/

theorem execDynHeader_sameOutput (hlit hdist : BitVec 5) (hclen : BitVec 4) (s : State) :
    ∃ t, execDynHeader hlit hdist hclen s = .next t ∧ SameOutput s t := by
  unfold execDynHeader
  dsimp only
  split <;> exact ⟨_, rfl, by constructor <;> rfl⟩

theorem execClCodeLength_sameOutput (len : BitVec 3) (s : State) :
    ∃ t, execClCodeLength len s = .next t ∧ SameOutput s t := by
  unfold execClCodeLength
  dsimp only
  split
  · exact ⟨_, rfl, by constructor <;> rfl⟩
  · refine ⟨_, rfl, SameOutput.trans ?_ (buildCl_sameOutput _)⟩
    constructor <;> rfl

theorem execClRepPrev_sameOutput (x : BitVec 2) (s : State) :
    ∃ t, execClRepPrev x s = .next t ∧ SameOutput s t := by
  unfold execClRepPrev
  split
  · exact ⟨_, rfl, raise_sameOutput _ s⟩
  · split
    · exact ⟨_, rfl, (writeLens_sameOutput _ _ s).trans (lensTurnEnd_sameOutput _)⟩
    · exact ⟨_, rfl, raise_sameOutput _ s⟩

theorem execStHeader_sameOutput (len nlen : BitVec 16) (s : State) :
    ∃ t, execStHeader len nlen s = .next t ∧ SameOutput s t := by
  unfold execStHeader
  dsimp only
  split
  · split <;> exact ⟨_, rfl, by constructor <;> rfl⟩
  · exact ⟨_, rfl, by constructor <;> rfl⟩

/-- Every element but a literal and a raw byte answers a next state and leaves the output side as it was. -/
theorem exec_sameOutput {i : Instr} (hl : ∀ b, i ≠ .lit b) (hr : ∀ b, i ≠ .stData b) (s : State) :
    ∃ t, exec i s = .next t ∧ SameOutput s t := by
  cases i
  case lit b => exact absurd rfl (hl b)
  case stData b => exact absurd rfl (hr b)
  case bhStored | bhFixed | bhDynamic | bhReserved => exact ⟨_, rfl, by constructor <;> rfl⟩
  case dynHeader hlit hdist hclen => exact execDynHeader_sameOutput hlit hdist hclen s
  case clCodeLength len => exact execClCodeLength_sameOutput len s
  case clLen sym => exact ⟨_, rfl, lensTurn_sameOutput 1 sym sym s⟩
  case clRepPrev x => exact execClRepPrev_sameOutput x s
  case clRepZ3 | clRepZ11 => exact ⟨_, rfl, repeatZero_sameOutput _ s⟩
  case stHeader len nlen => exact execStHeader_sameOutput len nlen s
  case eob => exact ⟨_, rfl, blockEnd_sameOutput s⟩
  case llRsv286 | llRsv287 | dRsv30 | dRsv31 => exact ⟨_, rfl, raise_sameOutput _ s⟩
  case len257 | len258 | len259 | len260 | len261 | len262 | len263 | len264 | len265 | len266 | len267 | len268 |
      len269 | len270 | len271 | len272 | len273 | len274 | len275 | len276 | len277 | len278 | len279 | len280 |
      len281 | len282 | len283 | len284 | len285 =>
    exact ⟨_, rfl, lengthCode_sameOutput _ _ s⟩
  all_goals exact ⟨_, rfl, distanceCode_sameOutput _ _ s⟩

/-- Everything an element's meaning can do to the output side: a literal or a raw byte is emitted in some phase, or
nothing of it changes. -/
theorem exec_output_cases (i : Instr) (s : State) :
    (∃ b ph, exec i s = .next (emit b { s with phase := ph })) ∨ ∃ t, exec i s = .next t ∧ SameOutput s t := by
  by_cases hlit : ∃ b, i = .lit b
  · obtain ⟨b, rfl⟩ := hlit
    exact .inl ⟨b, .token, rfl⟩
  · by_cases hraw : ∃ b, i = .stData b
    · obtain ⟨b, rfl⟩ := hraw
      exact .inl ⟨b, .storedCopy, rfl⟩
    · exact .inr (exec_sameOutput (not_exists.1 hlit) (not_exists.1 hraw) s)

/-! ### The output only grows, by a byte at most (R94) -/

/-- `t`'s output is `s`'s, or `s`'s with one byte appended. -/
def AppendsAtMostOne (s t : State) : Prop := t.out = s.out ∨ ∃ b, t.out = s.out ++ [b]

theorem SameOutput.appends {s t : State} (h : SameOutput s t) : AppendsAtMostOne s t := .inl h.out

theorem SameOutput.trans_appends {s t u : State} (h : SameOutput s t) (h' : AppendsAtMostOne t u) :
    AppendsAtMostOne s u := by
  unfold AppendsAtMostOne at h' ⊢
  rwa [h.out] at h'

@[simp] theorem afterEmit_out (s : State) : (afterEmit s).out = s.out := by rw [afterEmit_frame]

theorem sinkCycle_appends (s : State) : AppendsAtMostOne s (sinkCycle s) := by
  rcases sinkCycle_cases s with ⟨-, h⟩ | ⟨-, h⟩ <;> rw [h]
  · exact .inr ⟨s.outData, by simp⟩
  · exact .inl rfl

theorem emit_appends (b : Byte) (s : State) : AppendsAtMostOne s (emit b s) := sinkCycle_appends (offerByte b s)

theorem copyStep_appends {s t : State} (h : copyStep s = .next t) : AppendsAtMostOne s t := by
  rcases copyStep_cases s with ⟨-, hc⟩ | ⟨-, b, -, hc⟩ | ⟨-, f, -, hc⟩ <;> rw [hc] at h <;> cases h
  · exact .inl rfl
  · exact emit_appends b s

theorem exec_appends {i : Instr} {s t : State} (h : exec i s = .next t) : AppendsAtMostOne s t := by
  rcases exec_output_cases i s with ⟨b, ph, he⟩ | ⟨u, he, hu⟩ <;> rw [he] at h <;> cases h
  · exact emit_appends b { s with phase := ph }
  · exact hu.appends

/-- Without reset a step appends at most one byte: reading none, and then one meaning, one turn of a copy, or one cycle
of the sink. -/
theorem step_appends {s t : State} (hr : s.rst = false) (h : step s = .next t) : AppendsAtMostOne s t := by
  have hread := fetchElement_sameOutput fetchBound s
  rcases step_cases s with ⟨hr', -⟩ | ⟨-, -, hs⟩ | ⟨-, -, ⟨-, hs⟩ | ⟨-, hs⟩ | ⟨-, ⟨i, u, hf, hs⟩ | ⟨u, hf, hs⟩ |
    ⟨e, u, hf, hs⟩⟩⟩
  · simp [hr] at hr'
  · rw [hs] at h; cases h; exact sinkCycle_appends s
  · rw [hs] at h; cases h; exact .inl rfl
  · rw [hs] at h; exact copyStep_appends h
  all_goals rw [hf] at hread; rw [hs] at h
  · exact hread.trans_appends (exec_appends h)
  · cases h; exact hread.appends
  · cases h; exact (hread.trans (raise_sameOutput e u)).appends

/-- Settles O53, by what a step can do to the output. -/
theorem outputIsAppendOnly : Obligations.OutputIsAppendOnly := fun _ _ => step_appends

end Sys2Proof.Machine

/-! Family 30_encoding: the fixed codewords (R133, R208, R209). -/

/-! ### The codewords of a run of symbols of one length (R202)

The fixed codes are built from lengths that stand in runs, so each row of R133's table is one run. -/

namespace Sys2Proof

theorem countLen_replicate (n : Nat) (l : BitVec 4) (b : Nat) :
    countLen (List.replicate n l) b = if l.toNat = b then n else 0 := by
  by_cases h : l.toNat = b <;> simp [countLen, h]

/-- The bits of a used symbol in a built code: the first codeword of its length, plus the symbols of that length before
it (R202). -/
theorem codewordBits_of_build {maxbits : Nat} {L : List (BitVec 4)} {T : Code} (hL : ∀ l ∈ L, l.toNat ≤ maxbits)
    (h : build maxbits L = some T) {s : Nat} {l : BitVec 4} (hs : L[s]? = some l) (h0 : l ≠ 0) :
    codewordBits T s = msbBits l.toNat (firstCode L l.toNat + countLen (L.take s) l.toNat) := by
  have hlt : s < T.length := by
    rw [build_length h]
    exact (List.getElem?_eq_some_iff.1 hs).1
  have hw : T[s]? = some T[s] := List.getElem?_eq_getElem hlt
  obtain ⟨hlen, -, hcode⟩ := build_getElem? hL h hw
  obtain rfl : l = T[s].len := Option.some.inj (hs.symm.trans hlen)
  simp only [codewordBits, hw, (hcode h0).1]

/-- In a run of `n` symbols of length `l`, from symbol `a` on, the codewords count up from that of symbol `a`. -/
theorem codewordBits_of_run {maxbits : Nat} {L : List (BitVec 4)} {T : Code} (hL : ∀ l ∈ L, l.toNat ≤ maxbits)
    (h : build maxbits L = some T) {K R : List (BitVec 4)} {n : Nat} {l : BitVec 4}
    (hrun : L = K ++ List.replicate n l ++ R) (h0 : l ≠ 0) {a b first s : Nat} (ha : K.length = a) (hb : l.toNat = b)
    (hfirst : firstCode L b + countLen K b = first) (has : a ≤ s) (hsn : s < a + n) :
    codewordBits T s = msbBits b (first + (s - a)) := by
  subst ha hb hfirst
  obtain ⟨k, rfl⟩ := Nat.exists_eq_add_of_le has
  have hk : k < n := by omega
  have hs : L[K.length + k]? = some l := by
    rw [hrun, List.append_assoc, List.getElem?_append_right (by omega), Nat.add_sub_cancel_left,
      List.getElem?_append_left (by simpa using hk), List.getElem?_replicate, if_pos hk]
  have htake : L.take (K.length + k) = K ++ List.replicate k l := by
    rw [hrun, List.append_assoc, List.take_length_add_append, List.take_append_of_le_length (by simp; omega),
      List.take_replicate, Nat.min_eq_left (Nat.le_of_lt hk)]
  rw [codewordBits_of_build hL h hs h0, htake, countLen_append, countLen_replicate, if_pos rfl,
    Nat.add_sub_cancel_left, Nat.add_assoc]

/-! ### The fixed lengths (R208, R209) -/

/-- How many lit/len symbols have each length: 24 of 7 bits, 144 + 8 of 8 bits, 112 of 9 bits (R208). -/
theorem countLen_fixedLlLens (b : Nat) :
    countLen fixedLlLens b = (if b = 7 then 24 else 0) + (if b = 8 then 152 else 0) + (if b = 9 then 112 else 0) := by
  simp only [fixedLlLens, countLen_append, countLen_replicate, BitVec.reduceToNat]
  split_ifs <;> omega

theorem countLen_fixedDLens (b : Nat) : countLen fixedDLens b = if b = 5 then 32 else 0 := by
  simp only [fixedDLens, countLen_replicate, BitVec.reduceToNat, eq_comm]

theorem firstCode_fixedLlLens_7 : firstCode fixedLlLens 7 = 0 := by simp [firstCode, countLen_fixedLlLens]

theorem firstCode_fixedLlLens_8 : firstCode fixedLlLens 8 = 0x30 := by
  rw [firstCode, firstCode_fixedLlLens_7, countLen_fixedLlLens]; rfl

theorem firstCode_fixedLlLens_9 : firstCode fixedLlLens 9 = 0x190 := by
  rw [firstCode, firstCode_fixedLlLens_8, countLen_fixedLlLens]; rfl

theorem firstCode_fixedDLens : firstCode fixedDLens 5 = 0 := by
  simp [firstCode, countLen_fixedDLens]

/-- Every 4-bit length is within `MAX_LL_D_BITS` (R7). -/
theorem length_le_maxLlDBits (L : List (BitVec 4)) : ∀ l ∈ L, l.toNat ≤ 15 := fun l _ => Nat.le_of_lt_succ l.isLt

end Sys2Proof

/-! ### The rows of R133's table -/

namespace Sys2Proof

theorem codewordBits_fixedLl_0_143 {s : Nat} (hs : s < 144) : codewordBits fixedLl s = msbBits 8 (0x30 + s) := by
  have hrun : fixedLlLens = [] ++ List.replicate 144 8 ++
      (List.replicate 112 9 ++ List.replicate 24 7 ++ List.replicate 8 8) := by
    simp only [fixedLlLens, List.nil_append, List.append_assoc]
  have h := codewordBits_of_run (length_le_maxLlDBits _) build_fixedLl hrun (by decide) List.length_nil rfl
    firstCode_fixedLlLens_8 (Nat.zero_le s) (by omega)
  rwa [Nat.sub_zero] at h

theorem codewordBits_fixedLl_144_255 {s : Nat} (hs : s < 256) (h144 : 144 ≤ s) :
    codewordBits fixedLl s = msbBits 9 (0x190 + (s - 144)) :=
  have hrun : fixedLlLens = List.replicate 144 8 ++ List.replicate 112 9 ++
      (List.replicate 24 7 ++ List.replicate 8 8) := by
    simp only [fixedLlLens, List.append_assoc]
  have hfirst : firstCode fixedLlLens 9 + countLen (List.replicate 144 8) 9 = 0x190 := by
    simp only [firstCode_fixedLlLens_9, countLen_replicate]; rfl
  codewordBits_of_run (length_le_maxLlDBits _) build_fixedLl hrun (by decide) List.length_replicate rfl hfirst h144 hs

theorem codewordBits_fixedLl_256_279 {s : Nat} (hs : s < 280) (h256 : 256 ≤ s) :
    codewordBits fixedLl s = msbBits 7 (s - 256) := by
  have hfirst : firstCode fixedLlLens 7 + countLen (List.replicate 144 8 ++ List.replicate 112 9) 7 = 0 := by
    simp only [firstCode_fixedLlLens_7, countLen_append, countLen_replicate]; rfl
  have h := codewordBits_of_run (length_le_maxLlDBits _) build_fixedLl (l := 7) rfl (by decide)
    (by simp only [List.length_append, List.length_replicate]) rfl hfirst h256 hs
  rwa [Nat.zero_add] at h

theorem codewordBits_fixedLl_280_287 {s : Nat} (hs : s < 288) (h280 : 280 ≤ s) :
    codewordBits fixedLl s = msbBits 8 (0xC0 + (s - 280)) :=
  have hrun : fixedLlLens = List.replicate 144 8 ++ List.replicate 112 9 ++ List.replicate 24 7 ++
      List.replicate 8 8 ++ [] := (List.append_nil _).symm
  have hfirst : firstCode fixedLlLens 8 +
      countLen (List.replicate 144 8 ++ List.replicate 112 9 ++ List.replicate 24 7) 8 = 0xC0 := by
    simp only [firstCode_fixedLlLens_8, countLen_append, countLen_replicate]; rfl
  codewordBits_of_run (length_le_maxLlDBits _) build_fixedLl hrun (by decide)
    (by simp only [List.length_append, List.length_replicate]) rfl hfirst h280 hs

theorem codewordBits_fixedD {ds : Nat} (hds : ds < 32) : codewordBits fixedD ds = msbBits 5 ds := by
  have hrun : fixedDLens = [] ++ List.replicate 32 5 ++ [] := (List.append_nil _).symm
  have h := codewordBits_of_run (length_le_maxLlDBits _) build_fixedD hrun (by decide) List.length_nil rfl
    firstCode_fixedDLens (Nat.zero_le ds) (by omega)
  rwa [Nat.zero_add] at h

/-- Settles O27, row by row: each is a run of symbols of one length. -/
theorem fixedCodewordsAreAsTabulated : Obligations.FixedCodewordsAreAsTabulated :=
  ⟨fixedLl_length, fixedD_length, fun _ => codewordBits_fixedLl_0_143, fun _ => codewordBits_fixedLl_144_255,
    fun _ => codewordBits_fixedLl_256_279, fun _ => codewordBits_fixedLl_280_287, fun _ => codewordBits_fixedD⟩

end Sys2Proof

/-! Family 40_block_header: the four block headers (R173 to R176). -/

/-! ### The three bits of a header (R122) -/

namespace Sys2Proof

/-- Three bits in HDR are a whole element, whatever they are: the one their value numbers. -/
theorem decode_header (c : Codes) (f lo hi : Bool) (rest : List Bool) :
    decode c (Reader.start .hdr) (f :: lo :: hi :: rest) =
      .instr (headerInstr (bitsToNat [f, lo, hi])) (Reader.start .hdr) rest :=
  decode_field c (Reader.start .hdr) [f, lo, hi] rest rfl rfl

theorem headerInstr_stored (f : Bool) : headerInstr (bitsToNat [f, false, false]) = .bhStored f := by
  cases f <;> rfl

theorem headerInstr_fixed (f : Bool) : headerInstr (bitsToNat [f, true, false]) = .bhFixed f := by
  cases f <;> rfl

theorem headerInstr_dynamic (f : Bool) : headerInstr (bitsToNat [f, false, true]) = .bhDynamic f := by
  cases f <;> rfl

theorem headerInstr_reserved (f : Bool) : headerInstr (bitsToNat [f, true, true]) = .bhReserved f := by
  cases f <;> rfl

/-- A header's bits decode to the element its BFINAL and BTYPE bits number. -/
theorem decode_header_instr? (c : Codes) {f lo hi : Bool} {i : Instr} (h : headerInstr (bitsToNat [f, lo, hi]) = i)
    (rest : List Bool) : (decode c (Reader.start .hdr) (f :: lo :: hi :: rest)).instr? = some i := by
  rw [decode_header, h, Decoded.instr?]

end Sys2Proof

/-! ### What each header does (R173 to R176) -/

namespace Sys2Proof.Machine

theorem exec_bhStored (f : Bool) (s : State) :
    exec (.bhStored f) s = .next { s with bfinal := f, btype := 0, phase := .storedHdr } := rfl

theorem exec_bhFixed (f : Bool) (s : State) :
    exec (.bhFixed f) s = .next { s with bfinal := f, btype := 1, ll := fixedLl, d := fixedD, phase := .token } := rfl

theorem exec_bhDynamic (f : Bool) (s : State) :
    exec (.bhDynamic f) s = .next { s with bfinal := f, btype := 2, phase := .dynHdr } := rfl

/-- The reserved type records its two fields and then raises, whatever BFINAL is (R176, R421). -/
theorem exec_bhReserved (f : Bool) (s : State) :
    exec (.bhReserved f) s = .next (raise .reservedBlockType { s with bfinal := f, btype := 3 }) := rfl

/-- Settles O28, header by header: the element its three bits decode to, and that element's effect. -/
theorem headersSelectTheBlockType : Obligations.HeadersSelectTheBlockType := fun c f rest s =>
  ⟨decode_header_instr? c (headerInstr_stored f) rest, exec_bhStored f s,
    decode_header_instr? c (headerInstr_fixed f) rest, exec_bhFixed f s,
    decode_header_instr? c (headerInstr_dynamic f) rest, exec_bhDynamic f s,
    decode_header_instr? c (headerInstr_reserved f) rest, exec_bhReserved f s⟩

end Sys2Proof.Machine

/-! Family 41_huffman_tables: when `Build` raises (R201), and the tables of a dynamic block (R211 to R222). -/

/-! ### The Kraft sum, symbol by symbol (R201)

`kraftSum` runs over the lengths, as `Build` does; R201 sums over the used symbols. One symbol more adds its own term to
both. -/

namespace Sys2Proof

/-- A sum over the lengths 1 to `maxbits` in which only the length `n` counts is that length's term. -/
theorem sum_range_single_length {maxbits n : Nat} (hn : n ≤ maxbits) (w : Nat → Nat) :
    ((List.range maxbits).map fun k => (if n = k + 1 then 1 else 0) * w (k + 1)).sum = if n = 0 then 0 else w n := by
  cases n with
  | zero => simp
  | succ m =>
    have hm : m ∈ Finset.range maxbits := Finset.mem_range.2 hn
    calc ((List.range maxbits).map fun k => (if m + 1 = k + 1 then 1 else 0) * w (k + 1)).sum
        = ∑ k ∈ Finset.range maxbits, (if m + 1 = k + 1 then 1 else 0) * w (k + 1) := rfl
      _ = w (m + 1) := by simp [hm]

@[simp] theorem kraftSum_nil (maxbits : Nat) : kraftSum maxbits [] = 0 := by simp [kraftSum]

/-- One symbol more adds `2^(maxbits - length)`, or nothing if it is unused (R201). -/
theorem kraftSum_cons {maxbits : Nat} {l : BitVec 4} (hl : l.toNat ≤ maxbits) (L : List (BitVec 4)) :
    kraftSum maxbits (l :: L) = (if l.toNat = 0 then 0 else 2 ^ (maxbits - l.toNat)) + kraftSum maxbits L := by
  simp only [kraftSum, countLen_cons, Nat.add_mul, List.sum_map_add]
  rw [sum_range_single_length hl fun b => 2 ^ (maxbits - b)]

/-- The sum by lengths is R201's sum over the used symbols. -/
theorem kraftSum_eq_sum_used {maxbits : Nat} {L : List (BitVec 4)} (hL : ∀ l ∈ L, l.toNat ≤ maxbits) :
    kraftSum maxbits L = ((L.filter fun l => l != 0).map fun l => 2 ^ (maxbits - l.toNat)).sum := by
  induction L with
  | nil => simp
  | cons l L ih =>
    obtain ⟨hl, hL⟩ := List.forall_mem_cons.1 hL
    rw [kraftSum_cons hl, ih hL]
    by_cases h0 : l = 0
    · simp [h0]
    · have hn : l.toNat ≠ 0 := fun h => h0 (BitVec.eq_of_toNat_eq h)
      have hu : (l != 0) = true := bne_iff_ne.2 h0
      simp only [List.filter_cons, hu, if_true, List.map_cons, List.sum_cons, hn, if_false]

/-- `Build` raises exactly on an over-subscribed code (R201, R202). -/
theorem build_eq_none_iff (maxbits : Nat) (L : List (BitVec 4)) :
    build maxbits L = none ↔ 2 ^ maxbits < kraftSum maxbits L := by
  rcases build_cases maxbits L with ⟨h, hb⟩ | ⟨h, hb⟩
  · simp [hb, h]
  · simp [hb, h]

/-- Settles O24: `Build` compares its sum by lengths with 2^maxbits, and that sum is the one over the used symbols. -/
theorem buildRejectsExactlyOverSubscribedLengths : Obligations.BuildRejectsExactlyOverSubscribedLengths := by
  intro maxbits L hL
  rw [build_eq_none_iff, kraftSum_eq_sum_used hL]

/-! ### The bits of a code-length symbol (R126, R217) -/

/-- A symbol of the code-length alphabet but 16 is its codeword and its extra bits. -/
theorem encode_codeLengthSymbol {i : Instr} {sym : Nat} {bits : List Bool} (h : i.form = (.dynLens, some sym, bits))
    (h16 : sym ≠ 16) (c : Codes) : encode c i = codewordBits c.cl sym ++ bits := by
  simp [encode, h, h16, Codes.forPhase]

/-- Symbol 16 has its extra bits only after a previous length. -/
theorem encode_clRepPrev (c : Codes) (x : BitVec 2) :
    encode c (.clRepPrev x) = codewordBits c.cl 16 ++ (if c.prevValid then lsbBits 2 x.toNat else []) := by
  cases h : c.prevValid <;> simp [encode, Instr.form, Codes.forPhase, h]

/-! ### The counts of a dynamic block (R129, R211) -/

theorem hlitCount_toNat (f : BitVec 5) : (hlitCount f).toNat = f.toNat + 257 := by
  simp [hlitCount]; omega

theorem hdistCount_toNat (f : BitVec 5) : (hdistCount f).toNat = f.toNat + 1 := by
  simp [hdistCount]; omega

theorem hclenCount_toNat (f : BitVec 4) : (hclenCount f).toNat = f.toNat + 4 := by
  simp [hclenCount]; omega

end Sys2Proof

namespace Sys2Proof.Machine

/-! ### DYN_HEADER (R211, R212) -/

theorem strictRejects_iff (s : State) :
    strictRejects s = true ↔ s.cfg.strictCounts = true ∧ (286 < s.hlit.toNat ∨ 30 < s.hdist.toNat) := by
  simp [strictRejects]

/-- Settles O29, by the two answers of StrictCheck. -/
theorem dynamicHeaderSetsTheCounts : Obligations.DynamicHeaderSetsTheCounts := by
  intro hlit hdist hclen s
  have hexec : exec (.dynHeader hlit hdist hclen) s = execDynHeader hlit hdist hclen s := rfl
  have hiff := strictRejects_iff
    { s with hlit := hlitCount hlit, hdist := hdistCount hdist, hclen := hclenCount hclen }
  rw [hexec, execDynHeader]
  dsimp only at hiff ⊢
  split
  case isTrue h =>
    exact ⟨_, rfl, hlitCount_toNat hlit, hdistCount_toNat hdist, hclenCount_toNat hclen,
      fun _ => ⟨rfl, rfl, rfl⟩, fun hn => absurd (hiff.1 h) hn, rfl⟩
  case isFalse h =>
    exact ⟨_, rfl, hlitCount_toNat hlit, hdistCount_toNat hdist, hclenCount_toNat hclen,
      fun hs => absurd (hiff.2 hs) h, fun _ => ⟨rfl, rfl, rfl⟩, rfl⟩

/-! ### The last code-length code length (R213, R214) -/

/-- After the last field the code-length code is built (R214). -/
theorem exec_clCodeLength_last (len : BitVec 3) {s : State} (h : s.clIdx.toNat + 1 = s.hclen.toNat)
    (h19 : s.hclen.toNat ≤ 19) :
    exec (.clCodeLength len) s =
      .next (buildCl { s with clLen := s.clLen.set (clOrder.getD s.clIdx.toNat 0) len, clIdx := s.clIdx + 1 }) := by
  have hlast : ¬ s.clIdx + 1 < s.hclen := by bv_omega
  have hin : s.clIdx.toNat < clOrder.length := by
    have : clOrder.length = 19 := rfl
    omega
  have hget : clOrder.getD s.clIdx.toNat 19 = clOrder.getD s.clIdx.toNat 0 := by simp [hin]
  have hexec : exec (.clCodeLength len) s = execClCodeLength len s := rfl
  rw [hexec, execClCodeLength, if_neg hlast, hget]

theorem buildCl_of_built {s : State} {T : Code} (h : build Config.maxClBits (clLens s) = some T) :
    buildCl s = { s with cl := T, lenIdx := 0, prevLen := 0, prevValid := false, phase := .dynLens } := by
  simp [buildCl, h]

theorem buildCl_of_rejected {s : State} (h : build Config.maxClBits (clLens s) = none) :
    buildCl s = raise .invalidHuffmanCode s := by
  simp [buildCl, h]

/-- Settles O31: the field is written, and `Build` gives the code-length code or raises. -/
theorem lastCodeLengthFieldBuildsTheCode : Obligations.LastCodeLengthFieldBuildsTheCode := by
  intro len s h h19
  constructor
  · intro T hT
    rw [exec_clCodeLength_last len h h19, buildCl_of_built (T := T)]
    · rfl
    · exact hT
  · intro hn
    rw [exec_clCodeLength_last len h h19, buildCl_of_rejected]
    · rfl
    · exact hn

/-! ### The split and the two builds (R221, R222) -/

theorem buildBlockCodes_of_ll_rejected {s : State} (h : build Config.maxLlDBits s.llLen = none) :
    buildBlockCodes s = raise .invalidHuffmanCode s := by
  simp [buildBlockCodes, h]

theorem buildBlockCodes_of_d_rejected {s : State} {T : Code} (h : build Config.maxLlDBits s.llLen = some T)
    (hd : build Config.maxLlDBits s.dLen = none) :
    buildBlockCodes s = raise .invalidHuffmanCode { s with ll := T } := by
  simp [buildBlockCodes, h, hd]

theorem buildBlockCodes_of_built {s : State} {T U : Code} (h : build Config.maxLlDBits s.llLen = some T)
    (hd : build Config.maxLlDBits s.dLen = some U) :
    buildBlockCodes s = { s with ll := T, d := U, phase := .token } := by
  simp [buildBlockCodes, h, hd]

/-- Building leaves the two arrays of lengths as they are, whether or not it raises. -/
theorem buildBlockCodes_lens (s : State) :
    (buildBlockCodes s).llLen = s.llLen ∧ (buildBlockCodes s).dLen = s.dLen := by
  rcases buildBlockCodes_cases s with ⟨-, h⟩ | ⟨T, -, ⟨-, h⟩ | ⟨U, -, h⟩⟩ <;> rw [h] <;> exact ⟨rfl, rfl⟩

/-- The code lengths are split, and `LL` and then `D` are built from them or rejected. -/
theorem splitAndBuilt_buildBlockCodes (s : State) : splitAndBuilt s (buildBlockCodes (splitLens s)) := by
  obtain ⟨hll, hd⟩ := buildBlockCodes_lens (splitLens s)
  refine ⟨?_, ?_, fun k hk => ?_, fun k hk => ?_, fun h => ?_, fun T h => ?_, buildBlockCodes_splitLens_frame s⟩
  · rw [hll]; simp [splitLens]
  · rw [hd]; simp [splitLens]
  · rw [hll]; simp [splitLens, hk]
  · rw [hd]; simp [splitLens, hk]
  · rw [hll] at h
    rw [buildBlockCodes_of_ll_rejected h]
    exact ⟨rfl, rfl, rfl, rfl⟩
  · rw [hll] at h
    rw [hd]
    cases hD : build 15 (splitLens s).dLen with
    | none =>
      rw [buildBlockCodes_of_d_rejected h hD]
      exact ⟨rfl, fun _ => ⟨rfl, rfl, rfl⟩, nofun⟩
    | some U =>
      rw [buildBlockCodes_of_built h hD]
      exact ⟨rfl, nofun, fun _ hU => ⟨rfl, rfl, Option.some.inj hU⟩⟩

/-! ### The end of a turn of the LENS loop (R215) -/

/-- The registers of the sequence are as the turn wrote them, also after the last one. -/
theorem lensTurnEnd_sequence (s : State) :
    (lensTurnEnd s).lens = s.lens ∧ (lensTurnEnd s).lenIdx = s.lenIdx ∧
      (lensTurnEnd s).prevLen = s.prevLen ∧ (lensTurnEnd s).prevValid = s.prevValid := by
  rcases lensTurnEnd_cases s with ⟨-, h⟩ | ⟨-, h⟩
  · rw [h]; exact ⟨rfl, rfl, rfl, rfl⟩
  · rw [h, buildBlockCodes_splitLens_frame]; exact ⟨rfl, rfl, rfl, rfl⟩

theorem lensTurnEnd_of_missing {s : State} (h : s.lenIdx.toNat < totalLens s) : lensTurnEnd s = s := if_pos h

theorem splitAndBuilt_lensTurnEnd {s : State} (h : totalLens s ≤ s.lenIdx.toNat) :
    splitAndBuilt s (lensTurnEnd s) := by
  rw [lensTurnEnd, if_neg (Nat.not_lt.2 h)]
  exact splitAndBuilt_buildBlockCodes s

/-! ### CL_LEN (R216) -/

theorem exec_clLen (sym : BitVec 4) (s : State) :
    exec (.clLen sym) s = .next (lensTurnEnd
      { s with lens := s.lens.set s.lenIdx.toNat sym, lenIdx := s.lenIdx + 1, prevLen := sym, prevValid := true }) :=
  rfl

/-- Settles O32: the entry is written, and then the turn ends with entries missing, or with the split and the builds. -/
theorem codeLengthSymbolWritesOneEntry : Obligations.CodeLengthSymbolWritesOneEntry := by
  intro sym s h320
  have hidx (h : s.lenIdx.toNat + 1 ≤ s.hlit.toNat + s.hdist.toNat) : (s.lenIdx + 1).toNat = s.lenIdx.toNat + 1 :=
    BitVec.toNat_add_of_lt (by simp; omega)
  have h16 : sym.toNat ≠ 16 := by omega
  refine ⟨fun c => ?_, fun hlt => ?_, fun heq => ⟨_, exec_clLen sym s, splitAndBuilt_lensTurnEnd ?_⟩⟩
  · rw [encode_codeLengthSymbol rfl h16, List.append_nil]
  · rw [exec_clLen, lensTurnEnd_of_missing]
    simp only [totalLens, hidx (Nat.le_of_lt hlt)]
    exact hlt
  · simp only [totalLens, hidx (Nat.le_of_eq heq)]
    exact Nat.le_of_eq heq.symm

/-! ### Runs of one length (R217 to R220) -/

theorem repeatFits_of_le {r : Nat} {s : State} (h : s.lenIdx.toNat + r ≤ s.hlit.toNat + s.hdist.toNat) :
    repeatFits r s = true := decide_eq_true h

theorem repeatFits_of_lt {r : Nat} {s : State} (h : s.hlit.toNat + s.hdist.toNat < s.lenIdx.toNat + r) :
    repeatFits r s = false := decide_eq_false (Nat.not_le.2 h)

/-- What a run of `r` entries `v` that fits makes of `s`, where the previous length becomes `p` and is there if `b`: the
entries are written, and the sequence goes on, or is completed if the run fills it (R215). -/
structure RunWritten (r : Nat) (v p : BitVec 4) (b : Bool) (s t : State) : Prop where
  lenIdx : t.lenIdx.toNat = s.lenIdx.toNat + r
  lens : ∀ j, t.lens[j]? = if s.lenIdx.toNat ≤ j ∧ j < s.lenIdx.toNat + r then some v else s.lens[j]?
  prevLen : t.prevLen = p
  prevValid : t.prevValid = b
  missing : s.lenIdx.toNat + r < s.hlit.toNat + s.hdist.toNat →
    t = { s with lens := t.lens, lenIdx := t.lenIdx, prevLen := p, prevValid := b }
  complete : s.lenIdx.toNat + r = s.hlit.toNat + s.hdist.toNat →
    splitAndBuilt { s with lens := t.lens, lenIdx := t.lenIdx, prevLen := p, prevValid := b } t

/-- A run that fits is written. -/
theorem runWritten_lensTurnEnd {r : Nat} {s : State} (v p : BitVec 4) (b : Bool) (hlen : s.lens.length = 320)
    (h320 : s.hlit.toNat + s.hdist.toNat ≤ 320) (hfit : s.lenIdx.toNat + r ≤ s.hlit.toNat + s.hdist.toNat) :
    RunWritten r v p b s (lensTurnEnd { writeLens r v s with prevLen := p, prevValid := b }) := by
  have hw : { writeLens r v s with prevLen := p, prevValid := b } =
      { s with
        lens := (writeLens r v s).lens, lenIdx := (writeLens r v s).lenIdx, prevLen := p, prevValid := b } := by
    conv => lhs; rw [writeLens_frame]
  have hidx : (writeLens r v s).lenIdx.toNat = s.lenIdx.toNat + r := by
    rw [writeLens_lenIdx, BitVec.toNat_add, BitVec.toNat_ofNat]
    omega
  obtain ⟨hlens, hlenIdx, hprevLen, hprevValid⟩ :=
    lensTurnEnd_sequence { writeLens r v s with prevLen := p, prevValid := b }
  constructor
  case lenIdx => rw [hlenIdx, ← hidx]
  case lens =>
    intro j
    rw [hlens]
    dsimp only
    rw [writeLens_lens r v s (by omega)]
    have : s.lenIdx.toNat ≤ j ∧ j < s.lenIdx.toNat + r ∧ j < s.lens.length ↔
        s.lenIdx.toNat ≤ j ∧ j < s.lenIdx.toNat + r := by omega
    simp only [this]
  case prevLen => exact hprevLen
  case prevValid => exact hprevValid
  case missing =>
    intro hlt
    rw [hlens, hlenIdx, ← hw]
    exact lensTurnEnd_of_missing (by rw [hw]; simp only [totalLens, hidx]; exact hlt)
  case complete =>
    intro heq
    rw [hlens, hlenIdx, ← hw]
    exact splitAndBuilt_lensTurnEnd (by rw [hw]; simp only [totalLens, hidx]; exact Nat.le_of_eq heq.symm)

/-! ### CL_REP_PREV (R217) -/

theorem exec_clRepPrev_of_no_previous (x : BitVec 2) {s : State} (h : s.prevValid = false) :
    exec (.clRepPrev x) s = .next (raise .invalidDynamicTableDescription s) := by
  show execClRepPrev x s = _
  simp [execClRepPrev, h]

theorem exec_clRepPrev_of_not_fits {x : BitVec 2} {s : State} (hv : s.prevValid = true)
    (h : repeatFits (repeat3 x.toNat) s = false) :
    exec (.clRepPrev x) s = .next (raise .invalidDynamicTableDescription s) := by
  show execClRepPrev x s = _
  simp [execClRepPrev, hv, h]

/-- Writing the run keeps the previous length, which is the one repeated. -/
theorem exec_clRepPrev_of_fits {x : BitVec 2} {s : State} (hv : s.prevValid = true)
    (h : repeatFits (repeat3 x.toNat) s = true) :
    exec (.clRepPrev x) s = .next (lensTurnEnd
      { writeLens (repeat3 x.toNat) s.prevLen s with prevLen := s.prevLen, prevValid := s.prevValid }) := by
  have hw : { writeLens (repeat3 x.toNat) s.prevLen s with prevLen := s.prevLen, prevValid := s.prevValid } =
      writeLens (repeat3 x.toNat) s.prevLen s := by
    rw [writeLens_frame]
  rw [hw]
  show execClRepPrev x s = _
  simp [execClRepPrev, hv, h]

/-- Settles O33, by the three answers: no previous length, no fit, and a run of the previous length. -/
theorem repeatOfThePreviousLength : Obligations.RepeatOfThePreviousLength := by
  intro x s hlen h320
  refine ⟨fun c => encode_clRepPrev c x, exec_clRepPrev_of_no_previous x, fun hv hno => ?_, fun hv hfit => ?_⟩
  · exact exec_clRepPrev_of_not_fits hv (repeatFits_of_lt hno)
  · have run := runWritten_lensTurnEnd s.prevLen s.prevLen s.prevValid hlen h320 hfit
    exact ⟨_, exec_clRepPrev_of_fits hv (repeatFits_of_le hfit), run.lenIdx, run.lens, run.missing, run.complete⟩

/-! ### CL_REP_Z3 and CL_REP_Z11 (R218, R219) -/

theorem repeatZero_of_fits {r : Nat} {s : State} (h : repeatFits r s = true) :
    repeatZero r s = lensTurnEnd { writeLens r 0 s with prevLen := 0, prevValid := true } := by
  simp [repeatZero, h]

theorem repeatZero_of_not_fits {r : Nat} {s : State} (h : repeatFits r s = false) :
    repeatZero r s = raise .invalidDynamicTableDescription s := by
  simp [repeatZero, h]

/-- A code-length symbol that runs `repeatZero` repeats the length 0. -/
theorem repeatsZero_of_exec {i : Instr} {sym n x r : Nat} (hform : i.form = (.dynLens, some sym, lsbBits n x))
    (h16 : sym ≠ 16) (hexec : ∀ s, exec i s = .next (repeatZero r s)) : repeatsZero i sym n x r := by
  refine ⟨encode_codeLengthSymbol hform h16, fun s hlen h320 => ⟨fun hno => ?_, fun hfit => ?_⟩⟩
  · rw [hexec, repeatZero_of_not_fits (repeatFits_of_lt hno)]
    rfl
  · have run := runWritten_lensTurnEnd 0 0 true hlen h320 hfit
    rw [hexec, repeatZero_of_fits (repeatFits_of_le hfit)]
    exact ⟨_, rfl, run.lenIdx, run.lens, run.prevLen, run.prevValid, run.missing, run.complete⟩

/-- Settles O34: both symbols run `repeatZero`, 17 from 3 entries on and 18 from 11. -/
theorem repeatsOfLengthZero : Obligations.RepeatsOfLengthZero :=
  ⟨fun _ => repeatsZero_of_exec rfl (by decide) fun _ => rfl,
    fun _ => repeatsZero_of_exec rfl (by decide) fun _ => rfl⟩

end Sys2Proof.Machine

/-! Family 42_symbol_decoder: literals, end of block, length codes, distance codes and the undefined symbols
(R261 to R332). -/

namespace Sys2Proof

/-! ### The bits of a literal/length or distance symbol (R127, R137) -/

theorem encode_token {i : Instr} {sym : Nat} {bits : List Bool} (h : i.form = (.token, some sym, bits)) (c : Codes) :
    encode c i = codewordBits c.ll sym ++ bits := by
  simp [encode, h, Codes.forPhase]

theorem encode_distance {i : Instr} {ds : Nat} {bits : List Bool} (h : i.form = (.distSym, some ds, bits))
    (c : Codes) : encode c i = codewordBits c.d ds ++ bits := by
  simp [encode, h, Codes.forPhase]

theorem encode_token_alone {i : Instr} {sym : Nat} (h : i.form = (.token, some sym, [])) (c : Codes) :
    encode c i = codewordBits c.ll sym := (encode_token h c).trans (List.append_nil _)

theorem encode_distance_alone {i : Instr} {ds : Nat} (h : i.form = (.distSym, some ds, [])) (c : Codes) :
    encode c i = codewordBits c.d ds := (encode_distance h c).trans (List.append_nil _)

/-! ### Lengths and distances fit in their registers (R131, R132) -/

/-- No length code reaches beyond 258, the longest reference. -/
theorem lenBase_add_le : ∀ k < 29, lenBase.getD k 0 + 2 ^ lenXb.getD k 0 ≤ 259 := by decide

/-- No distance code reaches beyond 32768, the size of the window. -/
theorem distBase_add_le : ∀ ds < 30, distBase.getD ds 0 + 2 ^ distXb.getD ds 0 ≤ 32769 := by decide

theorem lengthOf_toNat {k x : Nat} (hk : k < 29) (hx : x < 2 ^ lenXb.getD k 0) :
    (lengthOf k x).toNat = lenBase.getD k 0 + x := by
  have hle := lenBase_add_le k hk
  exact (BitVec.toNat_ofNat _ _).trans (Nat.mod_eq_of_lt (by omega))

theorem distanceOf_toNat {ds x : Nat} (hds : ds < 30) (hx : x < 2 ^ distXb.getD ds 0) :
    (distanceOf ds x).toNat = distBase.getD ds 0 + x := by
  have hle := distBase_add_le ds hds
  exact (BitVec.toNat_ofNat _ _).trans (Nat.mod_eq_of_lt (by omega))

end Sys2Proof

namespace Sys2Proof.Machine

/-! ### LIT (R261, R360) -/

theorem emit_of_ready (b : Byte) {s : State} (h : s.outReady = true) :
    emit b s = afterEmit (takeByte (offerByte b s)) := if_pos h

theorem emit_of_not_ready (b : Byte) {s : State} (h : s.outReady = false) : emit b s = offerByte b s :=
  if_neg (Bool.eq_false_iff.1 h)

/-- Nothing follows the emission of a literal. -/
theorem afterEmit_of_token {s : State} (h : s.phase = .token) : afterEmit s = s := by
  simp [afterEmit, h]

theorem exec_lit (b : Byte) (s : State) : exec (.lit b) s = .next (emit b { s with phase := .token }) := rfl

/-- Settles O35: the byte is emitted in phase TOKEN, where nothing follows the emission. -/
theorem literalIsEmitted : Obligations.LiteralIsEmitted := by
  intro b s
  refine ⟨encode_token_alone rfl, fun hready => ?_, fun hready => ?_⟩
  · rw [exec_lit, emit_of_ready (s := { s with phase := .token }) b hready, afterEmit_of_token rfl]
    rfl
  · rw [exec_lit, emit_of_not_ready (s := { s with phase := .token }) b hready]
    rfl

/-! ### EOB (R262, R177) -/

theorem exec_eob (s : State) : exec .eob s = .next (blockEnd s) := rfl

theorem blockEnd_of_final {s : State} (h : s.bfinal = true) : blockEnd s = { s with phase := .done } := by
  simp [blockEnd, h]

theorem blockEnd_of_not_final {s : State} (h : s.bfinal = false) : blockEnd s = { s with phase := .hdr } := by
  simp [blockEnd, h]

/-- Settles O37, by the two ends of a block. -/
theorem endOfBlockEndsTheBlock : Obligations.EndOfBlockEndsTheBlock := fun s =>
  ⟨encode_token_alone rfl, fun h => by rw [exec_eob, blockEnd_of_final h],
    fun h => by rw [exec_eob, blockEnd_of_not_final h]⟩

/-! ### The length codes (R263 to R291, R294) -/

/-- An element written as symbol 257 + `k` with the extra bits of R131 that runs `lengthCode` forms the length of R131. -/
theorem formsLength_of_exec {i : Instr} {k x : Nat} (hk : k < 29)
    (hform : i.form = (.token, some (257 + k), lsbBits (lenXb.getD k 0) x)) (hx : x < 2 ^ lenXb.getD k 0)
    (hexec : ∀ s, exec i s = .next (lengthCode k x s)) :
    formsLength i k (lenXb.getD k 0) x (lenBase.getD k 0 + x) := by
  have hsym : (BitVec.ofNat 5 k).toNat = k := (BitVec.toNat_ofNat k 5).trans (Nat.mod_eq_of_lt (by omega))
  exact ⟨encode_token hform, fun s => ⟨_, hexec s, hsym, lengthOf_toNat hk hx, rfl, rfl⟩⟩

/-- Settles O38: each code runs `lengthCode` at its index, with no extra bits. -/
theorem lengthCodes257To264 : Obligations.LengthCodes257To264 := by
  refine ⟨?_, ?_, ?_, ?_, ?_, ?_, ?_, ?_⟩
  all_goals exact formsLength_of_exec (by decide) rfl (by decide) fun _ => rfl

/-- Settles O39: each code runs `lengthCode` at its index, with extra bits as wide as R131 has them. -/
theorem lengthCodes265To276 : Obligations.LengthCodes265To276 := by
  and_intros
  all_goals exact fun x => formsLength_of_exec (by decide) rfl x.isLt fun _ => rfl

/-- Settles O40: codes 277 to 284 run `lengthCode` with four or five extra bits, and code 285 with none. -/
theorem lengthCodes277To285 : Obligations.LengthCodes277To285 := by
  have h285 : formsLength .len285 28 0 0 258 := formsLength_of_exec (by decide) rfl (by decide) fun _ => rfl
  refine ⟨?_, ?_, ?_, ?_, ?_, ?_, ?_, ?_, h285⟩
  all_goals exact fun x => formsLength_of_exec (by decide) rfl x.isLt fun _ => rfl

/-! ### The distance codes (R301 to R330, R361) -/

/-- An element written as distance symbol `ds` with the extra bits of R132 that runs `distanceCode` forms the distance of
R132: its two registers are written, and then the reference check raises or begins the copy. -/
theorem formsDistance_of_exec {i : Instr} {ds x : Nat} (hds : ds < 30)
    (hform : i.form = (.distSym, some ds, lsbBits (distXb.getD ds 0) x)) (hx : x < 2 ^ distXb.getD ds 0)
    (hexec : ∀ s, exec i s = .next (distanceCode ds x s)) :
    formsDistance i ds (distXb.getD ds 0) x (distBase.getD ds 0 + x) := by
  have hsym : (BitVec.ofNat 5 ds).toNat = ds := (BitVec.toNat_ofNat ds 5).trans (Nat.mod_eq_of_lt (by omega))
  have hdist := distanceOf_toNat hds hx
  refine ⟨encode_distance hform, fun s => ⟨_, hexec s, ?_⟩⟩
  rw [distanceCode]
  rcases referenceCheck_cases { s with pendSym := BitVec.ofNat 5 ds, pendDist := distanceOf ds x } with
    ⟨hfar, h⟩ | ⟨hnear, h⟩
  · rw [hdist] at hfar
    rw [h]
    exact ⟨hsym, hdist, fun hle => absurd hfar (Nat.not_lt.2 hle), fun _ => ⟨rfl, rfl, rfl⟩, rfl⟩
  · rw [hdist] at hnear
    rw [h]
    exact ⟨hsym, hdist, fun _ => ⟨rfl, rfl, rfl⟩, fun hlt => absurd hnear (Nat.not_le.2 hlt), rfl⟩

/-- Settles O41: codes 0 to 3 run `distanceCode` with no extra bits, codes 4 to 9 with one to three. -/
theorem distanceCodes0To9 : Obligations.DistanceCodes0To9 := by
  refine ⟨?_, ?_, ?_, ?_, ?_, ?_, ?_, ?_, ?_, ?_⟩
  iterate 4 · exact formsDistance_of_exec (by decide) rfl (by decide) fun _ => rfl
  all_goals exact fun x => formsDistance_of_exec (by decide) rfl x.isLt fun _ => rfl

/-- Settles O42: each code runs `distanceCode` at its symbol, with extra bits as wide as R132 has them. -/
theorem distanceCodes10To19 : Obligations.DistanceCodes10To19 := by
  and_intros
  all_goals exact fun x => formsDistance_of_exec (by decide) rfl x.isLt fun _ => rfl

/-- Settles O43: each code runs `distanceCode` at its symbol, with extra bits as wide as R132 has them. -/
theorem distanceCodes20To29 : Obligations.DistanceCodes20To29 := by
  and_intros
  all_goals exact fun x => formsDistance_of_exec (by decide) rfl x.isLt fun _ => rfl

/-! ### The undefined symbols (R292, R293, R331, R332) -/

theorem exec_undefined_symbol {i : Instr} (hi : i ∈ [Instr.llRsv286, .llRsv287, .dRsv30, .dRsv31]) (s : State) :
    exec i s = .next (raise .invalidHuffmanCode s) := by
  simp only [List.mem_cons, List.not_mem_nil, or_false] at hi
  rcases hi with rfl | rfl | rfl | rfl
  all_goals rfl

/-- Settles O45: each of the four is its codeword alone, and its meaning is the raise. -/
theorem undefinedSymbolsRaise : Obligations.UndefinedSymbolsRaise :=
  ⟨fun c => ⟨encode_token_alone rfl c, encode_token_alone rfl c, encode_distance_alone rfl c,
    encode_distance_alone rfl c⟩,
    fun _ => exec_undefined_symbol⟩

end Sys2Proof.Machine

/-! Family 43_window: the reference check (R361) and the copy (R362, R363). -/

namespace Sys2Proof.Machine

/-! ### The reference check (R361) -/

/-- Settles O44, by the two cases of the check. -/
theorem referenceIsCheckedBeforeItIsCopied : Obligations.ReferenceIsCheckedBeforeItIsCopied := by
  intro s
  rcases referenceCheck_cases s with ⟨hfar, h⟩ | ⟨hnear, h⟩
  · exact ⟨fun _ => h, fun hle => absurd hfar (Nat.not_lt.2 hle)⟩
  · exact ⟨fun hlt => absurd hnear (Nat.not_le.2 hlt), fun _ => h⟩

/-! ### The window holds the output (R59, R60, R62, R93)

The part of `Inv` that emission may touch. It speaks of the window, its registers and the output alone, so it is kept by
every emission, whatever the engine does around it. -/

/-- The window, `hist`, `wp` and `out_count` are those of the bytes produced so far. -/
structure HoldsOutput (s : State) : Prop where
  winWf : Memory.wf s.win = true
  histEq : s.hist.toNat = min s.out.length 32768
  wpEq : s.wp.toNat = s.out.length % 32768
  outCountEq : s.outCount.toNat = s.out.length % 2 ^ 32
  window : ∀ dist, 1 ≤ dist → dist ≤ s.hist.toNat →
    Memory.read s.win ((s.wp.toNat + 32768 - dist) % 32768) = s.out[s.out.length - dist]?

theorem Inv.holdsOutput {s : State} (h : Inv s) : HoldsOutput s :=
  ⟨h.winWf, h.histEq, h.wpEq, h.outCountEq, h.window⟩

/-- The ring index `dist` behind the next write pointer is `dist - 1` behind this one. -/
theorem ringIndex_succ {wp dist : Nat} (h1 : 1 ≤ dist) (h : dist ≤ 32768) :
    ((wp + 1) % 32768 + 32768 - dist) % 32768 = (wp + 32768 - (dist - 1)) % 32768 := by omega

/-- Taking a byte appends it to the output and to the window: the byte one behind is the new one, and every other byte
is one further behind than it was. -/
theorem HoldsOutput.takeByte {s : State} (h : HoldsOutput s) : HoldsOutput (takeByte s) where
  winWf := takeByte_wf h.winWf
  histEq := by rw [takeByte_hist_toNat, h.histEq, takeByte_out, List.length_append, List.length_singleton]; omega
  wpEq := by rw [takeByte_wp_toNat, h.wpEq, takeByte_out, List.length_append, List.length_singleton]; omega
  outCountEq := by
    rw [takeByte_outCount_toNat, h.outCountEq, takeByte_out, List.length_append, List.length_singleton]; omega
  window dist h1 hd := by
    have hhist := h.histEq
    have hwp := s.wp.isLt
    rw [takeByte_hist_toNat] at hd
    rw [takeByte_wp_toNat, ringIndex_succ h1 (by omega), takeByte_read h.winWf, takeByte_out, List.length_append,
      List.length_singleton]
    obtain rfl | h2 : dist = 1 ∨ 2 ≤ dist := by omega
    · rw [if_pos (by omega), Nat.add_sub_cancel, List.getElem?_concat_length]
    · have hidx : s.out.length + 1 - dist = s.out.length - (dist - 1) := by omega
      rw [if_neg (by omega), h.window (dist - 1) (by omega) (by omega), hidx,
        List.getElem?_append_left (by omega)]

theorem HoldsOutput.offerByte {s : State} (h : HoldsOutput s) (b : Byte) : HoldsOutput (offerByte b s) :=
  ⟨h.winWf, h.histEq, h.wpEq, h.outCountEq, h.window⟩

theorem HoldsOutput.afterEmit {s : State} (h : HoldsOutput s) : HoldsOutput (afterEmit s) := by
  rw [afterEmit_frame]
  exact ⟨h.winWf, h.histEq, h.wpEq, h.outCountEq, h.window⟩

/-- R93: every emission keeps the window the record of the output, also one that the sink does not take yet. -/
theorem HoldsOutput.emit {s : State} (h : HoldsOutput s) (b : Byte) : HoldsOutput (emit b s) := by
  rcases emit_cases b s with ⟨-, he⟩ | ⟨-, he⟩ <;> rw [he]
  · exact (h.offerByte b).takeByte.afterEmit
  · exact h.offerByte b

/-- R91, R93: within the history `WinRead` gives the output byte so far behind. -/
theorem HoldsOutput.winRead {s : State} (h : HoldsOutput s) {dist : BitVec 16} (h1 : 1 ≤ dist.toNat)
    (hd : dist.toNat ≤ s.hist.toNat) : ∃ b, s.out[s.out.length - dist.toNat]? = some b ∧ winRead dist s = .ok b := by
  have hwindow := h.window dist.toNat h1 hd
  have hhist := h.histEq
  rcases winRead_cases dist s with ⟨hbad, -⟩ | ⟨-, -, ⟨b, hread, hw⟩ | ⟨hread, -⟩⟩
  · omega
  · exact ⟨b, hwindow.symm.trans hread, hw⟩
  · have hnone := List.getElem?_eq_none_iff.1 (hwindow.symm.trans hread)
    omega

/-! ### A byte of a copy is emitted (R362) -/

theorem emit_of_copy_last (b : Byte) {s : State} (hready : s.outReady = true) (hp : s.phase = .copy)
    (h : s.copyRem.toNat = 1) : emit b s = { takeByte (offerByte b s) with copyRem := 0, phase := .token } := by
  obtain h : s.copyRem = 1 := BitVec.eq_of_toNat_eq h
  simp [emit_of_ready b hready, afterEmit, hp, h]

theorem emit_of_copy_more (b : Byte) {s : State} (hready : s.outReady = true) (hp : s.phase = .copy)
    (h : 2 ≤ s.copyRem.toNat) : emit b s = { takeByte (offerByte b s) with copyRem := s.copyRem - 1 } := by
  have hne : s.copyRem - 1 ≠ 0 := by bv_omega
  simp only [emit_of_ready b hready, afterEmit, takeByte_phase, takeByte_copyRem, offerByte_phase,
    offerByte_copyRem, hp]
  exact if_neg hne

/-! ### One turn of the copy, with the sink ready (R362) -/

/-- The copy loop's invariant: the reference lies within the history, and bytes are left. -/
structure InCopy (s : State) : Prop where
  output : HoldsOutput s
  rst : s.rst = false
  outValid : s.outValid = false
  outReady : s.outReady = true
  phase : s.phase = .copy
  left : 1 ≤ s.copyRem.toNat
  distPos : 1 ≤ s.pendDist.toNat
  distLe : s.pendDist.toNat ≤ s.hist.toNat

/-- A turn emits the byte `pend_dist` behind the output. -/
theorem InCopy.step_eq {s : State} (h : InCopy s) :
    ∃ b, s.out[s.out.length - s.pendDist.toNat]? = some b ∧ step s = .next (emit b s) := by
  obtain ⟨b, hb, hw⟩ := h.output.winRead h.distPos h.distLe
  have hleft : s.copyRem ≠ 0 := fun h0 => absurd h.left (by simp [h0])
  refine ⟨b, hb, ?_⟩
  calc step s = copyStep s := by simp [step, h.rst, h.outValid, h.phase]
    _ = .next (emit b s) := by rw [copyStep, if_neg hleft, hw]

/-- While more than one byte is left, a turn stays in the loop, and the reference still lies within the history. -/
theorem InCopy.emit {s : State} (h : InCopy s) (b : Byte) (hmore : 2 ≤ s.copyRem.toNat) : InCopy (emit b s) := by
  have hout := h.output.emit b
  have hle := h.distLe
  have hhist := h.output.histEq
  have hhist' := takeByte_hist_toNat (offerByte b s)
  rw [offerByte_hist] at hhist'
  rw [emit_of_copy_more b h.outReady h.phase hmore] at hout ⊢
  refine ⟨hout, h.rst, rfl, h.outReady, h.phase, ?_, h.distPos, ?_⟩
  · show 1 ≤ (s.copyRem - 1).toNat
    bv_omega
  · show s.pendDist.toNat ≤ (takeByte (offerByte b s)).hist.toNat
    omega

/-! ### Periodic repetition (R363) -/

/-- `ys` is `xs` with bytes appended, each of which equals the byte `d` before it in `ys`. -/
def RepeatsBehind (d : Nat) (xs ys : List Byte) : Prop :=
  xs <+: ys ∧ ∀ i, xs.length ≤ i → i < ys.length → ys[i]? = ys[i - d]?

theorem RepeatsBehind.concat {d : Nat} {xs : List Byte} {b : Byte} (h : xs[xs.length - d]? = some b) :
    RepeatsBehind d xs (xs ++ [b]) := by
  refine ⟨List.prefix_append _ _, fun i hle hlt => ?_⟩
  obtain rfl : i = xs.length := by simp at hlt; omega
  obtain ⟨hbehind, -⟩ := List.getElem?_eq_some_iff.1 h
  rw [List.getElem?_concat_length, List.getElem?_append_left hbehind, h]

/-- Bytes repeated from `xs`, then from what that gave, are repeated from `xs`: later bytes change no earlier one. -/
theorem RepeatsBehind.trans {d : Nat} {xs ys zs : List Byte} (h : RepeatsBehind d xs ys)
    (h' : RepeatsBehind d ys zs) : RepeatsBehind d xs zs := by
  obtain ⟨hpre, hrep⟩ := h
  obtain ⟨⟨ws, rfl⟩, hrep'⟩ := h'
  refine ⟨hpre.trans (List.prefix_append _ _), fun i hle hlt => ?_⟩
  rcases Nat.lt_or_ge i ys.length with hi | hi
  · rw [List.getElem?_append_left hi, List.getElem?_append_left (by omega), hrep i hle hi]
  · exact hrep' i hi hlt

/-! ### The whole copy (R362, R363) -/

theorem run_succ_of_next {M : Host.Core} {s t : M.State} (h : M.step s = .next t) (n : Nat) :
    M.run (n + 1) s = M.run n t := by
  rw [Host.Core.run, h]

/-- The loop runs one turn for each byte left, and the output repeats behind itself turn by turn. -/
theorem run_of_inCopy (n : Nat) : ∀ {s : State}, InCopy s → s.copyRem.toNat = n + 1 →
    ∃ t, Sys2Proof.core.run (n + 1) s = .next t ∧ t.phase = .token ∧ t.out.length = s.out.length + (n + 1) ∧
      RepeatsBehind s.pendDist.toNat s.out t.out := by
  induction n with
  | zero =>
    intro s h hrem
    obtain ⟨b, hb, hstep⟩ := h.step_eq
    rw [emit_of_copy_last b h.outReady h.phase hrem] at hstep
    exact ⟨_, run_succ_of_next (M := Sys2Proof.core) hstep 0, rfl, List.length_append, .concat hb⟩
  | succ n ih =>
    intro s h hrem
    obtain ⟨b, hb, hstep⟩ := h.step_eq
    have hnext := emit_of_copy_more b h.outReady h.phase (by omega)
    have hrem' : (emit b s).copyRem.toNat = n + 1 := by
      rw [hnext]
      show (s.copyRem - 1).toNat = n + 1
      bv_omega
    obtain ⟨t, hrun, hphase, hlen, hrep⟩ := ih (h.emit b (by omega)) hrem'
    obtain ⟨hout, hdist⟩ : (emit b s).out = s.out ++ [b] ∧ (emit b s).pendDist = s.pendDist := by
      rw [hnext]; exact ⟨rfl, rfl⟩
    rw [hout, List.length_append, List.length_singleton] at hlen
    rw [hout, hdist] at hrep
    exact ⟨t, (run_succ_of_next (M := Sys2Proof.core) hstep _).trans hrun, hphase, by omega,
      (RepeatsBehind.concat hb).trans hrep⟩

/-- Settles O52: the invariant puts the engine in the copy loop, and the loop repeats the output behind itself. -/
theorem copyIsThePeriodicRepetition : Obligations.CopyIsThePeriodicRepetition := by
  intro s hinv hrst hvalid hphase hready
  obtain ⟨hleft, -, hdistPos, hdistLe⟩ := hinv.copying hphase
  obtain ⟨n, hn⟩ := Nat.exists_eq_add_of_le' hleft
  obtain ⟨t, hrun, htoken, hlen, hpre, hrep⟩ :=
    run_of_inCopy n ⟨hinv.holdsOutput, hrst, hvalid, hready, hphase, hleft, hdistPos, hdistLe⟩ hn
  rw [hn]
  exact ⟨t, hrun, htoken, hlen, hpre, fun k hk => hrep _ (by omega) (by omega)⟩

end Sys2Proof.Machine

/-! Family 44_stored_block: the header's check of LEN against NLEN (R394, R396). -/

namespace Sys2Proof.Machine

theorem exec_stHeader (len nlen : BitVec 16) (s : State) :
    exec (.stHeader len nlen) s = execStHeader len nlen s := rfl

/-! ### What ST_HEADER does in each of its three cases -/

theorem execStHeader_of_nonempty {len nlen : BitVec 16} (hok : nlen = ~~~len) (hlen : len ≠ 0) (s : State) :
    execStHeader len nlen s =
      .next { s with storedLen := len, storedNlen := nlen, storedRem := len, phase := .storedCopy } := by
  rw [execStHeader, if_pos hok, if_neg hlen]

theorem execStHeader_of_empty {len nlen : BitVec 16} (hok : nlen = ~~~len) (hlen : len = 0) (s : State) :
    execStHeader len nlen s =
      .next (blockEnd { s with storedLen := len, storedNlen := nlen, storedRem := len }) := by
  rw [execStHeader, if_pos hok, if_pos hlen]

theorem execStHeader_of_mismatch {len nlen : BitVec 16} (hbad : nlen ≠ ~~~len) (s : State) :
    execStHeader len nlen s =
      .next (raise .storedBlockLengthMismatch { s with storedLen := len, storedNlen := nlen }) := by
  rw [execStHeader, if_neg hbad]

/-- Settles O46, by the three cases of the header; an empty block's end leaves `stored_rem` at LEN, which is 0. -/
theorem storedHeaderChecksItsLengths : Obligations.StoredHeaderChecksItsLengths := by
  intro len nlen s
  rw [exec_stHeader]
  refine ⟨fun hok hlen => execStHeader_of_nonempty hok hlen s, fun hok hlen => ?_,
    fun hbad => execStHeader_of_mismatch hbad s⟩
  rw [execStHeader_of_empty hok hlen, hlen]
  rfl

end Sys2Proof.Machine

/-! Family 60_exceptions: the priority of the input signals when a byte is needed (R432). -/

namespace Sys2Proof.Machine

/-! ### What `FetchByte` does with each kind of cycle but an offered byte (`fetchByte_of_offered`) -/

theorem fetchByte_of_source_error {s : State} {p : InSample} {rest : List InSample} (hs : s.src = p :: rest)
    (herr : p.inErr = true) : fetchByte s = .raised .sourceError s := by
  simp [fetchByte, hs, herr]

theorem fetchByte_of_end {s : State} {p : InSample} {rest : List InSample} (hs : s.src = p :: rest)
    (herr : p.inErr = false) (hvalid : p.inValid = false) (hend : p.inEnd = true) :
    fetchByte s = .raised .unexpectedEndOfInput s := by
  simp [fetchByte, hs, herr, hvalid, hend]

/-- A cycle with no signal high is a stall, and it leaves the list (R81). -/
theorem fetchByte_of_idle {s : State} {p : InSample} {rest : List InSample} (hs : s.src = p :: rest)
    (herr : p.inErr = false) (hvalid : p.inValid = false) (hend : p.inEnd = false) :
    fetchByte s = .wait { s with src := rest } := by
  simp [fetchByte, hs, herr, hvalid, hend]

/-- Settles O9, by the four kinds of cycle in the order of their priority. -/
theorem inputSignalsHaveAPriority : Obligations.InputSignalsHaveAPriority := by
  intro s p rest hs
  split_ifs with herr hvalid hend
  · exact fetchByte_of_source_error hs herr
  · exact fetchByte_of_offered hs hvalid (eq_false_of_ne_true herr)
  · exact fetchByte_of_end hs (eq_false_of_ne_true herr) (eq_false_of_ne_true hvalid) hend
  · exact fetchByte_of_idle hs (eq_false_of_ne_true herr) (eq_false_of_ne_true hvalid) (eq_false_of_ne_true hend)

end Sys2Proof.Machine

/-! Family 70_reset_and_hazards: DONE and ERROR are left by reset alone (R476). -/

namespace Sys2Proof.Machine

/-! ### The phases without input: `in_ready` is low, and of them only COPY moves -/

theorem inReady_eq_false_of_not_readsInput {s : State} (h : readsInput s.phase = false) : inReady s = false := by
  simp [inReady, h]

theorem readsInput_of_done_or_error {p : Phase} (h : p = .done ∨ p = .error) : readsInput p = false := by
  rcases h with rfl | rfl <;> rfl

theorem step_of_done_or_error {s : State} (hr : s.rst = false) (ho : s.outValid = false)
    (hp : s.phase = .done ∨ s.phase = .error) : step s = .next s := by
  rcases hp with hp | hp
  · simp [step, hr, ho, hp]
  · simp [step, hr, ho, hp]

/-- Settles O2: neither phase has a rule that changes the state, and neither reads the input. -/
theorem doneAndErrorAreIdle : Obligations.DoneAndErrorAreIdle := by
  intro s hr ho hp
  exact ⟨step_of_done_or_error hr ho hp, inReady_eq_false_of_not_readsInput (readsInput_of_done_or_error hp)⟩

end Sys2Proof.Machine

/-! Family other: canonical codes. No codeword of a built code begins another, and its codewords are those of R202. -/

namespace Sys2Proof

/-! ### The table `next` of the statements is the one of the laws (R202) -/

theorem countLen_eq_countP (L : List (BitVec 4)) (b : Nat) : countLen L b = L.countP fun l => l.toNat == b :=
  List.countP_eq_length_filter.symm

theorem firstCodeword_eq_firstCode (L : List (BitVec 4)) (b : Nat) : firstCodeword L b = firstCode L b := by
  induction b with
  | zero => rfl
  | succ b ih => simp only [firstCodeword, firstCode, ih, countLen_eq_countP]

/-- If no symbol between `a` and `b` has the length of symbol `a`, one symbol more of that length stands before `b`. -/
theorem countLen_take_of_next {L : List (BitVec 4)} {a b : Nat} {l : BitVec 4} (hab : a < b) (ha : L[a]? = some l)
    (hbetween : ∀ k u, a < k → k < b → L[k]? = some u → u ≠ l) :
    countLen (L.take b) l.toNat = countLen (L.take a) l.toNat + 1 := by
  induction b, hab using Nat.le_induction with
  | base => simp [List.take_add_one, ha, countLen_append, countLen_cons]
  | succ b hle ih =>
    have hlast : countLen L[b]?.toList l.toNat = 0 := by
      cases hb : L[b]? with
      | none => rfl
      | some u =>
        have hne : u.toNat ≠ l.toNat := fun he => hbetween b u hle (by omega) hb (BitVec.eq_of_toNat_eq he)
        simp [countLen_cons, hne]
    rw [List.take_add_one, countLen_append, hlast, Nat.add_zero]
    exact ih fun k u hk hkb => hbetween k u hk (by omega)

/-! ### Two codewords of a built code (R202, R203) -/

section
variable {maxbits : Nat} {L : List (BitVec 4)} {T : Code} (hL : ∀ l ∈ L, l.toNat ≤ maxbits)
  (h : build maxbits L = some T)
include hL h

theorem build_lens : T.map (fun w => w.len) = L := by
  apply List.ext_getElem?
  intro s
  cases hs : T[s]? with
  | none =>
    have hle := List.getElem?_eq_none_iff.1 hs
    rw [build_length h] at hle
    simp [hs, List.getElem?_eq_none hle]
  | some w => rw [List.getElem?_map, hs, (build_getElem? hL h hs).1, Option.map_some]

theorem build_code {s : Nat} {w : Codeword} (hw : T[s]? = some w) (h0 : w.len ≠ 0) :
    w.code.toNat = firstCode L w.len.toNat + countLen (L.take s) w.len.toNat :=
  ((build_getElem? hL h hw).2.2 h0).1

theorem build_fits : T.fits := by
  intro w hw
  obtain ⟨s, hs⟩ := List.mem_iff_getElem?.1 hw
  obtain ⟨-, hunused, hused⟩ := build_getElem? hL h hs
  by_cases h0 : w.len = 0
  · simp [hunused h0, h0]
  · obtain ⟨-, hlt, hle⟩ := hused h0
    omega

/-- Of two symbols of one length, the later one has the larger codeword. -/
theorem build_code_lt_of_same_length {a b : Nat} {v w : Codeword} (hab : a < b) (hv : T[a]? = some v)
    (hw : T[b]? = some w) (hlen : v.len = w.len) (h0 : v.len ≠ 0) : v.code.toNat < w.code.toNat := by
  have hmono := countLen_take_mono hab (build_getElem? hL h hv).1
  rw [build_code hL h hv h0, build_code hL h hw (hlen ▸ h0), ← hlen]
  omega

/-- A codeword is numerically above every shorter one, compared with its own beginning of that size. -/
theorem build_code_lt_of_shorter {a b : Nat} {v w : Codeword} (hv : T[a]? = some v) (hw : T[b]? = some w)
    (h0 : v.len ≠ 0) (hlt : v.len.toNat < w.len.toNat) :
    v.code.toNat < w.code.toNat / 2 ^ (w.len.toNat - v.len.toNat) := by
  have h1 : 1 ≤ v.len.toNat := Nat.pos_of_ne_zero fun he => h0 (BitVec.eq_of_toNat_eq he)
  have hw0 : w.len ≠ 0 := fun he => by simp [he] at hlt
  obtain ⟨k, hk⟩ : ∃ k, w.len.toNat = v.len.toNat + (k + 1) := ⟨w.len.toNat - v.len.toNat - 1, by omega⟩
  have hmono := firstCode_mono L h1 k
  have hvlt := ((build_getElem? hL h hv).2.2 h0).2.1
  have hwge := build_code hL h hw hw0
  rw [← hk] at hmono
  rw [show w.len.toNat - v.len.toNat = k + 1 by omega]
  refine Nat.lt_of_lt_of_le hvlt ((Nat.le_div_iff_mul_le (by positivity)).2 ?_)
  omega

/-- If a codeword begins another one, they have the same length: a longer one lies above all its extensions. -/
theorem build_length_eq_of_prefix {a b : Nat} {v w : Codeword} (hv : T[a]? = some v) (hw : T[b]? = some w)
    (h0 : v.len ≠ 0) (hp : codewordBits T a <+: codewordBits T b) : v.len = w.len ∧ v.code.toNat = w.code.toNat := by
  have hfits := build_fits hL h
  simp only [codewordBits, hv, hw] at hp
  obtain ⟨hle, hdiv⟩ :=
    (msbBits_prefix (hfits v (List.mem_of_getElem? hv)) (hfits w (List.mem_of_getElem? hw))).1 hp
  rcases Nat.eq_or_lt_of_le hle with heq | hlt
  · rw [heq, Nat.sub_self, pow_zero, Nat.div_one] at hdiv
    exact ⟨BitVec.eq_of_toNat_eq heq, hdiv.symm⟩
  · have := build_code_lt_of_shorter hL h hv hw h0 hlt
    omega

theorem build_prefixFree : T.prefixFree := by
  intro a b ha hb hp
  obtain ⟨v, hv, hv0⟩ := hasCodeword_iff.1 ha
  obtain ⟨w, hw, hw0⟩ := hasCodeword_iff.1 hb
  obtain ⟨hlen, hcode⟩ := build_length_eq_of_prefix hL h hv hw hv0 hp
  rcases Nat.lt_trichotomy a b with hab | hab | hab
  · have := build_code_lt_of_same_length hL h hab hv hw hlen hv0
    omega
  · exact hab
  · have := build_code_lt_of_same_length hL h hab hw hv hlen.symm hw0
    omega

theorem build_ok : T.ok := ⟨build_fits hL h, build_prefixFree hL h⟩

end

/-- Settles O25: codewords of one length are numbered apart, and a longer one begins with none of the shorter. -/
theorem builtCodesArePrefixFree : Obligations.BuiltCodesArePrefixFree := fun _ _ _ => build_ok

/-- Settles O26, by the entry that `Build` gives each symbol. -/
theorem codewordsOfOneLengthAreConsecutive : Obligations.CodewordsOfOneLengthAreConsecutive := by
  intro maxbits L T hL h
  refine ⟨build_lens hL h, fun s w hw h0 => ?_, fun a b v w hab hv hw hlen h0 hbetween => ?_,
    fun a b v w hv hw h0 hlt => ?_⟩
  · rw [firstCodeword_eq_firstCode, ← countLen_eq_countP]
    exact build_code hL h hw h0
  · have hnext : countLen (L.take b) v.len.toNat = countLen (L.take a) v.len.toNat + 1 := by
      refine countLen_take_of_next hab (build_getElem? hL h hv).1 fun k u hak hkb hu => ?_
      have hk : k < T.length := by
        rw [build_length h]; exact (List.getElem?_eq_some_iff.1 hu).1
      have hT : T[k]? = some T[k] := List.getElem?_eq_getElem hk
      obtain rfl : u = T[k].len := Option.some.inj (hu.symm.trans (build_getElem? hL h hT).1)
      exact hbetween k _ hak hkb hT
    rw [build_code hL h hw (hlen ▸ h0), build_code hL h hv h0, ← hlen, hnext, Nat.add_assoc]
  · rw [Nat.shiftRight_eq_div_pow]
    exact build_code_lt_of_shorter hL h hv hw h0 hlt

end Sys2Proof

/-! Family other: the meanings of the elements, sorted by the operation they run, and what every one of them leaves
unchanged. -/

namespace Sys2Proof

/-! ### An element's symbol and extra bits (R127, R131, R132) -/

@[simp] theorem lsbBits_toNat_ofNat (n v : Nat) : lsbBits n (BitVec.ofNat n v).toNat = lsbBits n v := by
  rw [BitVec.toNat_ofNat, lsbBits_mod]

/-- The length code of index `k` is written as symbol 257 + `k` and the extra bits of R131. -/
theorem lenInstr_written {k v : Nat} {i : Instr} (h : lenInstr k v = some i) :
    k < 29 ∧ i.form = (.token, some (257 + k), lsbBits (lenXb.getD k 0) v) := by
  unfold lenInstr at h
  split at h
  all_goals cases h
  all_goals exact ⟨by decide, by simp only [Instr.form, lsbBits_toNat_ofNat]; rfl⟩

/-- The distance code `ds` is written as its symbol and the extra bits of R132. -/
theorem distInstr_written {ds v : Nat} {i : Instr} (h : distInstr ds v = some i) :
    ds < 30 ∧ i.form = (.distSym, some ds, lsbBits (distXb.getD ds 0) v) := by
  unfold distInstr at h
  split at h
  all_goals cases h
  all_goals exact ⟨by decide, by simp only [Instr.form, lsbBits_toNat_ofNat]; rfl⟩

end Sys2Proof

namespace Sys2Proof.Machine

/-! ### The meanings, by the operation they run -/

/-- What an element's meaning is. The code-length symbols, the 29 length codes, the 30 distance codes and the four
undefined symbols are one case each. -/
inductive Meaning : Instr → Prop
  | bhStored (f : Bool) : Meaning (.bhStored f)
  | bhFixed (f : Bool) : Meaning (.bhFixed f)
  | bhDynamic (f : Bool) : Meaning (.bhDynamic f)
  | bhReserved (f : Bool) : Meaning (.bhReserved f)
  | dynHeader (hlit hdist : BitVec 5) (hclen : BitVec 4) : Meaning (.dynHeader hlit hdist hclen)
  | clCodeLength (len : BitVec 3) : Meaning (.clCodeLength len)
  | lens {i : Instr} (hphase : i.form.1 = .dynLens) : Meaning i
  | lit (b : Byte) : Meaning (.lit b)
  | eob : Meaning .eob
  | length {i : Instr} (k x : Nat) (hx : x < 2 ^ lenXb.getD k 0) (hinstr : lenInstr k x = some i)
      (hexec : ∀ s, exec i s = .next (lengthCode k x s)) : Meaning i
  | distance {i : Instr} (ds x : Nat) (hx : x < 2 ^ distXb.getD ds 0) (hinstr : distInstr ds x = some i)
      (hexec : ∀ s, exec i s = .next (distanceCode ds x s)) : Meaning i
  | undefined {i : Instr} (hi : i ∈ [Instr.llRsv286, .llRsv287, .dRsv30, .dRsv31]) : Meaning i
  | stHeader (len nlen : BitVec 16) : Meaning (.stHeader len nlen)
  | stData (b : Byte) : Meaning (.stData b)

theorem meaning (i : Instr) : Meaning i := by
  cases i
  case bhStored f => exact .bhStored f
  case bhFixed f => exact .bhFixed f
  case bhDynamic f => exact .bhDynamic f
  case bhReserved f => exact .bhReserved f
  case dynHeader hlit hdist hclen => exact .dynHeader hlit hdist hclen
  case clCodeLength len => exact .clCodeLength len
  case clLen | clRepPrev | clRepZ3 | clRepZ11 => exact .lens rfl
  case lit b => exact .lit b
  case eob => exact .eob
  case llRsv286 | llRsv287 | dRsv30 | dRsv31 => exact .undefined (by simp)
  case stHeader len nlen => exact .stHeader len nlen
  case stData b => exact .stData b
  case len257 | len258 | len259 | len260 | len261 | len262 | len263 | len264 | len285 =>
    refine .length _ _ ?_ ?_ fun _ => rfl
    · decide
    · rfl
  case dist0 | dist1 | dist2 | dist3 =>
    refine .distance _ _ ?_ ?_ fun _ => rfl
    · decide
    · rfl
  case len265 x | len266 x | len267 x | len268 x | len269 x | len270 x | len271 x | len272 x | len273 x | len274 x |
      len275 x | len276 x | len277 x | len278 x | len279 x | len280 x | len281 x | len282 x | len283 x | len284 x =>
    refine .length _ _ ?_ ?_ fun _ => rfl
    · exact x.isLt
    · simp only [lenInstr, BitVec.ofNat_toNat, BitVec.setWidth_eq]
  case dist4 x | dist5 x | dist6 x | dist7 x | dist8 x | dist9 x | dist10 x | dist11 x | dist12 x | dist13 x |
      dist14 x | dist15 x | dist16 x | dist17 x | dist18 x | dist19 x | dist20 x | dist21 x | dist22 x | dist23 x |
      dist24 x | dist25 x | dist26 x | dist27 x | dist28 x | dist29 x =>
    refine .distance _ _ ?_ ?_ fun _ => rfl
    · exact x.isLt
    · simp only [distInstr, BitVec.ofNat_toNat, BitVec.setWidth_eq]

/-! ### The meanings that have cases -/

/-- The counts are written, and then StrictCheck raises or DYN_CLL begins (R211, R212). -/
theorem exec_dynHeader_cases (hlit hdist : BitVec 5) (hclen : BitVec 4) (s : State) :
    exec (.dynHeader hlit hdist hclen) s = .next (raise .invalidDynamicTableDescription
      { s with hlit := hlitCount hlit, hdist := hdistCount hdist, hclen := hclenCount hclen }) ∨
    exec (.dynHeader hlit hdist hclen) s = .next { s with
      hlit := hlitCount hlit, hdist := hdistCount hdist, hclen := hclenCount hclen, clIdx := 0, phase := .dynCll } := by
  rw [show exec (.dynHeader hlit hdist hclen) s = execDynHeader hlit hdist hclen s from rfl, execDynHeader]
  dsimp only
  split
  · exact .inl rfl
  · exact .inr rfl

/-- The entry is written, and then fields are left or the code-length code is built (R213, R214). -/
theorem exec_clCodeLength_cases (len : BitVec 3) (s : State) :
    (s.clIdx + 1 < s.hclen ∧ exec (.clCodeLength len) s = .next
      { s with clLen := s.clLen.set (clOrder.getD s.clIdx.toNat 19) len, clIdx := s.clIdx + 1 }) ∨
    exec (.clCodeLength len) s = .next (buildCl
      { s with clLen := s.clLen.set (clOrder.getD s.clIdx.toNat 19) len, clIdx := s.clIdx + 1 }) := by
  rw [show exec (.clCodeLength len) s = execClCodeLength len s from rfl, execClCodeLength]
  dsimp only
  split
  case isTrue h => exact .inl ⟨h, rfl⟩
  case isFalse h => exact .inr rfl

/-- A code-length symbol raises, or writes a run of at least one entry, which becomes the previous length, and ends the
turn (R215 to R220). A run of more than one entry has been checked to fit. -/
theorem exec_lens_cases {i : Instr} (h : i.form.1 = .dynLens) (s : State) :
    exec i s = .next (raise .invalidDynamicTableDescription s) ∨
    ∃ n v, 1 ≤ n ∧ (n = 1 ∨ repeatFits n s = true) ∧
      exec i s = .next (lensTurnEnd { writeLens n v s with prevLen := v, prevValid := true }) := by
  have zeros (r : Nat) (hr : 1 ≤ r) (he : exec i s = .next (repeatZero r s)) :
      exec i s = .next (raise .invalidDynamicTableDescription s) ∨
      ∃ n v, 1 ≤ n ∧ (n = 1 ∨ repeatFits n s = true) ∧
        exec i s = .next (lensTurnEnd { writeLens n v s with prevLen := v, prevValid := true }) := by
    rcases repeatZero_cases r s with ⟨hfits, hz⟩ | ⟨-, hz⟩
    · exact .inr ⟨r, 0, hr, .inr hfits, by rw [he, hz]⟩
    · exact .inl (by rw [he, hz])
  cases i
  case clLen sym => exact .inr ⟨1, sym, Nat.le_refl 1, .inl rfl, rfl⟩
  case clRepPrev x =>
    cases hv : s.prevValid
    · exact .inl (exec_clRepPrev_of_no_previous x hv)
    · cases hfits : repeatFits (repeat3 x.toNat) s
      · exact .inl (exec_clRepPrev_of_not_fits hv hfits)
      · have hrun := exec_clRepPrev_of_fits hv hfits
        rw [hv] at hrun
        exact .inr ⟨repeat3 x.toNat, s.prevLen, by simp only [repeat3]; omega, .inr hfits, hrun⟩
  case clRepZ3 x => exact zeros (repeat3 x.toNat) (by simp only [repeat3]; omega) rfl
  case clRepZ11 x => exact zeros (repeat11 x.toNat) (by simp only [repeat11]; omega) rfl
  all_goals cases h

/-- The header's three cases (R394, R396). -/
theorem exec_stHeader_cases (len nlen : BitVec 16) (s : State) :
    (len ≠ 0 ∧ exec (.stHeader len nlen) s = .next
      { s with storedLen := len, storedNlen := nlen, storedRem := len, phase := .storedCopy }) ∨
    exec (.stHeader len nlen) s = .next (blockEnd
      { s with storedLen := len, storedNlen := nlen, storedRem := len }) ∨
    exec (.stHeader len nlen) s = .next (raise .storedBlockLengthMismatch
      { s with storedLen := len, storedNlen := nlen }) := by
  rw [exec_stHeader]
  by_cases hok : nlen = ~~~len
  · by_cases hlen : len = 0
    · exact .inr (.inl (execStHeader_of_empty hok hlen s))
    · exact .inl ⟨hlen, execStHeader_of_nonempty hok hlen s⟩
  · exact .inr (.inr (execStHeader_of_mismatch hok s))

/-! ### What no meaning writes: the input side, the element's own bits, the pins and the parameter -/

/-- `t` agrees with `s` on the byte buffer, `in_count`, the source's cycles, the codeword registers, `part`, `fld`, the
pins and the parameter. -/
structure SameInput (s t : State) : Prop where
  bitbuf : t.bitbuf = s.bitbuf
  bitcnt : t.bitcnt = s.bitcnt
  inCount : t.inCount = s.inCount
  src : t.src = s.src
  curCode : t.curCode = s.curCode
  curLen : t.curLen = s.curLen
  part : t.part = s.part
  fld : t.fld = s.fld
  rst : t.rst = s.rst
  outReady : t.outReady = s.outReady
  cfg : t.cfg = s.cfg

theorem SameInput.trans {s t u : State} (h : SameInput s t) (h' : SameInput t u) : SameInput s u where
  bitbuf := h'.bitbuf.trans h.bitbuf
  bitcnt := h'.bitcnt.trans h.bitcnt
  inCount := h'.inCount.trans h.inCount
  src := h'.src.trans h.src
  curCode := h'.curCode.trans h.curCode
  curLen := h'.curLen.trans h.curLen
  part := h'.part.trans h.part
  fld := h'.fld.trans h.fld
  rst := h'.rst.trans h.rst
  outReady := h'.outReady.trans h.outReady
  cfg := h'.cfg.trans h.cfg

theorem SameInput.refl (s : State) : SameInput s s := by constructor <;> rfl

theorem raise_sameInput (e : ErrCode) (s : State) : SameInput s (raise e s) := by constructor <;> rfl

theorem phase_sameInput (ph : Phase) (s : State) : SameInput s { s with phase := ph } := by constructor <;> rfl

theorem sinkCycle_sameInput (s : State) : SameInput s (sinkCycle s) := by
  rcases sinkCycle_cases s with ⟨-, h⟩ | ⟨-, h⟩ <;> rw [h]
  · rw [afterEmit_frame]; constructor <;> rfl
  · exact .refl s

theorem emit_sameInput (b : Byte) (s : State) : SameInput s (emit b s) :=
  SameInput.trans (t := offerByte b s) (by constructor <;> rfl) (sinkCycle_sameInput _)

theorem copyStep_sameInput {s t : State} (h : copyStep s = .next t) : SameInput s t := by
  rcases copyStep_cases s with ⟨-, hc⟩ | ⟨-, b, -, hc⟩ | ⟨-, f, -, hc⟩ <;> rw [hc] at h <;> cases h
  · exact phase_sameInput _ s
  · exact emit_sameInput b s

theorem buildCl_sameInput (s : State) : SameInput s (buildCl s) := by
  rcases buildCl_cases s with ⟨-, h⟩ | ⟨T, -, h⟩ <;> rw [h] <;> constructor <;> rfl

theorem lensTurnEnd_sameInput (s : State) : SameInput s (lensTurnEnd s) := by
  rcases lensTurnEnd_cases s with ⟨-, h⟩ | ⟨-, h⟩ <;> rw [h]
  · exact .refl s
  · rw [buildBlockCodes_splitLens_frame]; constructor <;> rfl

theorem writeLens_sameInput (n : Nat) (v : BitVec 4) (s : State) : SameInput s (writeLens n v s) := by
  rw [writeLens_frame]; constructor <;> rfl

theorem lensTurn_sameInput (n : Nat) (v prev : BitVec 4) (s : State) :
    SameInput s (lensTurnEnd { writeLens n v s with prevLen := prev, prevValid := true }) := by
  refine ((writeLens_sameInput n v s).trans ?_).trans (lensTurnEnd_sameInput _)
  constructor <;> rfl

theorem distanceCode_sameInput (ds x : Nat) (s : State) : SameInput s (distanceCode ds x s) := by
  unfold distanceCode
  rcases referenceCheck_cases { s with pendSym := BitVec.ofNat 5 ds, pendDist := distanceOf ds x } with
    ⟨-, h⟩ | ⟨-, h⟩ <;> rw [h] <;> constructor <;> rfl

theorem exec_sameInput {i : Instr} {s t : State} (h : exec i s = .next t) : SameInput s t := by
  cases meaning i
  case bhStored | bhFixed | bhDynamic | bhReserved | eob => cases h; constructor <;> rfl
  case dynHeader hlit hdist hclen =>
    rcases exec_dynHeader_cases hlit hdist hclen s with he | he <;> rw [he] at h <;> cases h <;> constructor <;> rfl
  case clCodeLength len =>
    rcases exec_clCodeLength_cases len s with ⟨-, he⟩ | he <;> rw [he] at h <;> cases h
    · constructor <;> rfl
    · refine SameInput.trans ?_ (buildCl_sameInput _)
      constructor <;> rfl
  case lens hphase =>
    rcases exec_lens_cases hphase s with he | ⟨n, v, -, -, he⟩ <;> rw [he] at h <;> cases h
    · exact raise_sameInput _ s
    · exact lensTurn_sameInput n v v s
  case lit b | stData b => cases h; exact (phase_sameInput _ s).trans (emit_sameInput b _)
  case length k x hx hinstr hexec => rw [hexec] at h; cases h; constructor <;> rfl
  case distance ds x hx hinstr hexec => rw [hexec] at h; cases h; exact distanceCode_sameInput ds x s
  case undefined hi => rw [exec_undefined_symbol hi] at h; cases h; exact raise_sameInput _ s
  case stHeader len nlen =>
    rcases exec_stHeader_cases len nlen s with ⟨-, he⟩ | he | he <;> rw [he] at h <;> cases h <;> constructor <;> rfl

/-- No element's meaning is a fault or a refusal. -/
theorem exec_next (i : Instr) (s : State) : ∃ t, exec i s = .next t := by
  rcases exec_output_cases i s with ⟨b, ph, h⟩ | ⟨t, h, -⟩
  · exact ⟨_, h⟩
  · exact ⟨t, h⟩

end Sys2Proof.Machine

/-! Family other: what one step can do, and the statements about single steps, registers and window entries. -/

/-! ### Fields (R11, R83) -/

namespace Sys2Proof

theorem lsbBits_getElem? {n k : Nat} (hk : k < n) (v : Nat) : (lsbBits n v)[k]? = some (v.testBit k) := by
  induction n generalizing k v with
  | zero => omega
  | succ n ih =>
    rw [lsbBits_succ]
    cases k with
    | zero => rw [List.getElem?_cons_zero, Nat.testBit_zero, Bool.beq_eq_decide_eq]
    | succ k => rw [List.getElem?_cons_succ, ih (by omega), Nat.testBit_succ]

/-- Settles O15: the bits of a field are those of its value, from bit 0 on. -/
theorem fieldsAreReadLeastSignificantFirst : Obligations.FieldsAreReadLeastSignificantFirst := fun n v hv =>
  ⟨lsbBits_length n v, (bitsToNat_lsbBits n v).trans (Nat.mod_eq_of_lt hv), fun _ hk => lsbBits_getElem? hk v⟩

end Sys2Proof

namespace Sys2Proof.Machine

/-! ### Status outputs (R41, R63, R429) -/

/-- Settles O60: the two numberings by evaluation, the levels by their definitions. -/
theorem statusOutputsShowTheRegisters : Obligations.StatusOutputsShowTheRegisters := by
  refine ⟨by decide, by decide, fun s => ⟨?_, ?_, ?_, rfl, rfl, rfl, rfl⟩⟩
  · simp [busy]
  · simp [doneFlag]
  · simp [errorFlag]

/-! ### Reset and errors (R421, R470) -/

theorem step_of_reset {s : State} (h : s.rst = true) : step s = .next (applyReset s) := by simp [step, h]

/-- Settles O1: the reset cycle is `applyReset`, and while `rst` is high no byte is taken. -/
theorem resetCycleSetsTheStatedValues : Obligations.ResetCycleSetsTheStatedValues := by
  intro s hr
  refine ⟨by simp [inReady, hr], applyReset s, step_of_reset hr, ?_⟩
  and_intros
  any_goals rfl
  exact Memory.read_nil

/-- Settles O3: after a raise the phase is ERROR, where the engine is idle. -/
theorem raiseRecordsTheErrorAndFreezesTheEngine : Obligations.RaiseRecordsTheErrorAndFreezesTheEngine :=
  fun e s => ⟨rfl, fun hr ho => doneAndErrorAreIdle (raise e s) hr ho (.inr rfl)⟩

theorem step_of_copy {s : State} (hr : s.rst = false) (ho : s.outValid = false) (hp : s.phase = .copy) :
    step s = copyStep s := by simp [step, hr, ho, hp]

/-- Settles O8: the copy's `WinRead` is asked for a byte before the history. -/
theorem copyBeyondTheHistoryFaults : Obligations.CopyBeyondTheHistoryFaults := by
  intro s hr ho hp hrem hdist
  have hread : winRead s.pendDist s = .error .winReadPrecondition := if_pos (.inr hdist)
  rw [step_of_copy hr ho hp, copyStep, if_neg hrem, hread]

/-! ### What a step without reset can do -/

/-- Everything a step without reset can do, where it answers a next state. -/
theorem step_next_cases {s t : State} (hr : s.rst = false) (h : step s = .next t) :
    (s.outValid = true ∧ t = sinkCycle s) ∨
    (s.outValid = false ∧
      (((s.phase = .done ∨ s.phase = .error) ∧ t = s) ∨
       (s.phase = .copy ∧ copyStep s = .next t) ∨
       (readsInput s.phase = true ∧
        ((∃ i u, fetchElement fetchBound (beginElement s) = .got i u ∧ exec i u = .next t) ∨
         fetchElement fetchBound (beginElement s) = .wait t ∨
         (∃ e u, fetchElement fetchBound (beginElement s) = .raised e u ∧ t = raise e u))))) := by
  rcases step_cases s with ⟨hr', -⟩ | ⟨-, ho, hs⟩ | ⟨-, ho, ⟨hp, hs⟩ | ⟨hp, hs⟩ | ⟨hp, ⟨i, u, hf, hs⟩ | ⟨u, hf, hs⟩ |
    ⟨e, u, hf, hs⟩⟩⟩
  · simp [hr] at hr'
  all_goals rw [hs] at h
  · cases h; exact .inl ⟨ho, rfl⟩
  · cases h; exact .inr ⟨ho, .inl ⟨hp, rfl⟩⟩
  · exact .inr ⟨ho, .inr (.inl ⟨hp, h⟩)⟩
  · exact .inr ⟨ho, .inr (.inr ⟨hp, .inl ⟨i, u, hf, h⟩⟩)⟩
  · cases h; exact .inr ⟨ho, .inr (.inr ⟨hp, .inr (.inl hf)⟩)⟩
  · cases h; exact .inr ⟨ho, .inr (.inr ⟨hp, .inr (.inr ⟨e, u, hf, rfl⟩)⟩)⟩

/-! ### The input side of a step: the bytes taken, the bits left, and the host's pins -/

/-- On the input side a step does what reading an element does, or nothing. -/
theorem step_input_cases {s t : State} (hr : s.rst = false) (h : step s = .next t) :
    SameInput s t ∨
    (readsInput s.phase = true ∧ SameInput (fetchElement fetchBound (beginElement s)).state t) := by
  rcases step_next_cases hr h with ⟨-, rfl⟩ | ⟨-, ⟨-, rfl⟩ | ⟨-, hc⟩ | ⟨hp, ⟨i, u, hf, he⟩ | hf | ⟨e, u, hf, rfl⟩⟩⟩
  · exact .inl (sinkCycle_sameInput s)
  · exact .inl (.refl t)
  · exact .inl (copyStep_sameInput hc)
  all_goals refine .inr ⟨hp, ?_⟩; rw [hf]
  · exact exec_sameInput he
  · exact .refl t
  · exact raise_sameInput e u

theorem beginElement_inCount (s : State) : (beginElement s).inCount = s.inCount := by rw [beginElement_frame]

theorem beginElement_src (s : State) : (beginElement s).src = s.src := by rw [beginElement_frame]

/-- Aligning discards bits and takes none (R84). -/
theorem beginElement_bitcnt_le (s : State) : (beginElement s).bitcnt.toNat ≤ s.bitcnt.toNat := by
  rcases beginElement_cases s with ⟨-, -, h⟩ | ⟨-, -, -, h⟩ | h <;> rw [h]
  · exact Nat.zero_le _

/-- How many bytes a step takes, and how many bits it leaves (R45, R46, R86). -/
theorem step_bytes {s t : State} (hr : s.rst = false) (h : step s = .next t) :
    ∃ k, k ≤ fetchBound ∧ t.inCount = s.inCount + BitVec.ofNat 32 k ∧
      (k ≠ 0 → t.bitcnt.toNat ≤ 7) ∧ (k = 0 → t.bitcnt.toNat ≤ s.bitcnt.toNat) := by
  rcases step_input_cases hr h with hsame | ⟨-, hsame⟩
  · exact ⟨0, by decide, by simp [hsame.inCount], by simp, fun _ => by rw [hsame.bitcnt]⟩
  · obtain ⟨k, hk, hcount, htaken, hnone⟩ := fetchElement_bytes fetchBound (beginElement s)
    rw [hsame.inCount, hsame.bitcnt]
    exact ⟨k, hk, by rw [hcount, beginElement_inCount], htaken,
      fun h0 => (hnone h0).trans (beginElement_bitcnt_le s)⟩

/-- Settles O12: where `in_count` has changed, a byte was taken. -/
theorem byteIsTakenOnlyToConsumeABit : Obligations.ByteIsTakenOnlyToConsumeABit := by
  intro s t hr h hne
  obtain ⟨k, -, hcount, htaken, -⟩ := step_bytes hr h
  exact htaken fun h0 => hne (by simp [hcount, h0])

/-- Settles O14, by the bytes the step took. -/
theorem bitPositionNeverFalls : Obligations.BitPositionNeverFalls := by
  intro s t hr h
  obtain ⟨k, hk, hcount, htaken, hnone⟩ := step_bytes hr h
  have hdiff : (t.inCount - s.inCount).toNat = k := by
    have : k ≤ 64 := hk
    rw [hcount, BitVec.add_comm, BitVec.add_sub_cancel, BitVec.toNat_ofNat]
    omega
  rw [hdiff]
  by_cases h0 : k = 0
  · have := hnone h0
    omega
  · have := htaken h0
    omega

/-- Reading uses up the source's cycles from the front, also where it stalls. -/
theorem fetchElement_src_suffix (n : Nat) (s : State) : (fetchElement n s).state.src <:+ s.src := by
  have hleaves := fetchElement_leaves n s
  cases hf : fetchElement n s <;> rw [hf] at hleaves
  case got i t => obtain ⟨used, hused, -⟩ := hleaves.bytes; exact ⟨used, hused.symm⟩
  case raised e t => obtain ⟨used, hused, -⟩ := hleaves.bytes; exact ⟨used, hused.symm⟩
  case wait t =>
    obtain ⟨u, hread, hend⟩ := hleaves
    obtain ⟨used, hused, -⟩ := hread.bytes
    rcases hend with rfl | ⟨p, hp, -⟩
    · exact ⟨used, hused.symm⟩
    · exact ⟨used ++ [p], by rw [hused, hp]; simp [Read.state]⟩

/-- The pins and the parameter, which reading does not write. -/
theorem fetchElement_host (n : Nat) (s : State) :
    (fetchElement n (beginElement s)).state.rst = s.rst ∧
      (fetchElement n (beginElement s)).state.outReady = s.outReady ∧
      (fetchElement n (beginElement s)).state.cfg = s.cfg := by
  rw [fetchElement_readFrame, beginElement_frame]
  exact ⟨rfl, rfl, rfl⟩

/-- Settles O59: a step's input side is that of reading, and a reset cycle leaves the host's side. -/
theorem hostSideIsOnlyRead : Obligations.HostSideIsOnlyRead := by
  intro s t h
  cases hr : s.rst
  case true =>
    rw [step_of_reset hr] at h
    cases h
    exact ⟨rfl, rfl, rfl, List.suffix_rfl⟩
  case false =>
    rcases step_input_cases hr h with hsame | ⟨-, hsame⟩
    · exact ⟨hsame.cfg, hsame.outReady, hsame.rst.trans hr, by rw [hsame.src]⟩
    · obtain ⟨hrst, hready, hcfg⟩ := fetchElement_host fetchBound s
      have hsrc := fetchElement_src_suffix fetchBound (beginElement s)
      rw [beginElement_src, ← hsame.src] at hsrc
      exact ⟨hsame.cfg.trans hcfg, hsame.outReady.trans hready, (hsame.rst.trans hrst).trans hr, hsrc⟩

/-! ### The sink's handshake (R90, R362, R395) -/

/-- What follows the emission of a byte, register by register. -/
theorem afterEmit_eq (s : State) :
    afterEmit s = { s with
      copyRem := if s.phase = .copy then s.copyRem - 1 else s.copyRem
      storedRem := if s.phase = .storedCopy then s.storedRem - 1 else s.storedRem
      phase :=
        if s.phase = .copy then (if s.copyRem = 1 then .token else .copy)
        else if s.phase = .storedCopy then
          (if s.storedRem = 1 then (if s.bfinal then .done else .hdr) else .storedCopy)
        else s.phase } := by
  rcases afterEmit_cases s with ⟨hp, h0, h⟩ | ⟨hp, h0, h⟩ | ⟨hp, h0, h⟩ | ⟨hp, h0, h⟩ | ⟨hc, hs, h⟩ <;> rw [h]
  · simp [hp, sub_eq_zero.1 h0]
  · have hmore : ¬ s.copyRem = 1#9 := fun h1 => h0 (sub_eq_zero.2 h1)
    simp [hp, hmore]
  · simp [hp, sub_eq_zero.1 h0, blockEnd]
  · have hmore : ¬ s.storedRem = 1#16 := fun h1 => h0 (sub_eq_zero.2 h1)
    simp [hp, hmore]
  · simp [hc, hs]

theorem step_of_offered {s : State} (hr : s.rst = false) (ho : s.outValid = true) : step s = .next (sinkCycle s) := by
  simp [step, hr, ho]

/-- Settles O36, by the two levels of `out_ready`. -/
theorem offeredByteIsTakenOrWaits : Obligations.OfferedByteIsTakenOrWaits := by
  intro s hr ho
  rw [step_of_offered hr ho]
  constructor
  · intro hready
    simp [sinkCycle, hready]
  · intro hready
    have htake : sinkCycle s = afterEmit (takeByte s) := if_pos hready
    rw [htake, afterEmit_eq]
    rfl

/-- Settles O47: the byte is emitted in STORED_COPY. -/
theorem rawByteIsCopied : Obligations.RawByteIsCopied := by
  intro b s
  have hexec : exec (.stData b) s = .next (emit b { s with phase := .storedCopy }) := rfl
  rw [hexec]
  constructor
  · intro hready
    rw [emit_of_ready (s := { s with phase := .storedCopy }) b hready, afterEmit_eq]
    rfl
  · intro hready
    rw [emit_of_not_ready (s := { s with phase := .storedCopy }) b hready]
    rfl

/-! ### The window's entries (R58, R90, R365) -/

/-- Settles O48, by the laws of the window's memory. -/
theorem windowWritesAreReadBack : Obligations.WindowWritesAreReadBack := fun _ a a' b hwf ha =>
  ⟨Memory.read_write hwf a a' b, Memory.wf_write hwf ha b⟩

/-- The window after an emission: only the entry at `wp` may be written, and it is if the sink takes the byte. -/
theorem emit_read (b : Byte) {s : State} (hwf : Memory.wf s.win = true) (a : Nat) :
    Memory.read (emit b s).win a =
      if s.outReady = true ∧ a = s.wp.toNat then some b else Memory.read s.win a := by
  rcases emit_cases b s with ⟨hready, h⟩ | ⟨hready, h⟩ <;> rw [h]
  · rw [afterEmit_frame]
    refine (takeByte_read (s := offerByte b s) hwf a).trans ?_
    by_cases ha : a = s.wp.toNat <;> simp [ha, hready]
  · simp [hready]

/-- Settles O49: both elements emit their byte. -/
theorem emittingElementsWriteOneWindowEntry : Obligations.EmittingElementsWriteOneWindowEntry := by
  intro i b s t hi hwf h
  obtain ⟨ph, rfl⟩ : ∃ ph, t = emit b { s with phase := ph } := by
    rcases hi with rfl | rfl <;> cases h
    · exact ⟨.token, rfl⟩
    · exact ⟨.storedCopy, rfl⟩
  have hread := emit_read b (s := { s with phase := ph }) hwf
  refine ⟨fun a ha => ?_, fun hready => ?_, fun hready => ?_⟩
  · rw [hread, if_neg fun hc => ha hc.2]
  · rw [hread, if_pos ⟨hready, rfl⟩]
  · rw [hread, if_neg fun hc => by simp [hready] at hc]

/-- Settles O50: such an element leaves the output side, and no element writes the input side. -/
theorem otherElementsKeepWindowAndPorts : Obligations.OtherElementsKeepWindowAndPorts := by
  intro i s hlit hraw
  obtain ⟨t, h, hout⟩ := exec_sameOutput hlit hraw s
  have hin := exec_sameInput h
  exact ⟨t, h, fun a => by rw [hout.win], hout.wp, hout.hist, hout.out, hout.outCount, hout.outValid, hout.outData,
    hin.bitbuf, hin.bitcnt, hin.inCount, hin.src, hin.curCode, hin.curLen, hin.rst, hin.outReady, hin.cfg⟩

/-- `hist` does not fall, `wp` stays or advances by one, and no window entry but the one at `wp` changes. -/
def WindowCarried (s t : State) : Prop :=
  s.hist.toNat ≤ t.hist.toNat ∧ (t.wp = s.wp ∨ t.wp = s.wp + 1) ∧
    ∀ a, a ≠ s.wp.toNat → Memory.read t.win a = Memory.read s.win a

theorem SameOutput.windowCarried {s t : State} (h : SameOutput s t) : WindowCarried s t :=
  ⟨by rw [h.hist], .inl h.wp, fun a _ => by rw [h.win]⟩

theorem SameOutput.trans_windowCarried {s t u : State} (h : SameOutput s t) (h' : WindowCarried t u) :
    WindowCarried s u := by
  unfold WindowCarried at h' ⊢
  rwa [h.hist, h.wp, h.win] at h'

theorem sinkCycle_windowCarried {s : State} (hwf : Memory.wf s.win = true) (hhist : s.hist.toNat ≤ 32768) :
    WindowCarried s (sinkCycle s) := by
  rcases sinkCycle_cases s with ⟨-, h⟩ | ⟨-, h⟩ <;> rw [h]
  · rw [afterEmit_frame]
    refine ⟨?_, .inr rfl, fun a ha => ?_⟩
    · have := takeByte_hist_toNat s
      dsimp only
      omega
    · exact (takeByte_read hwf a).trans (if_neg ha)
  · exact ⟨Nat.le_refl _, .inl rfl, fun _ _ => rfl⟩

/-- Settles O58: only emissions write the window side, and reading leaves it. -/
theorem windowCarriesOver : Obligations.WindowCarriesOver := by
  intro s t hwf hr h hhist
  have hread := fetchElement_sameOutput fetchBound s
  have hemit (b : Byte) (u : State) (hu : SameOutput s u) : WindowCarried s (emit b u) :=
    hu.trans_windowCarried (sinkCycle_windowCarried (s := offerByte b u) (by rw [offerByte_win, hu.win]; exact hwf)
      (by rw [offerByte_hist, hu.hist]; exact hhist))
  rcases step_next_cases hr h with ⟨-, rfl⟩ | ⟨-, ⟨-, rfl⟩ | ⟨-, hc⟩ | ⟨-, ⟨i, u, hf, he⟩ | hf | ⟨e, u, hf, rfl⟩⟩⟩
  · exact sinkCycle_windowCarried hwf hhist
  · exact SameOutput.windowCarried (by constructor <;> rfl)
  · rcases copyStep_cases s with ⟨-, hs⟩ | ⟨-, b, -, hs⟩ | ⟨-, f, -, hs⟩ <;> rw [hs] at hc <;> cases hc
    · exact SameOutput.windowCarried (by constructor <;> rfl)
    · exact hemit b s (by constructor <;> rfl)
  all_goals rw [hf] at hread
  · rcases exec_output_cases i u with ⟨b, ph, hs⟩ | ⟨v, hs, hv⟩ <;> rw [hs] at he <;> cases he
    · exact hemit b _ (hread.trans (by constructor <;> rfl))
    · exact (hread.trans hv).windowCarried
  · exact hread.windowCarried
  · exact (hread.trans (raise_sameOutput e u)).windowCarried

/-! ### The code-length code lengths (R213) -/

theorem exec_clCodeLength_of_more (len : BitVec 3) {s : State} (h : s.clIdx + 1 < s.hclen) :
    exec (.clCodeLength len) s = .next
      { s with clLen := s.clLen.set (clOrder.getD s.clIdx.toNat 19) len, clIdx := s.clIdx + 1 } := if_pos h

/-- Settles O30: what is cleared before the first field, and what each field but the last writes. -/
theorem codeLengthFieldsFillTheirSymbols : Obligations.CodeLengthFieldsFillTheirSymbols := by
  intro len s
  refine ⟨fun hp hf h0 => by simp [beginElement, hp, hf, h0], fun hlt h19 => ?_⟩
  have hidx : (s.clIdx + 1).toNat = s.clIdx.toNat + 1 := by
    rw [BitVec.toNat_add]
    simp
    omega
  have hget : clOrder.getD s.clIdx.toNat 19 = clOrder.getD s.clIdx.toNat 0 := by
    have hin : s.clIdx.toNat < clOrder.length := Nat.lt_of_lt_of_le (by omega : s.clIdx.toNat < 19) (Nat.le_refl 19)
    simp [hin]
  refine ⟨_, exec_clCodeLength_of_more len (by rw [BitVec.lt_def, hidx]; exact hlt), ?_, hidx, rfl⟩
  rw [hget]
  rfl

end Sys2Proof.Machine

/-! Family other: everything a look at the bits read so far can say, and decoding against encoding (R120 to R206). -/

namespace Sys2Proof

/-! ### Resolved symbols (R215, R260, R300) -/

/-- The size of the alphabet a phase decodes symbols of (R7). -/
def alphabet : Phase → Nat
  | .token => 288
  | .distSym => 32
  | .dynLens => 19
  | _ => 0

/-- Symbol `sym` of phase `ph` has an extra-bits field, which may be of no bits. (In DYN_LENS this includes numbers
outside the alphabet, whose field no element has.) -/
def hasExtra (c : Codes) (ph : Phase) (sym : Nat) : Prop :=
  (ph = .token ∧ 257 ≤ sym ∧ sym < 286) ∨ (ph = .distSym ∧ sym < 30) ∨
    (ph = .dynLens ∧ 16 ≤ sym ∧ (sym = 16 → c.prevValid = true))

/-- The reader at the start of the extra-bits field of symbol `sym`. -/
def Reader.extraOf (r : Reader) (sym : Nat) : Reader :=
  match r.phase with
  | .token => { r with phase := .lenExtra, pendSym := BitVec.ofNat 5 (sym - 257), part := .start, fld := [] }
  | .distSym => { r with phase := .distExtra, pendSym := BitVec.ofNat 5 sym, part := .start, fld := [] }
  | _ => { r with part := .extra, fld := [] }

/-- Symbol `sym` of phase `ph` is the element `i` by itself: it has no extra bits, or it is a symbol 16 whose extra bits
are not read (R217). -/
def standsAlone (c : Codes) (ph : Phase) (sym : Nat) (i : Instr) : Prop :=
  (i.form = (ph, some sym, []) ∧ (ph = .dynLens → sym ≠ 16)) ∨
    (i = .clRepPrev 0 ∧ ph = .dynLens ∧ sym = 16 ∧ c.prevValid = false)

/-- Everything a resolved symbol can be. -/
theorem resolved_cases (c : Codes) (r : Reader) (sym : Nat) :
    (∃ i, standsAlone c r.phase sym i ∧ resolved c r sym = .instr i { r with part := .start }) ∨
    (hasExtra c r.phase sym ∧ resolved c r sym = lookField c (r.extraOf sym)) ∨
    (alphabet r.phase ≤ sym ∧ resolved c r sym = .invalid r) := by
  unfold resolved hasExtra Reader.extraOf alphabet standsAlone
  cases hp : r.phase <;> dsimp only
  case token =>
    split_ifs with h1 h2 h3 h4 h5
    · exact .inl ⟨_, .inl ⟨by rw [Instr.form, BitVec.toNat_ofNat, Nat.mod_eq_of_lt h1], nofun⟩, rfl⟩
    · exact .inl ⟨_, .inl ⟨by rw [h2, Instr.form], nofun⟩, rfl⟩
    · exact .inr (.inl ⟨.inl ⟨rfl, by omega, h3⟩, rfl⟩)
    · exact .inl ⟨_, .inl ⟨by rw [h4, Instr.form], nofun⟩, rfl⟩
    · exact .inl ⟨_, .inl ⟨by rw [h5, Instr.form], nofun⟩, rfl⟩
    · exact .inr (.inr ⟨by omega, rfl⟩)
  case distSym =>
    split_ifs with h1 h2 h3
    · exact .inr (.inl ⟨.inr (.inl ⟨rfl, h1⟩), rfl⟩)
    · exact .inl ⟨_, .inl ⟨by rw [h2, Instr.form], nofun⟩, rfl⟩
    · exact .inl ⟨_, .inl ⟨by rw [h3, Instr.form], nofun⟩, rfl⟩
    · exact .inr (.inr ⟨by omega, rfl⟩)
  case dynLens =>
    split_ifs with h1 h2
    · exact .inl ⟨_, .inl ⟨by rw [Instr.form, BitVec.toNat_ofNat, Nat.mod_eq_of_lt h1], fun _ => by omega⟩, rfl⟩
    · simp only [Bool.and_eq_true, decide_eq_true_eq, Bool.not_eq_true'] at h2
      exact .inl ⟨_, .inr ⟨rfl, rfl, h2.1, h2.2⟩, rfl⟩
    · refine .inr (.inl ⟨.inr (.inr ⟨rfl, by omega, fun h16 => ?_⟩), rfl⟩)
      simpa [h16] using h2
  all_goals exact .inr (.inr ⟨Nat.zero_le _, rfl⟩)

/-! ### The extra-bits field of a symbol (R126, R131, R132) -/

/-- The code-length element of symbol `sym` whose extra-bits field has value `v` (R217 to R219). -/
def clsInstr (sym v : Nat) : Option Instr :=
  if sym = 16 then some (.clRepPrev (BitVec.ofNat 2 v))
  else if sym = 17 then some (.clRepZ3 (BitVec.ofNat 3 v))
  else if sym = 18 then some (.clRepZ11 (BitVec.ofNat 7 v))
  else none

/-- How many extra bits symbol `sym` of phase `ph` has. -/
def extraWidth (ph : Phase) (sym : Nat) : Nat :=
  match ph with
  | .token => lenXb.getD (sym - 257) 0
  | .distSym => distXb.getD sym 0
  | _ => clsXb sym

/-- The element of symbol `sym` of phase `ph` whose extra-bits field has value `v`. -/
def extraInstr (ph : Phase) (sym v : Nat) : Option Instr :=
  match ph with
  | .token => lenInstr (sym - 257) v
  | .distSym => distInstr sym v
  | _ => clsInstr sym v

theorem extraWidth_le {c : Codes} {ph : Phase} {sym : Nat} (h : hasExtra c ph sym) : extraWidth ph sym ≤ 13 := by
  have hlen : ∀ k < 29, lenXb.getD k 0 ≤ 13 := by decide
  have hdist : ∀ ds < 30, distXb.getD ds 0 ≤ 13 := by decide
  rcases h with ⟨rfl, hlo, hhi⟩ | ⟨rfl, hlt⟩ | ⟨rfl, -⟩
  · exact hlen _ (by omega)
  · exact hdist _ hlt
  · simp only [extraWidth, clsXb]
    split_ifs <;> omega

/-- An element with extra bits is written as its symbol and those bits. -/
theorem extraInstr_written {c : Codes} {ph : Phase} {sym v : Nat} {i : Instr} (h : hasExtra c ph sym)
    (hi : extraInstr ph sym v = some i) : i.form = (ph, some sym, lsbBits (extraWidth ph sym) v) := by
  rcases h with ⟨rfl, hlo, hhi⟩ | ⟨rfl, hlt⟩ | ⟨rfl, -⟩
  · have hi : lenInstr (sym - 257) v = some i := hi
    rw [(lenInstr_written hi).2, Nat.add_sub_cancel' hlo, extraWidth]
  · have hi : distInstr sym v = some i := hi
    exact (distInstr_written hi).2
  · simp only [extraInstr, clsInstr] at hi
    split_ifs at hi with h16 h17 h18
    · cases hi; simp only [Instr.form, lsbBits_toNat_ofNat, h16]; rfl
    · cases hi; simp only [Instr.form, lsbBits_toNat_ofNat, h17]; rfl
    · cases hi; simp only [Instr.form, lsbBits_toNat_ofNat, h18]; rfl

theorem lenInstr_isSome {k : Nat} (hk : k < 29) (v : Nat) : ∃ i, lenInstr k v = some i := by
  interval_cases k
  all_goals exact ⟨_, rfl⟩

theorem distInstr_isSome {ds : Nat} (hds : ds < 30) (v : Nat) : ∃ i, distInstr ds v = some i := by
  interval_cases ds
  all_goals exact ⟨_, rfl⟩

/-- In its alphabet every symbol with extra bits has an element for each value of them. -/
theorem extraInstr_isSome {c : Codes} {ph : Phase} {sym : Nat} (h : hasExtra c ph sym) (hsym : sym < alphabet ph)
    (v : Nat) : ∃ i, extraInstr ph sym v = some i := by
  rcases h with ⟨rfl, hlo, hhi⟩ | ⟨rfl, hlt⟩ | ⟨rfl, hlo, -⟩
  · show ∃ i, lenInstr (sym - 257) v = some i
    exact lenInstr_isSome (by omega) v
  · show ∃ i, distInstr sym v = some i
    exact distInstr_isSome hlt v
  · have hsym : sym < 19 := hsym
    obtain rfl | rfl | rfl : sym = 16 ∨ sym = 17 ∨ sym = 18 := by omega
    all_goals exact ⟨_, rfl⟩

theorem extraOf_fld (r : Reader) (sym : Nat) : (r.extraOf sym).fld = [] := by
  unfold Reader.extraOf
  split <;> rfl

theorem extraOf_not_inCodeword {c : Codes} {r : Reader} {sym : Nat} (h : hasExtra c r.phase sym) :
    (r.extraOf sym).inCodeword = false := by
  rcases h with ⟨hp, -⟩ | ⟨hp, -⟩ | ⟨hp, -⟩ <;> simp [Reader.extraOf, Reader.inCodeword, hp]

section
variable {c : Codes} {r : Reader} {sym : Nat}
  (hfound : findSymbol (c.forPhase r.phase) r.curLen r.curCode = some sym)
include hfound

/-- In DYN_LENS the symbol whose extra bits are read is the one the cursor has found. -/
theorem pendingClsSymbol_of_found (hp : r.phase = .dynLens) (f : List Bool) :
    pendingClsSymbol c { r with part := .extra, fld := f } = sym := by
  rw [hp] at hfound
  have hfound : findSymbol c.cl r.curLen r.curCode = some sym := hfound
  rw [pendingClsSymbol, hfound, Option.getD_some]

theorem fieldWidth_extraOf (h : hasExtra c r.phase sym) :
    fieldWidth c (r.extraOf sym) = extraWidth r.phase sym := by
  rcases h with ⟨hp, hlo, hhi⟩ | ⟨hp, hlt⟩ | ⟨hp, -⟩
  · have hk : (BitVec.ofNat 5 (sym - 257)).toNat = sym - 257 := by rw [BitVec.toNat_ofNat]; omega
    simp only [fieldWidth, Reader.extraOf, extraWidth, hp, hk]
  · have hds : (BitVec.ofNat 5 sym).toNat = sym := by rw [BitVec.toNat_ofNat]; omega
    simp only [fieldWidth, Reader.extraOf, extraWidth, hp, hds]
  · have hpend := pendingClsSymbol_of_found hfound hp []
    rw [hp] at hpend
    simp only [fieldWidth, Reader.extraOf, extraWidth, hp, hpend]

theorem fieldInstr_extraOf (h : hasExtra c r.phase sym) (f : List Bool) :
    fieldInstr c { r.extraOf sym with fld := f } = extraInstr r.phase sym (bitsToNat f) := by
  rcases h with ⟨hp, hlo, hhi⟩ | ⟨hp, hlt⟩ | ⟨hp, -⟩
  · have hk : (BitVec.ofNat 5 (sym - 257)).toNat = sym - 257 := by rw [BitVec.toNat_ofNat]; omega
    simp only [fieldInstr, Reader.extraOf, extraInstr, hp, hk]
  · have hds : (BitVec.ofNat 5 sym).toNat = sym := by rw [BitVec.toNat_ofNat]; omega
    simp only [fieldInstr, Reader.extraOf, extraInstr, hp, hds]
  · have hpend := pendingClsSymbol_of_found hfound hp f
    rw [hp] at hpend
    simp only [fieldInstr, Reader.extraOf, extraInstr, clsInstr, hp, hpend]

end

/-! ### Everything a look can say (R206) -/

theorem lookField_cases (c : Codes) (r : Reader) :
    (r.fld.length < fieldWidth c r ∧ lookField c r = .more r) ∨
    (fieldWidth c r ≤ r.fld.length ∧
      ((∃ i, fieldInstr c r = some i ∧ lookField c r = .instr i { r with part := .start, fld := [] }) ∨
       (fieldInstr c r = none ∧ lookField c r = .invalid r))) := by
  unfold lookField
  split
  case isTrue h => exact .inl ⟨h, rfl⟩
  case isFalse h =>
    refine .inr ⟨Nat.not_lt.1 h, ?_⟩
    cases fieldInstr c r with
    | none => exact .inr ⟨rfl, rfl⟩
    | some i => exact .inl ⟨i, rfl, rfl⟩

theorem beginsCodeword_length_le {T : Code} {len : BitVec 4} {code : BitVec 15}
    (h : beginsCodeword T len code = true) : len.toNat ≤ 14 := by
  obtain ⟨w, -, hw⟩ := List.any_eq_true.1 h
  simp only [Bool.and_eq_true, decide_eq_true_eq, BitVec.lt_def] at hw
  have := w.len.isLt
  omega

/-- A look is at the root of a codeword, inside one, at the end of one, past every codeword, or in a field. -/
theorem look_cases (c : Codes) (r : Reader) :
    (r.inCodeword = true ∧ r.part = .start ∧ look c r = .more { r with part := .code, curCode := 0, curLen := 0 }) ∨
    (r.inCodeword = true ∧ r.part ≠ .start ∧ r.curLen.toNat ≤ 14 ∧ look c r = .more r) ∨
    (r.inCodeword = true ∧ r.part ≠ .start ∧
      ∃ sym, findSymbol (c.forPhase r.phase) r.curLen r.curCode = some sym ∧ look c r = resolved c r sym) ∨
    (r.inCodeword = true ∧ r.part ≠ .start ∧ look c r = .invalid r) ∨
    (r.inCodeword = false ∧ look c r = lookField c r) := by
  unfold look lookSymbol
  by_cases hi : r.inCodeword = true
  case neg => exact .inr (.inr (.inr (.inr ⟨eq_false_of_ne_true hi, if_neg hi⟩)))
  rw [if_pos hi]
  by_cases hs : r.part = .start
  · exact .inl ⟨hi, hs, if_pos hs⟩
  rw [if_neg hs]
  by_cases h0 : r.curLen = 0
  · exact .inr (.inl ⟨hi, hs, by simp [h0], if_pos h0⟩)
  rw [if_neg h0]
  cases hf : findSymbol (c.forPhase r.phase) r.curLen r.curCode with
  | some sym => exact .inr (.inr (.inl ⟨hi, hs, sym, rfl, rfl⟩))
  | none =>
    by_cases hb : beginsCodeword (c.forPhase r.phase) r.curLen r.curCode = true
    · exact .inr (.inl ⟨hi, hs, beginsCodeword_length_le hb, if_pos hb⟩)
    · exact .inr (.inr (.inr (.inl ⟨hi, hs, if_neg hb⟩)))

end Sys2Proof

/-! Family other: decoding gives back what was encoded, and nothing else (R122 to R127, R206). -/

namespace Sys2Proof

/-! ### Encoding, by the form of the element -/

/-- An element that is a symbol can stand in a stream if its symbol has a codeword, and a symbol 16 without a previous
length only with extra bits of 0, which are not written (R217). -/
theorem wellFormed_symbol {c : Codes} {i : Instr} {ph : Phase} {sym : Nat} {bits : List Bool}
    (hform : i.form = (ph, some sym, bits)) :
    i.wellFormed c = true ↔ hasCodeword (c.forPhase ph) sym = true ∧
      (ph = .dynLens → sym = 16 → c.prevValid = true ∨ bits = [false, false]) := by
  simp only [Instr.wellFormed, hform, Bool.and_eq_true, Bool.or_eq_true, beq_iff_eq, Bool.not_eq_true',
    Bool.and_eq_false_iff, beq_eq_false_iff_ne]
  tauto

theorem encode_symbol_with_bits {c : Codes} {i : Instr} {ph : Phase} {sym : Nat} {bits : List Bool}
    (hform : i.form = (ph, some sym, bits)) (h16 : ph = .dynLens → sym = 16 → c.prevValid = true) :
    encode c i = codewordBits (c.forPhase ph) sym ++ bits := by
  have hbits : (ph = .dynLens && sym = 16 && !c.prevValid) = false := by
    by_cases hp : ph = .dynLens <;> by_cases hs : sym = 16 <;> simp_all
  simp only [encode, hform, hbits]
  rfl

theorem forPhase_ok {c : Codes} (hll : c.ll.ok) (hd : c.d.ok) (hcl : c.cl.ok) {ph : Phase}
    (hi : (Reader.start ph).inCodeword = true) : (c.forPhase ph).ok := by
  cases ph
  case token => exact hll
  case distSym => exact hd
  case dynLens => exact hcl
  all_goals cases hi

/-! ### From an encoding to its decoding -/

theorem afterLook_lookField {c : Codes} {q : Reader} (hq : q.inCodeword = false) (rest : List Bool) :
    afterLook c (lookField c q) rest = decode c q rest := by
  rw [decode_eq_afterLook, look, if_neg (by simp [hq])]

theorem resolved_of_hasExtra {c : Codes} {r : Reader} {sym : Nat} (h : hasExtra c r.phase sym) :
    resolved c r sym = lookField c (r.extraOf sym) := by
  rcases h with ⟨hp, hlo, hhi⟩ | ⟨hp, hlt⟩ | ⟨hp, hlo, hprev⟩ <;> simp only [resolved, Reader.extraOf, hp]
  · rw [if_neg (by omega), if_neg (by omega), if_pos hhi]
  · rw [if_pos hlt]
  · rw [if_neg (by omega), if_neg]
    simp only [Bool.and_eq_true, decide_eq_true_eq, Bool.not_eq_true', not_and, Bool.not_eq_false]
    exact hprev

section
variable {c : Codes} {ph : Phase} {sym : Nat} (hT : (c.forPhase ph).ok)
  (hs : hasCodeword (c.forPhase ph) sym = true) (hi : (Reader.start ph).inCodeword = true)
include hT hs hi

/-- After a codeword its symbol is resolved, at the cursor that has found it. -/
theorem decode_finds_symbol (rest : List Bool) :
    ∃ r : Reader, r.phase = ph ∧ findSymbol (c.forPhase r.phase) r.curLen r.curCode = some sym ∧
      decode c (Reader.start ph) (codewordBits (c.forPhase ph) sym ++ rest) =
        afterLook c (resolved c r sym) rest := by
  obtain ⟨w, hw, hdecode⟩ := decode_codeword hT hs hi rest
  obtain ⟨w', hw', h0⟩ := hasCodeword_iff.1 hs
  obtain rfl : w' = w := Option.some.inj (hw'.symm.trans hw)
  refine ⟨_, rfl, ?_, hdecode⟩
  have hfound := findSymbol_codeword hT hw h0
  simpa [Reader.cursor, Reader.start] using hfound

/-- A codeword whose symbol is an element by itself. -/
theorem decode_symbol_alone {i : Instr}
    (hres : ∀ r : Reader, r.phase = ph → resolved c r sym = .instr i { r with part := .start }) (rest : List Bool) :
    ∃ r, decode c (Reader.start ph) (codewordBits (c.forPhase ph) sym ++ rest) = .instr i r rest := by
  obtain ⟨r, hp, -, hdecode⟩ := decode_finds_symbol hT hs hi rest
  exact ⟨_, by rw [hdecode, hres r hp, afterLook]⟩

/-- A codeword and its symbol's extra bits. -/
theorem decode_symbol_extra {i : Instr} {x : Nat} (hx : hasExtra c ph sym) (hlt : x < 2 ^ extraWidth ph sym)
    (hinstr : extraInstr ph sym x = some i) (rest : List Bool) :
    ∃ r, decode c (Reader.start ph) (codewordBits (c.forPhase ph) sym ++ lsbBits (extraWidth ph sym) x ++ rest) =
      .instr i r rest := by
  obtain ⟨r, rfl, hfound, hdecode⟩ := decode_finds_symbol hT hs hi (lsbBits (extraWidth ph sym) x ++ rest)
  have hq := extraOf_not_inCodeword hx
  have hfld := extraOf_fld r sym
  rw [List.append_assoc, hdecode, resolved_of_hasExtra hx, afterLook_lookField hq,
    decode_field c _ _ rest hq (by rw [hfld, fieldWidth_extraOf hfound hx]; simp), hfld, List.nil_append,
    fieldInstr_extraOf hfound hx, bitsToNat_lsbBits, Nat.mod_eq_of_lt hlt, hinstr]
  exact ⟨_, rfl⟩

end

/-- The same, in terms of the element: it is its symbol and its extra bits. -/
theorem decode_encode_of_extra {c : Codes} {ph : Phase} {sym x : Nat} {i : Instr}
    (hT : (Reader.start ph).inCodeword = true → (c.forPhase ph).ok) (hx : hasExtra c ph sym)
    (hlt : x < 2 ^ extraWidth ph sym) (hinstr : extraInstr ph sym x = some i) (hwf : i.wellFormed c = true)
    (rest : List Bool) :
    ∃ r, decode c (Reader.start i.form.1) (encode c i ++ rest) = .instr i r rest := by
  have hform := extraInstr_written hx hinstr
  have hi : (Reader.start ph).inCodeword = true := by
    rcases hx with ⟨rfl, -⟩ | ⟨rfl, -⟩ | ⟨rfl, -⟩ <;> rfl
  have h16 : ph = .dynLens → sym = 16 → c.prevValid = true := by
    rcases hx with ⟨rfl, -⟩ | ⟨rfl, -⟩ | ⟨rfl, -, h⟩
    · exact nofun
    · exact nofun
    · exact fun _ => h
  rw [encode_symbol_with_bits hform h16, hform]
  exact decode_symbol_extra (hT hi) ((wellFormed_symbol hform).1 hwf).1 hi hx hlt hinstr rest

/-- The same for an element that is a symbol alone. -/
theorem decode_encode_of_alone {c : Codes} {ph : Phase} {sym : Nat} {i : Instr}
    (hT : (Reader.start ph).inCodeword = true → (c.forPhase ph).ok) (hi : (Reader.start ph).inCodeword = true)
    (hform : i.form = (ph, some sym, [])) (h16 : ph = .dynLens → sym ≠ 16)
    (hres : ∀ r : Reader, r.phase = ph → resolved c r sym = .instr i { r with part := .start })
    (hwf : i.wellFormed c = true) (rest : List Bool) :
    ∃ r, decode c (Reader.start i.form.1) (encode c i ++ rest) = .instr i r rest := by
  rw [encode_symbol_with_bits hform fun hp hs => absurd hs (h16 hp), hform, List.append_nil]
  exact decode_symbol_alone (hT hi) ((wellFormed_symbol hform).1 hwf).1 hi hres rest

/-! ### Each element is decoded from its encoding -/

/-- The value of the 14 bits of a dynamic header (R125). -/
theorem bitsToNat_dynHeader (hlit hdist : BitVec 5) (hclen : BitVec 4) :
    bitsToNat (lsbBits 5 hlit.toNat ++ lsbBits 5 hdist.toNat ++ lsbBits 4 hclen.toNat) =
      hlit.toNat + 32 * hdist.toNat + 1024 * hclen.toNat := by
  simp only [bitsToNat_append, bitsToNat_lsbBits, List.length_append, lsbBits_length, Nat.mod_eq_of_lt hlit.isLt,
    Nat.mod_eq_of_lt hdist.isLt, Nat.mod_eq_of_lt hclen.isLt]
  norm_num

theorem decode_dynHeader (c : Codes) (hlit hdist : BitVec 5) (hclen : BitVec 4) (rest : List Bool) :
    decode c (Reader.start .dynHdr)
        (lsbBits 5 hlit.toNat ++ lsbBits 5 hdist.toNat ++ lsbBits 4 hclen.toNat ++ rest) =
      .instr (.dynHeader hlit hdist hclen) (Reader.start .dynHdr) rest := by
  rw [decode_field c _ _ rest rfl (by simp [Reader.start, fieldWidth])]
  have h1 : BitVec.ofNat 5 (hlit.toNat + 32 * hdist.toNat + 1024 * hclen.toNat) = hlit := by
    apply BitVec.eq_of_toNat_eq
    have := hlit.isLt
    rw [BitVec.toNat_ofNat]
    omega
  have h2 : BitVec.ofNat 5 ((hlit.toNat + 32 * hdist.toNat + 1024 * hclen.toNat) / 32) = hdist := by
    apply BitVec.eq_of_toNat_eq
    have := hlit.isLt
    have := hdist.isLt
    rw [BitVec.toNat_ofNat]
    omega
  have h3 : BitVec.ofNat 4 ((hlit.toNat + 32 * hdist.toNat + 1024 * hclen.toNat) / 1024) = hclen := by
    apply BitVec.eq_of_toNat_eq
    have := hlit.isLt
    have := hdist.isLt
    have := hclen.isLt
    rw [BitVec.toNat_ofNat]
    omega
  simp only [fieldInstr, Reader.start, List.nil_append, bitsToNat_dynHeader, h1, h2, h3]

theorem decode_clCodeLength (c : Codes) (len : BitVec 3) (rest : List Bool) :
    decode c (Reader.start .dynCll) (lsbBits 3 len.toNat ++ rest) =
      .instr (.clCodeLength len) (Reader.start .dynCll) rest := by
  rw [decode_field c _ _ rest rfl (by simp [Reader.start, fieldWidth])]
  simp [fieldInstr, Reader.start, bitsToNat_lsbBits, Nat.mod_eq_of_lt len.isLt]

/-- Symbol 16 without a previous length is its codeword alone, and its extra bits stand as 0 (R217). -/
theorem decode_encode_clRepPrev_without_previous {c : Codes} (hcl : c.cl.ok) (hv : c.prevValid = false) {x : BitVec 2}
    (hwf : (Instr.clRepPrev x).wellFormed c = true) (rest : List Bool) :
    ∃ r, decode c (Reader.start .dynLens) (encode c (.clRepPrev x) ++ rest) = .instr (.clRepPrev x) r rest := by
  obtain ⟨hs, hx⟩ := (wellFormed_symbol (i := .clRepPrev x) rfl).1 hwf
  obtain hx | hx := hx rfl rfl
  · simp [hv] at hx
  have hx0 : x = 0 := by
    have hval := congrArg bitsToNat hx
    rw [bitsToNat_lsbBits, Nat.mod_eq_of_lt x.isLt] at hval
    exact BitVec.eq_of_toNat_eq hval
  rw [encode_clRepPrev, hv, if_neg Bool.false_ne_true, List.append_nil, hx0]
  refine decode_symbol_alone (ph := .dynLens) hcl hs rfl (fun r hp => ?_) rest
  simp [resolved, hp, hv]

/-- A code-length symbol (R216 to R219). -/
theorem decode_encode_of_dynLens {c : Codes} (hcl : c.cl.ok) {i : Instr} (hphase : i.form.1 = .dynLens)
    (hwf : i.wellFormed c = true) (rest : List Bool) :
    ∃ r, decode c (Reader.start i.form.1) (encode c i ++ rest) = .instr i r rest := by
  cases i
  case clLen sym =>
    refine decode_encode_of_alone (ph := .dynLens) (fun _ => hcl) rfl rfl (fun _ => by omega) (fun r hp => ?_) hwf rest
    simp [resolved, hp, sym.isLt]
  case clRepPrev x =>
    cases hv : c.prevValid
    · exact decode_encode_clRepPrev_without_previous hcl hv hwf rest
    · exact decode_encode_of_extra (ph := .dynLens) (sym := 16) (fun _ => hcl)
        (.inr (.inr ⟨rfl, by decide, fun _ => hv⟩)) x.isLt (by simp [extraInstr, clsInstr]) hwf rest
  case clRepZ3 x =>
    exact decode_encode_of_extra (ph := .dynLens) (sym := 17) (fun _ => hcl)
      (.inr (.inr ⟨rfl, by decide, nofun⟩)) x.isLt (by simp [extraInstr, clsInstr]) hwf rest
  case clRepZ11 x =>
    exact decode_encode_of_extra (ph := .dynLens) (sym := 18) (fun _ => hcl)
      (.inr (.inr ⟨rfl, by decide, nofun⟩)) x.isLt (by simp [extraInstr, clsInstr]) hwf rest
  all_goals cases hphase

theorem decode_encode {c : Codes} (hll : c.ll.ok) (hd : c.d.ok) (hcl : c.cl.ok) {i : Instr}
    (hwf : i.wellFormed c = true) (rest : List Bool) :
    ∃ r, decode c (Reader.start i.form.1) (encode c i ++ rest) = .instr i r rest := by
  cases Machine.meaning i
  case bhStored f => exact ⟨_, (decode_header c f false false rest).trans (by rw [headerInstr_stored])⟩
  case bhFixed f => exact ⟨_, (decode_header c f true false rest).trans (by rw [headerInstr_fixed])⟩
  case bhDynamic f => exact ⟨_, (decode_header c f false true rest).trans (by rw [headerInstr_dynamic])⟩
  case bhReserved f => exact ⟨_, (decode_header c f true true rest).trans (by rw [headerInstr_reserved])⟩
  case dynHeader hlit hdist hclen => exact ⟨_, decode_dynHeader c hlit hdist hclen rest⟩
  case clCodeLength len => exact ⟨_, decode_clCodeLength c len rest⟩
  case lens hphase => exact decode_encode_of_dynLens hcl hphase hwf rest
  case lit b =>
    refine decode_encode_of_alone (ph := .token) (fun _ => hll) rfl rfl nofun (fun r hp => ?_) hwf rest
    simp [resolved, hp, b.isLt]
  case eob =>
    refine decode_encode_of_alone (ph := .token) (fun _ => hll) rfl rfl nofun (fun r hp => ?_) hwf rest
    simp [resolved, hp]
  case length k x hx hinstr hexec =>
    obtain ⟨hk, -⟩ := lenInstr_written hinstr
    have hsub : 257 + k - 257 = k := Nat.add_sub_cancel_left 257 k
    exact decode_encode_of_extra (ph := .token) (sym := 257 + k) (fun _ => hll)
      (.inl ⟨rfl, by omega, by omega⟩) (by rwa [extraWidth, hsub])
      (by rw [show extraInstr .token (257 + k) x = lenInstr (257 + k - 257) x from rfl, hsub]; exact hinstr) hwf rest
  case distance ds x hx hinstr hexec =>
    exact decode_encode_of_extra (ph := .distSym) (sym := ds) (fun _ => hd)
      (.inr (.inl ⟨rfl, (distInstr_written hinstr).1⟩)) hx hinstr hwf rest
  case undefined hi =>
    simp only [List.mem_cons, List.not_mem_nil, or_false] at hi
    rcases hi with rfl | rfl | rfl | rfl
    · refine decode_encode_of_alone (ph := .token) (fun _ => hll) rfl rfl nofun (fun r hp => ?_) hwf rest
      simp [resolved, hp]
    · refine decode_encode_of_alone (ph := .token) (fun _ => hll) rfl rfl nofun (fun r hp => ?_) hwf rest
      simp [resolved, hp]
    · refine decode_encode_of_alone (ph := .distSym) (fun _ => hd) rfl rfl nofun (fun r hp => ?_) hwf rest
      simp [resolved, hp]
    · refine decode_encode_of_alone (ph := .distSym) (fun _ => hd) rfl rfl nofun (fun r hp => ?_) hwf rest
      simp [resolved, hp]
  case stHeader len nlen => exact ⟨_, decode_stHeader c len nlen rest⟩
  case stData b => exact ⟨_, decode_stData c b rest⟩

/-! ### An element is decoded from nothing but its encoding -/

/-- A complete fixed-width field is the element written as its bits. -/
theorem fieldInstr_start_form {c : Codes} {ph : Phase} {f : List Bool} {i : Instr} (hph : Machine.beganIn ph = ph)
    (hi : (Reader.start ph).inCodeword = false) (hlen : f.length = fieldWidth c (Reader.start ph))
    (h : fieldInstr c { Reader.start ph with fld := f } = some i) : i.form = (ph, none, f) := by
  have hbits := lsbBits_bitsToNat f
  rw [hlen] at hbits
  cases ph <;> simp only [fieldWidth, Reader.start] at hbits hlen <;>
    simp only [fieldInstr, Reader.start, Option.some.injEq, reduceCtorEq] at h
  case hdr =>
    obtain ⟨b0, b1, b2, rfl⟩ := List.length_eq_three.1 hlen
    rw [← h]
    cases b0 <;> cases b1 <;> cases b2 <;> rfl
  case dynHdr =>
    rw [lsbBits_add 10 4, lsbBits_add 5 5] at hbits
    rw [← h]
    simp only [Instr.form, lsbBits_toNat_ofNat]
    exact congrArg _ (congrArg _ hbits)
  case dynCll => rw [← h]; simp only [Instr.form, lsbBits_toNat_ofNat, hbits]
  case storedHdr =>
    rw [lsbBits_add 16 16] at hbits
    rw [← h]
    simp only [Instr.form, lsbBits_toNat_ofNat]
    exact congrArg _ (congrArg _ hbits)
  case storedCopy => rw [← h]; simp only [Instr.form, lsbBits_toNat_ofNat, hbits]
  case lenExtra | distExtra => cases hph
  case dynLens => cases hi

theorem encode_field {c : Codes} {i : Instr} {ph : Phase} {f : List Bool} (hform : i.form = (ph, none, f)) :
    i.wellFormed c = true ∧ i.form.1 = ph ∧ encode c i = f := by
  simp [Instr.wellFormed, encode, hform]

theorem encode_symbol {c : Codes} {i : Instr} {ph : Phase} {sym : Nat} {f : List Bool}
    (hs : hasCodeword (c.forPhase ph) sym = true) (hform : i.form = (ph, some sym, f))
    (h16 : ph = .dynLens → sym = 16 → c.prevValid = true) :
    i.wellFormed c = true ∧ i.form.1 = ph ∧ encode c i = codewordBits (c.forPhase ph) sym ++ f :=
  ⟨(wellFormed_symbol hform).2 ⟨hs, fun hp hsym => .inl (h16 hp hsym)⟩, by rw [hform],
    encode_symbol_with_bits hform h16⟩

/-- A symbol that is an element by itself is encoded as its codeword. -/
theorem encode_standsAlone {c : Codes} {i : Instr} {ph : Phase} {sym : Nat}
    (hs : hasCodeword (c.forPhase ph) sym = true) (h : standsAlone c ph sym i) :
    i.wellFormed c = true ∧ i.form.1 = ph ∧ encode c i = codewordBits (c.forPhase ph) sym := by
  rcases h with ⟨hform, h16⟩ | ⟨rfl, rfl, rfl, hv⟩
  · have henc := encode_symbol hs hform fun hp hsym => absurd hsym (h16 hp)
    rwa [List.append_nil] at henc
  · refine ⟨(wellFormed_symbol rfl).2 ⟨hs, fun _ _ => .inr rfl⟩, rfl, ?_⟩
    rw [encode_clRepPrev, hv, if_neg Bool.false_ne_true, List.append_nil]
    rfl

theorem inCodeword_after {ph : Phase} (hi : (Reader.start ph).inCodeword = true) (bs : List Bool) :
    ((Reader.start ph).after bs).inCodeword = true := by
  cases ph
  case token | distSym | dynLens => rfl
  all_goals cases hi

/-- How the decoding of a symbol goes on from its codeword: the bits run out, or a symbol is resolved, or the first bit
that no codeword has is met (R206). -/
theorem decode_start_cases {c : Codes} {ph : Phase} (hT : (c.forPhase ph).ok)
    (hi : (Reader.start ph).inCodeword = true) (bits : List Bool) :
    ((c.forPhase ph).begun bits ∧ ∃ q, decode c (Reader.start ph) bits = .short q) ∨
    (∃ (r : Reader) (sym : Nat) (rest : List Bool), r.phase = ph ∧ hasCodeword (c.forPhase ph) sym = true ∧
      findSymbol (c.forPhase r.phase) r.curLen r.curCode = some sym ∧
      bits = codewordBits (c.forPhase ph) sym ++ rest ∧
      decode c (Reader.start ph) bits = afterLook c (resolved c r sym) rest) ∨
    (∃ r rest, (c.forPhase ph).rejects bits rest ∧ decode c (Reader.start ph) bits = .invalidHuffmanCode r rest) := by
  rw [decode_start_after hi]
  rcases decode_after (r := Reader.start ph) (inCodeword_after hi) hT (.inl rfl) bits with
    ⟨hb, hq⟩ | ⟨sym, more, rest, hs, hbits, hsplit, hdecode⟩ | ⟨more, b, rest, hb, hsplit, hnone, hdecode⟩
  · exact .inl ⟨hb, hq⟩
  · rw [List.nil_append] at hbits hdecode
    have hbits : codewordBits (c.forPhase ph) sym = more := hbits
    refine .inr (.inl ⟨(Reader.start ph).after more, sym, rest, rfl, hs, ?_, by rw [hbits]; exact hsplit, hdecode⟩)
    have hne : 1 ≤ more.length := by
      obtain ⟨w, hw, h0⟩ := hasCodeword_iff.1 hs
      have hlen : more.length = w.len.toNat := by rw [← hbits]; exact codewordBits_length hw
      exact Nat.pos_of_ne_zero fun hz => h0 (BitVec.eq_of_toNat_eq (hlen.symm.trans hz))
    have h15 : more.length ≤ 15 := by rw [← hbits]; exact codewordBits_length_le _ _
    exact (findSymbol_after hT hne h15 sym).2 ⟨hs, hbits⟩
  · exact .inr (.inr ⟨_, rest, ⟨more, b, hsplit, hb, hnone⟩, hdecode⟩)

/-- What decodes to an element in a phase of fixed-width fields is its field. -/
theorem encode_of_decode_field {c : Codes} {ph : Phase} {bits : List Bool} {i : Instr} {r : Reader} {rest : List Bool}
    (hph : Machine.beganIn ph = ph) (hi : (Reader.start ph).inCodeword = false)
    (h : decode c (Reader.start ph) bits = .instr i r rest) :
    i.wellFormed c = true ∧ i.form.1 = ph ∧ bits = encode c i ++ rest := by
  obtain ⟨f, hbits, hlen, hinstr⟩ := decode_field_instr hi (Nat.zero_le _) h
  obtain ⟨hwf, hphase, henc⟩ := encode_field (c := c) (fieldInstr_start_form hph hi hlen hinstr)
  exact ⟨hwf, hphase, by rw [henc]; exact hbits⟩

/-- What decodes to an element in a phase of symbols is a codeword, and the symbol's extra bits. -/
theorem encode_of_decode_symbol {c : Codes} {ph : Phase} {bits : List Bool} {i : Instr} {r : Reader}
    {rest : List Bool} (hT : (c.forPhase ph).ok) (hi : (Reader.start ph).inCodeword = true)
    (h : decode c (Reader.start ph) bits = .instr i r rest) :
    i.wellFormed c = true ∧ i.form.1 = ph ∧ bits = encode c i ++ rest := by
  rcases decode_start_cases hT hi bits with
    ⟨-, q, hd⟩ | ⟨q, sym, left, rfl, hs, hfound, hsplit, hd⟩ | ⟨q, left, -, hd⟩ <;> rw [hd] at h
  · cases h
  · rcases resolved_cases c q sym with ⟨j, halone, hres⟩ | ⟨hx, hres⟩ | ⟨-, hres⟩ <;> rw [hres] at h
    · cases h
      obtain ⟨hwf, hphase, henc⟩ := encode_standsAlone hs halone
      exact ⟨hwf, hphase, by rw [henc, hsplit]⟩
    · have hq := extraOf_not_inCodeword hx
      have hfld := extraOf_fld q sym
      rw [afterLook_lookField hq] at h
      obtain ⟨f, rfl, hlen, hinstr⟩ := decode_field_instr hq (by rw [hfld]; exact Nat.zero_le _) h
      rw [hfld, List.nil_append] at hlen hinstr
      rw [fieldWidth_extraOf hfound hx] at hlen
      rw [fieldInstr_extraOf hfound hx] at hinstr
      have hform := extraInstr_written hx hinstr
      rw [← hlen, lsbBits_bitsToNat] at hform
      have h16 : q.phase = .dynLens → sym = 16 → c.prevValid = true := by
        rcases hx with ⟨hp, -⟩ | ⟨hp, -⟩ | ⟨-, -, hprev⟩
        · simp [hp]
        · simp [hp]
        · exact fun _ => hprev
      obtain ⟨hwf, hphase, henc⟩ := encode_symbol hs hform h16
      exact ⟨hwf, hphase, by rw [henc, hsplit, List.append_assoc]⟩
    · cases h
  · cases h

/-- Settles O22: an encoding is decoded by its element's form, and a decoding is a field or a codeword with its field. -/
theorem encodedElementsDecodeBack : Obligations.EncodedElementsDecodeBack := by
  intro c hll hd hcl
  refine ⟨fun i rest hwf => decode_encode hll hd hcl hwf rest, fun ph bits i r rest hph h => ?_⟩
  cases hi : (Reader.start ph).inCodeword
  · exact encode_of_decode_field hph hi h
  · exact encode_of_decode_symbol (forPhase_ok hll hd hcl hi) hi h

/-! ### Where bits are rejected (R206, R427) -/

/-- In a phase of fixed-width fields every value is an element. -/
theorem fieldInstr_start_isSome {c : Codes} {ph : Phase}
    (hph : ph ∈ [Phase.hdr, .dynHdr, .dynCll, .storedHdr, .storedCopy]) (f : List Bool) :
    ∃ i, fieldInstr c { Reader.start ph with fld := f } = some i := by
  simp only [List.mem_cons, List.not_mem_nil, or_false] at hph
  rcases hph with rfl | rfl | rfl | rfl | rfl
  all_goals exact ⟨_, rfl⟩

theorem field_never_rejected {c : Codes} {ph : Phase}
    (hph : ph ∈ [Phase.hdr, .dynHdr, .dynCll, .storedHdr, .storedCopy]) (bits : List Bool) (r : Reader)
    (rest : List Bool) : decode c (Reader.start ph) bits ≠ .invalidHuffmanCode r rest := by
  intro h
  have hi : (Reader.start ph).inCodeword = false := by
    simp only [List.mem_cons, List.not_mem_nil, or_false] at hph
    rcases hph with rfl | rfl | rfl | rfl | rfl <;> rfl
  obtain ⟨f, hnone⟩ := decode_field_invalid hi h
  obtain ⟨i, hsome⟩ := fieldInstr_start_isSome (c := c) hph f
  rw [hnone] at hsome
  cases hsome

/-- A symbol of the alphabet is not rejected, and neither are its extra bits. -/
theorem resolved_not_rejected {c : Codes} {r : Reader} {sym : Nat} (hsym : sym < alphabet r.phase)
    (hfound : findSymbol (c.forPhase r.phase) r.curLen r.curCode = some sym) (bits : List Bool) (q : Reader)
    (rest : List Bool) : afterLook c (resolved c r sym) bits ≠ .invalidHuffmanCode q rest := by
  intro h
  rcases resolved_cases c r sym with ⟨j, -, hres⟩ | ⟨hx, hres⟩ | ⟨hle, -⟩
  · rw [hres] at h
    cases h
  · have hq := extraOf_not_inCodeword hx
    rw [hres, afterLook_lookField hq] at h
    obtain ⟨f, hnone⟩ := decode_field_invalid hq h
    obtain ⟨i, hsome⟩ := extraInstr_isSome hx hsym (bitsToNat f)
    rw [fieldInstr_extraOf hfound hx, hsome] at hnone
    cases hnone
  · omega

theorem Code.begun_of_prefix {T : Code} {bs cs : List Bool} (hp : bs <+: cs) (h : T.begun cs) : T.begun bs := by
  rcases h with rfl | ⟨s, hs, hcs, hne⟩
  · exact .inl (List.prefix_nil.1 hp)
  · refine .inr ⟨s, hs, hp.trans hcs, ?_⟩
    rintro rfl
    exact hne (hcs.eq_of_length_le hp.length_le)

/-- The bits up to the one that shows the rejection are no longer a beginning. -/
theorem Code.not_begun_of_none {T : Code} {read : List Bool} {b : Bool}
    (hnone : ∀ s, hasCodeword T s = true → ¬ (read ++ [b]) <+: codewordBits T s) : ¬ T.begun (read ++ [b]) := by
  rintro (h | ⟨s, hs, hp, -⟩)
  · simp at h
  · exact hnone s hs hp

/-- What was read, with the bit that shows the rejection, begins the bits. -/
theorem concat_prefix_of_split {bits read rest : List Bool} {b : Bool} (h : bits = read ++ b :: rest) :
    read ++ [b] <+: bits := ⟨rest, by rw [h, List.append_assoc]; rfl⟩

/-- Bits are rejected in one place only. -/
theorem Code.rejects_unique {T : Code} {bits rest rest' : List Bool} (h : T.rejects bits rest)
    (h' : T.rejects bits rest') : rest = rest' := by
  obtain ⟨read, b, hsplit, hbegun, hnone⟩ := h
  obtain ⟨read', b', hsplit', hbegun', hnone'⟩ := h'
  have hread : read ++ [b] = read' ++ [b'] := by
    rcases List.prefix_or_prefix_of_prefix (concat_prefix_of_split hsplit) (concat_prefix_of_split hsplit') with
      hp | hp <;> rcases List.prefix_concat_iff.1 hp with he | hp'
    · exact he
    · exact absurd (Code.begun_of_prefix hp' hbegun') (Code.not_begun_of_none hnone)
    · exact he.symm
    · exact absurd (Code.begun_of_prefix hp' hbegun) (Code.not_begun_of_none hnone')
  have hbits : (read ++ [b]) ++ rest = (read' ++ [b']) ++ rest' := by
    rw [List.append_assoc, List.append_assoc]
    exact hsplit.symm.trans hsplit'
  rw [hread] at hbits
  exact List.append_cancel_left hbits

/-- Bits that begin with a codeword are not rejected. -/
theorem Code.not_rejects_of_codeword {T : Code} (hT : T.ok) {sym : Nat} (hs : hasCodeword T sym = true)
    (more rest : List Bool) : ¬ T.rejects (codewordBits T sym ++ more) rest := by
  rintro ⟨read, b, hsplit, hbegun, hnone⟩
  rcases List.prefix_or_prefix_of_prefix (concat_prefix_of_split hsplit) (List.prefix_append _ more) with hp | hp
  · exact hnone sym hs hp
  · rcases List.prefix_concat_iff.1 hp with he | hp'
    · exact hnone sym hs (by rw [he])
    · exact Code.begun_not_codeword hT (Code.begun_of_prefix hp' hbegun) sym hs rfl

/-- The decoder rejects a symbol's bits exactly where R206 does. -/
theorem decode_rejects_iff {c : Codes} {ph : Phase} (hT : (c.forPhase ph).ok)
    (hi : (Reader.start ph).inCodeword = true) (hsize : (c.forPhase ph).length ≤ alphabet ph) (bits rest : List Bool) :
    (∃ r, decode c (Reader.start ph) bits = .invalidHuffmanCode r rest) ↔ (c.forPhase ph).rejects bits rest := by
  rcases decode_start_cases hT hi bits with
    ⟨hbegun, q, hd⟩ | ⟨q, sym, left, rfl, hs, hfound, rfl, hd⟩ | ⟨q, left, hrej, hd⟩ <;> rw [hd]
  · refine ⟨nofun, fun ⟨read, b, hsplit, _, hnone⟩ => ?_⟩
    exact absurd (Code.begun_of_prefix (concat_prefix_of_split hsplit) hbegun) (Code.not_begun_of_none hnone)
  · obtain ⟨w, hw, -⟩ := hasCodeword_iff.1 hs
    have hsym : sym < alphabet q.phase := Nat.lt_of_lt_of_le (List.getElem?_eq_some_iff.1 hw).1 hsize
    exact ⟨fun ⟨r, h⟩ => absurd h (resolved_not_rejected hsym hfound left r rest),
      fun h => absurd h (Code.not_rejects_of_codeword hT hs left rest)⟩
  · constructor
    · rintro ⟨r, h⟩
      cases h
      exact hrej
    · intro h
      exact ⟨q, by rw [Code.rejects_unique hrej h]⟩

end Sys2Proof

namespace Sys2Proof.Machine

/-! ### A step runs what the bits to come decode to (R120, R138, R206) -/

/-- What reading an element from the start of a step answers, by what `decode` answers on the bits to come. -/
theorem fetchElement_decode_step (s : State) :
    match decode (beginElement s).codes (beginElement s).reader (upcoming (beginElement s)) with
    | .instr i r rest => ∃ t, fetchElement fetchBound (beginElement s) = .got i t ∧ t.reader = r ∧ upcoming t = rest
    | .invalidHuffmanCode r rest =>
        ∃ t, fetchElement fetchBound (beginElement s) = .raised .invalidHuffmanCode t ∧ t.reader = r ∧ upcoming t = rest
    | .short r => ∃ t, readsOnly (beginElement s) t ∧ t.reader = r ∧ upcoming t = [] ∧
        ((∃ u, starved t = .wait u ∧ fetchElement fetchBound (beginElement s) = .wait u) ∨
         (∃ e, starved t = .raised e t ∧ fetchElement fetchBound (beginElement s) = .raised e t)) :=
  fetchElement_decode fetchBound (beginElement s) (Nat.lt_of_le_of_lt (bitsLeft_le _) (by decide))

/-- Settles O17: `fetchElement` reads what `decode` decodes, and only reads. -/
theorem stepRunsTheDecodedElement : Obligations.StepRunsTheDecodedElement := by
  intro s i r rest hr ho hp hdec
  have hfetch := fetchElement_decode_step s
  rw [hdec] at hfetch
  obtain ⟨t, hf, hreader, hrest⟩ := hfetch
  have hleaves := fetchElement_leaves fetchBound (beginElement s)
  rw [hf] at hleaves
  exact ⟨t, by rw [step_reads hr ho hp, hf], hleaves, hreader, hrest⟩

/-- Settles O18: the step raises what `fetchElement` does, and the decoder rejects as R206 has it. -/
theorem stepRaisesOnABadCodeword : Obligations.StepRaisesOnABadCodeword := by
  refine ⟨fun s r rest hr ho hp hdec => ?_, fun c bits rest hll hd hcl hllSize hdSize hclSize => ?_⟩
  · have hfetch := fetchElement_decode_step s
    rw [hdec] at hfetch
    obtain ⟨t, hf, hreader, hrest⟩ := hfetch
    have hleaves := fetchElement_leaves fetchBound (beginElement s)
    rw [hf] at hleaves
    exact ⟨t, by rw [step_reads hr ho hp, hf]; rfl, hleaves, hreader, hrest⟩
  · exact ⟨decode_rejects_iff (ph := .token) hll rfl hllSize bits rest,
      decode_rejects_iff (ph := .distSym) hd rfl hdSize bits rest,
      decode_rejects_iff (ph := .dynLens) hcl rfl hclSize bits rest,
      fun ph hph r => field_never_rejected hph bits r rest⟩

/-- Settles O19: what the port answers when a bit is needed and none is to come. -/
theorem stepWithoutInputStallsOrRaises : Obligations.StepWithoutInputStallsOrRaises := by
  intro s r hr ho hp hdec
  have hfetch := fetchElement_decode_step s
  rw [hdec] at hfetch
  obtain ⟨t, hreads, hreader, hrest, hend⟩ := hfetch
  refine ⟨t, hreads, hreader, hrest, ?_⟩
  rw [step_reads hr ho hp]
  rcases hend with ⟨u, hstarved, hf⟩ | ⟨e, hstarved, hf⟩ <;> rw [hf] <;> unfold starved at hstarved
  · cases hsrc : t.src with
    | nil => rw [hsrc] at hstarved; cases hstarved; rfl
    | cons p rest =>
      rw [hsrc] at hstarved
      dsimp only at hstarved ⊢
      split_ifs at hstarved ⊢
      cases hstarved
      rfl
  · cases hsrc : t.src with
    | nil => rw [hsrc] at hstarved; cases hstarved
    | cons p rest =>
      rw [hsrc] at hstarved
      dsimp only at hstarved ⊢
      split_ifs at hstarved ⊢ <;> cases hstarved <;> rw [← hsrc] <;> rfl

end Sys2Proof.Machine

/-! Family other: how long an element can be (R128), and words written out from the spec. -/

namespace Sys2Proof

/-! ### An element has at most 32 bits (R95, R128) -/

/-- A bound on the bits an element can still take: what is left of a codeword and an extra-bits field after it, or of
the field. -/
def bitsOpen (c : Codes) (r : Reader) : Nat :=
  if r.inCodeword then (if r.part = .start then 15 else 15 - r.curLen.toNat) + 13 else fieldWidth c r - r.fld.length

theorem bitsOpen_codeword {c : Codes} {r : Reader} (hi : r.inCodeword = true) (hp : r.part ≠ .start) :
    bitsOpen c r = 15 - r.curLen.toNat + 13 := by
  rw [bitsOpen, if_pos hi, if_neg hp]

theorem bitsOpen_field {c : Codes} {r : Reader} (hi : r.inCodeword = false) :
    bitsOpen c r = fieldWidth c r - r.fld.length := by
  rw [bitsOpen, if_neg (by simp [hi])]

theorem bitsOpen_push_codeword {c : Codes} {r : Reader} (hi : r.inCodeword = true) (hp : r.part ≠ .start)
    (hl : r.curLen.toNat ≤ 14) (b : Bool) : bitsOpen c (pushBit r b) < bitsOpen c r := by
  have hlen : (r.curLen + 1).toNat = r.curLen.toNat + 1 := by rw [BitVec.toNat_add]; simp; omega
  have hpush : bitsOpen c (pushBit r b) = 15 - (r.curLen + 1).toNat + 13 := by
    rw [Machine.pushBit_codeword hi]
    exact bitsOpen_codeword hi hp
  rw [hpush, bitsOpen_codeword hi hp, hlen]
  omega

theorem bitsOpen_push_field {c : Codes} {r : Reader} (hi : r.inCodeword = false) (b : Bool) :
    bitsOpen c (pushBit r b) = fieldWidth c r - (r.fld.length + 1) := by
  rw [Machine.pushBit_field hi, bitsOpen_field (r := { r with fld := r.fld ++ [b] }) hi, List.length_append]
  rfl

theorem inCodeword_of_root {r : Reader} (hi : r.inCodeword = true) :
    Reader.inCodeword { r with part := .code, curCode := 0, curLen := 0 } = true := by
  revert hi
  unfold Reader.inCodeword
  cases r.phase <;> simp

/-- A look that needs a bit is at the root of a codeword, inside one, at the start of a symbol's extra bits, or in a
field. -/
theorem look_more_cases {c : Codes} {r q : Reader} (h : look c r = .more q) :
    (r.inCodeword = true ∧ r.part = .start ∧ q = { r with part := .code, curCode := 0, curLen := 0 }) ∨
    (r.inCodeword = true ∧ r.part ≠ .start ∧ r.curLen.toNat ≤ 14 ∧ q = r) ∨
    (r.inCodeword = true ∧ r.part ≠ .start ∧
      ∃ sym, findSymbol (c.forPhase r.phase) r.curLen r.curCode = some sym ∧ hasExtra c r.phase sym ∧
        q = r.extraOf sym) ∨
    (r.inCodeword = false ∧ r.fld.length < fieldWidth c r ∧ q = r) := by
  rcases look_cases c r with ⟨hi, hs, hl⟩ | ⟨hi, hs, hlen, hl⟩ | ⟨hi, hs, sym, hfound, hl⟩ | ⟨-, -, hl⟩ | ⟨hi, hl⟩ <;>
    rw [hl] at h
  · cases h; exact .inl ⟨hi, hs, rfl⟩
  · cases h; exact .inr (.inl ⟨hi, hs, hlen, rfl⟩)
  · rcases resolved_cases c r sym with ⟨i, -, hres⟩ | ⟨hx, hres⟩ | ⟨-, hres⟩ <;> rw [hres] at h
    · cases h
    · exact .inr (.inr (.inl ⟨hi, hs, sym, hfound, hx, (Machine.lookField_more h).1⟩))
    · cases h
  · cases h
  · obtain ⟨rfl, hlt⟩ := Machine.lookField_more h
    exact .inr (.inr (.inr ⟨hi, hlt, rfl⟩))

/-- Every bit read brings the element's end nearer. -/
theorem bitsOpen_push {c : Codes} {r q : Reader} (h : look c r = .more q) (b : Bool) :
    bitsOpen c (pushBit q b) < bitsOpen c r := by
  rcases look_more_cases h with ⟨hi, hs, rfl⟩ | ⟨hi, hs, hlen, rfl⟩ | ⟨hi, hs, sym, hfound, hx, rfl⟩ | ⟨hi, hlt, rfl⟩
  · refine Nat.lt_of_lt_of_le (bitsOpen_push_codeword (inCodeword_of_root hi) (by simp) (by simp) b) ?_
    rw [bitsOpen_codeword (inCodeword_of_root hi) (by simp), bitsOpen, if_pos hi, if_pos hs]
    simp
  · exact bitsOpen_push_codeword hi hs hlen b
  · have hwidth := extraWidth_le hx
    rw [bitsOpen_push_field (extraOf_not_inCodeword hx), fieldWidth_extraOf hfound hx, extraOf_fld,
      bitsOpen_codeword hi hs]
    simp only [List.length_nil]
    omega
  · rw [bitsOpen_push_field hi, bitsOpen_field hi]
    omega

/-- Bits that do not settle an element are fewer than it can still take. -/
theorem length_of_short {c : Codes} {r q : Reader} {bits : List Bool} (h : decode c r bits = .short q) :
    bits.length < bitsOpen c r := by
  induction bits generalizing r with
  | nil =>
    cases hl : look c r <;> simp only [decode, hl, reduceCtorEq] at h
    exact Nat.zero_lt_of_lt (bitsOpen_push hl false)
  | cons b bs ih =>
    cases hl : look c r <;> simp only [decode, hl, reduceCtorEq] at h
    have hpush := bitsOpen_push hl b
    have hrest := ih h
    rw [List.length_cons]
    omega

theorem bitsOpen_start_le (c : Codes) (ph : Phase) : bitsOpen c (Reader.start ph) ≤ 32 := by
  have hwidth := Machine.fieldWidth_le c (Reader.start ph)
  unfold bitsOpen
  split_ifs <;> omega

/-- Settles O20: an element has at most 32 bits from its start. -/
theorem thirtyTwoBitsSettleAnElement : Obligations.ThirtyTwoBitsSettleAnElement := by
  intro c ph bits hlen r h
  have hshort := length_of_short h
  have hstart := bitsOpen_start_le c ph
  omega

/-! ### Words written out from the spec -/

theorem fixedLl_ok : fixedLl.ok := build_ok (length_le_maxLlDBits _) build_fixedLl

theorem fixedD_ok : fixedD.ok := build_ok (length_le_maxLlDBits _) build_fixedD

/-- Nineteen codewords of 5 bits are not over-subscribed. -/
theorem build_tableCl : build 7 (List.replicate 19 5) = some tableCl := by
  rcases build_cases 7 (List.replicate 19 5) with ⟨h, -⟩ | ⟨-, h⟩
  · exact absurd h (by decide +kernel)
  · rw [tableCl, show Config.maxClBits = 7 from rfl, h, Option.getD_some]

theorem tableCl_ok : tableCl.ok :=
  build_ok (fun l hl => by rw [List.eq_of_mem_replicate hl]; decide) build_tableCl

theorem tableCodes_ll : tableCodes.ll = fixedLl := by rw [tableCodes]

theorem tableCodes_d : tableCodes.d = fixedD := by rw [tableCodes]

theorem tableCodes_cl : tableCodes.cl = tableCl := by rw [tableCodes]

theorem tableCodes_prevValid : tableCodes.prevValid = true := by rw [tableCodes]

theorem hasCodeword_of_bits {T : Code} {s : Nat} (h : codewordBits T s ≠ []) : hasCodeword T s = true := by
  unfold codewordBits at h
  cases hw : T[s]? with
  | none => simp [hw] at h
  | some w =>
    refine hasCodeword_iff.2 ⟨w, hw, fun h0 => h ?_⟩
    simp [hw, h0, msbBits, lsbBits]

section
variable {i : Instr} {sym : Nat} {code bits word : List Bool} (hne : code ≠ []) (hword : word = code ++ bits)
include hne hword

/-- A codeword and the extra bits of its symbol decode to the element they are written for. -/
theorem decode_table_symbol {ph : Phase} (hform : i.form = (ph, some sym, bits))
    (hcode : codewordBits (tableCodes.forPhase ph) sym = code) :
    (decode tableCodes (Reader.start ph) word).instr? = some i := by
  obtain ⟨hwf, hphase, henc⟩ := encode_symbol (c := tableCodes) (hasCodeword_of_bits (by rw [hcode]; exact hne)) hform
    fun _ _ => tableCodes_prevValid
  obtain ⟨r, hdecode⟩ := decode_encode (c := tableCodes) (by rw [tableCodes_ll]; exact fixedLl_ok)
    (by rw [tableCodes_d]; exact fixedD_ok) (by rw [tableCodes_cl]; exact tableCl_ok) hwf []
  rw [henc, hphase, hcode, List.append_nil, ← hword] at hdecode
  rw [hdecode, Decoded.instr?]

theorem decode_table_token (hform : i.form = (.token, some sym, bits)) (hcode : codewordBits fixedLl sym = code) :
    (decode tableCodes (Reader.start .token) word).instr? = some i :=
  decode_table_symbol hne hword hform (by rw [Codes.forPhase, tableCodes_ll]; exact hcode)

theorem decode_table_distance (hform : i.form = (.distSym, some sym, bits)) (hcode : codewordBits fixedD sym = code) :
    (decode tableCodes (Reader.start .distSym) word).instr? = some i :=
  decode_table_symbol hne hword hform (by rw [Codes.forPhase, tableCodes_d]; exact hcode)

end

/-- Settles O23: each word is a header's field, or a fixed codeword of R133's table with its extra bits. -/
theorem specWordsDecode : Obligations.SpecWordsDecode := by
  have hlit := codewordBits_fixedLl_0_143 (s := 0x41) (by decide)
  have heob := codewordBits_fixedLl_256_279 (s := 256) (by decide) (by decide)
  have hlen := codewordBits_fixedLl_256_279 (s := 269) (by decide) (by decide)
  have hdist := codewordBits_fixedD (ds := 6) (by decide)
  exact ⟨decode_header_instr? _ (headerInstr_fixed true) [], decode_table_token (by decide) (by decide) rfl hlit,
    decode_table_token (by decide) (by decide) rfl heob, congrArg Decoded.instr? (decode_dynHeader tableCodes 1 0 14 []),
    decode_table_token (by decide) (by decide) rfl hlen, decode_table_distance (by decide) (by decide) rfl hdist⟩

end Sys2Proof

/-! Family other: the invariant. It holds after reset, every step keeps it, and from it no step is a fault. -/

namespace Sys2Proof.Machine

/-! ### The parts of the invariant

`HoldsOutput` is the window side. The rest is split by what may touch it: the tables, the registers that a phase
relies on, the byte buffer, and the reader. -/

/-- The arrays and codes have their sizes, and the codes can be used (R47 to R52, R203). -/
structure TablesOk (s : State) : Prop where
  sizes : s.llLen.length = 288 ∧ s.dLen.length = 32 ∧ s.clLen.length = 19 ∧ s.lens.length = 320 ∧
    s.ll.length = 288 ∧ s.d.length = 32 ∧ s.cl.length = 19
  codesOk : s.ll.ok ∧ s.d.ok ∧ s.cl.ok

/-- What an element that begins in phase `p` relies on. -/
structure PhaseOk (p : Phase) (s : State) : Prop where
  errIff : s.err = .none ↔ p ≠ .error
  copying : p = .copy →
    1 ≤ s.copyRem.toNat ∧ s.copyRem.toNat ≤ 258 ∧ 1 ≤ s.pendDist.toNat ∧ s.pendDist.toNat ≤ s.hist.toNat
  storing : p = .storedCopy → 1 ≤ s.storedRem.toNat
  lengthHeld : p = .distSym → 3 ≤ s.pendLen.toNat ∧ s.pendLen.toNat ≤ 258
  clls : p = .dynCll → s.clIdx.toNat < s.hclen.toNat ∧ s.hclen.toNat ≤ 19
  counts : p = .dynCll ∨ p = .dynLens →
    257 ≤ s.hlit.toNat ∧ s.hlit.toNat ≤ 288 ∧ 1 ≤ s.hdist.toNat ∧ s.hdist.toNat ≤ 32
  lensLeft : p = .dynLens → s.lenIdx.toNat < totalLens s ∧
    (s.prevValid = true → 1 ≤ s.lenIdx.toNat ∧ s.lens[s.lenIdx.toNat - 1]? = some s.prevLen)

/-- At most 8 bits are held, and nothing above them (R45). -/
def BufferOk (s : State) : Prop := s.bitcnt.toNat ≤ 8 ∧ s.bitbuf.toNat < 2 ^ s.bitcnt.toNat

/-- Inside a codeword no bits of a field are held. -/
def fieldClosed (r : Reader) : Prop := r.inCodeword = true → r.fld = []

/-- The phases in which a byte can stand on the port (R90). -/
def emits (p : Phase) : Prop := p = .token ∨ p = .copy ∨ p = .storedCopy

/-- A byte is offered in the phases that emit only. -/
def OffersOk (s : State) : Prop := s.outValid = true → emits s.phase

theorem beganIn_ne_error_iff (p : Phase) : beganIn p ≠ .error ↔ p ≠ .error := by cases p <;> simp [beganIn]

theorem Inv.phaseOk {s : State} (h : Inv s) : PhaseOk (beganIn s.phase) s where
  errIff := h.errIff.trans (beganIn_ne_error_iff s.phase).symm
  copying hp := h.copying (by cases hs : s.phase <;> simp [hs, beganIn] at hp ⊢)
  storing hp := h.storing (by cases hs : s.phase <;> simp [hs, beganIn] at hp ⊢)
  lengthHeld hp := h.lengthHeld (by cases hs : s.phase <;> simp [hs, beganIn] at hp ⊢)
  clls hp := h.clls (by cases hs : s.phase <;> simp [hs, beganIn] at hp ⊢)
  counts hp := h.counts (by cases hs : s.phase <;> simp [hs, beganIn] at hp ⊢)
  lensLeft hp := h.lensLeft (by cases hs : s.phase <;> simp [hs, beganIn] at hp ⊢)

theorem Inv.tablesOk {s : State} (h : Inv s) : TablesOk s := ⟨h.sizes, h.codesOk⟩

/-- The invariant from its parts, for a state in the middle of an element or between two. -/
theorem inv_of_parts {s : State} (hout : HoldsOutput s) (htables : TablesOk s) (hphase : PhaseOk (beganIn s.phase) s)
    (hbuffer : BufferOk s) (hoffers : OffersOk s)
    (hreading : readsInput s.phase = true → ∃ r, look s.codes s.reader = .more r) (hclosed : fieldClosed s.reader)
    (hbetween : s.phase = .copy ∨ s.outValid = true → s.part = .start ∧ s.fld = []) : Inv s where
  winWf := hout.winWf
  histEq := hout.histEq
  wpEq := hout.wpEq
  outCountEq := hout.outCountEq
  window := hout.window
  errIff := hphase.errIff.trans (beganIn_ne_error_iff s.phase)
  sizes := htables.sizes
  codesOk := htables.codesOk
  buffer := hbuffer
  offered := hoffers
  copying hp := hphase.copying (by rw [hp]; rfl)
  storing hp := hphase.storing (by rw [hp]; rfl)
  lengthHeld hp := hphase.lengthHeld (by rcases hp with hp | hp <;> rw [hp] <;> rfl)
  clls hp := hphase.clls (by rw [hp]; rfl)
  counts hp := hphase.counts (by rcases hp with hp | hp <;> rw [hp] <;> simp [beganIn])
  lensLeft hp := hphase.lensLeft (by rw [hp]; rfl)
  reading := hreading
  codewordOnly := hclosed
  betweenElements := hbetween

/-! ### Between two elements -/

/-- The tables and the registers of the phase are as the invariant says, and the phase is one in which elements begin. -/
structure AtRest (s : State) : Prop where
  tables : TablesOk s
  phaseOk : PhaseOk s.phase s
  began : beganIn s.phase = s.phase

/-- The invariant between two elements: nothing of the next one has been read. -/
structure Settled (s : State) : Prop extends AtRest s where
  output : HoldsOutput s
  buffer : BufferOk s
  offers : OffersOk s
  part : s.part = .start
  fld : s.fld = []

/-- At the start of an element a bit is needed. -/
theorem look_start_more (c : Codes) {r : Reader} (hpart : r.part = .start) (hfld : r.fld = [])
    (hbegan : beganIn r.phase = r.phase) (hreads : readsInput r.phase = true) : ∃ q, look c r = .more q := by
  cases hi : r.inCodeword
  case true => exact ⟨_, by rw [look, if_pos hi, lookSymbol, if_pos hpart]⟩
  case false =>
    have hwidth : r.fld.length < fieldWidth c r := by
      rw [hfld]
      cases hp : r.phase <;> simp [hp, beganIn, readsInput, Reader.inCodeword, hpart] at hbegan hreads hi <;>
        simp [fieldWidth, hp]
    exact ⟨r, by rw [look, if_neg (by simp [hi]), lookField, if_pos hwidth]⟩

theorem Settled.inv {s : State} (h : Settled s) : Inv s :=
  inv_of_parts h.output h.tables (by rw [h.began]; exact h.phaseOk) h.buffer h.offers
    (look_start_more s.codes (r := s.reader) h.part h.fld h.began) (fun _ => h.fld) fun _ => ⟨h.part, h.fld⟩

theorem Inv.settled {s : State} (h : Inv s) (hb : s.phase = .copy ∨ s.outValid = true) : Settled s := by
  obtain ⟨hpart, hfld⟩ := h.betweenElements hb
  have hphase : s.phase = .token ∨ s.phase = .copy ∨ s.phase = .storedCopy :=
    hb.elim (fun hp => .inr (.inl hp)) h.offered
  have hbegan : beganIn s.phase = s.phase := by rcases hphase with hp | hp | hp <;> rw [hp] <;> rfl
  have hok := h.phaseOk
  rw [hbegan] at hok
  exact ⟨⟨h.tablesOk, hok, hbegan⟩, h.holdsOutput, h.buffer, h.offered, hpart, hfld⟩

/-! ### Phases that rely on no register -/

/-- An error has been raised: nothing is relied on. -/
theorem phaseOk_error {s : State} (h : s.err ≠ .none) : PhaseOk .error s := by
  constructor
  case errIff => simpa using h
  all_goals simp

theorem phaseOk_free {p : Phase} (hp : p ∈ [Phase.hdr, .dynHdr, .token, .storedHdr, .done]) {s : State}
    (h : s.err = .none) : PhaseOk p s := by
  simp only [List.mem_cons, List.not_mem_nil, or_false] at hp
  rcases hp with rfl | rfl | rfl | rfl | rfl <;> constructor
  all_goals simp [h]

theorem blockEnd_phase_mem (s : State) : (blockEnd s).phase ∈ [Phase.hdr, .dynHdr, .token, .storedHdr, .done] := by
  unfold blockEnd
  cases s.bfinal <;> simp

/-! ### Reset -/

/-- A code without a codeword (log entry 6). -/
theorem unusedCode_ok (n : Nat) : Code.ok (List.replicate n { len := 0, code := 0 }) where
  fits w hw := by rw [List.eq_of_mem_replicate hw]; decide
  prefixFree s t hs := by
    obtain ⟨w, hw, h0⟩ := hasCodeword_iff.1 hs
    rw [List.eq_of_mem_replicate (List.mem_of_getElem? hw)] at h0
    exact absurd rfl h0

theorem settled_applyReset (s : State) : Settled (applyReset s) where
  output := ⟨rfl, rfl, rfl, rfl, fun dist h1 (h : dist ≤ 0) => absurd (h1.trans h) (Nat.not_succ_le_zero 0)⟩
  tables := {
    sizes := ⟨List.length_replicate, List.length_replicate, List.length_replicate, List.length_replicate,
      List.length_replicate, List.length_replicate, List.length_replicate⟩
    codesOk := ⟨unusedCode_ok 288, unusedCode_ok 32, unusedCode_ok 19⟩ }
  phaseOk := phaseOk_free (p := .hdr) (by simp) rfl
  buffer := ⟨Nat.zero_le _, Nat.one_pos⟩
  offers := nofun
  part := rfl
  fld := rfl
  began := rfl

/-- Settles O4: the reset state is its own reset. -/
theorem resetStateMeetsTheInvariant : Obligations.ResetStateMeetsTheInvariant :=
  (settled_applyReset State.reset).inv

end Sys2Proof.Machine

/-! Family other: every meaning keeps the invariant's parts, and so does every cycle of emission. -/

namespace Sys2Proof.Machine

/-! ### A byte is taken, and what follows it -/

theorem atRest_error {s : State} (htables : TablesOk s) (hphase : s.phase = .error) (herr : s.err ≠ .none) :
    AtRest s where
  tables := htables
  phaseOk := by rw [hphase]; exact phaseOk_error herr
  began := by rw [hphase]; rfl

theorem atRest_free {s : State} (htables : TablesOk s)
    (hphase : s.phase ∈ [Phase.hdr, .dynHdr, .token, .storedHdr, .done]) (herr : s.err = .none) : AtRest s where
  tables := htables
  phaseOk := phaseOk_free hphase herr
  began := by
    simp only [List.mem_cons, List.not_mem_nil, or_false] at hphase
    rcases hphase with h | h | h | h | h <;> rw [h] <;> rfl

theorem atRest_raise {e : ErrCode} {s : State} (htables : TablesOk s) (he : e ≠ .none) : AtRest (raise e s) :=
  atRest_error ⟨htables.sizes, htables.codesOk⟩ rfl he

theorem atRest_blockEnd {s : State} (htables : TablesOk s) (herr : s.err = .none) : AtRest (blockEnd s) :=
  atRest_free ⟨htables.sizes, htables.codesOk⟩ (blockEnd_phase_mem s) herr

theorem PhaseOk.err_none {p : Phase} {s : State} (h : PhaseOk p s) (hp : p ≠ .error) : s.err = .none := h.errIff.2 hp

theorem emits_ne_error {p : Phase} (h : emits p) : p ≠ .error := by rcases h with h | h | h <;> rw [h] <;> decide

theorem AtRest.offerByte {s : State} (h : AtRest s) (b : Byte) : AtRest (offerByte b s) where
  tables := ⟨h.tables.sizes, h.tables.codesOk⟩
  phaseOk := { h.phaseOk with }
  began := h.began

/-- The history only grows, so a reference that was inside it stays inside. -/
theorem AtRest.takeByte {s : State} (h : AtRest s) (hhist : s.hist.toNat ≤ 32768) : AtRest (takeByte s) where
  tables := ⟨h.tables.sizes, h.tables.codesOk⟩
  phaseOk := { h.phaseOk with
    copying := fun hp => by
      obtain ⟨hpos, hle, hdist, hin⟩ := h.phaseOk.copying hp
      have hgrow := takeByte_hist_toNat s
      exact ⟨hpos, hle, hdist, Nat.le_trans hin (by omega)⟩ }
  began := h.began

theorem AtRest.afterEmit {s : State} (h : AtRest s) (he : emits s.phase) : AtRest (afterEmit s) := by
  have herr := h.phaseOk.err_none (emits_ne_error he)
  rcases afterEmit_cases s with ⟨-, -, ha⟩ | ⟨hp, hmore, ha⟩ | ⟨-, -, ha⟩ | ⟨hp, hmore, ha⟩ | ⟨-, -, ha⟩ <;>
    rw [ha]
  · exact atRest_free ⟨h.tables.sizes, h.tables.codesOk⟩ (by simp) herr
  · obtain ⟨hpos, hle, hdist, hin⟩ := h.phaseOk.copying hp
    exact ⟨⟨h.tables.sizes, h.tables.codesOk⟩,
      { h.phaseOk with copying := fun _ => ⟨by bv_omega, by bv_omega, hdist, hin⟩ }, h.began⟩
  · exact atRest_blockEnd ⟨h.tables.sizes, h.tables.codesOk⟩ herr
  · have hpos := h.phaseOk.storing hp
    exact ⟨⟨h.tables.sizes, h.tables.codesOk⟩, { h.phaseOk with storing := fun _ => by bv_omega }, h.began⟩
  · exact h

theorem AtRest.sinkCycle {s : State} (h : AtRest s) (he : emits s.phase) (hhist : s.hist.toNat ≤ 32768) :
    AtRest (sinkCycle s) := by
  rcases sinkCycle_cases s with ⟨-, hs⟩ | ⟨-, hs⟩ <;> rw [hs]
  · exact (h.takeByte hhist).afterEmit he
  · exact h

theorem AtRest.emit {s : State} (h : AtRest s) (he : emits s.phase) (hhist : s.hist.toNat ≤ 32768) (b : Byte) :
    AtRest (emit b s) :=
  (h.offerByte b).sinkCycle he hhist

theorem sinkCycle_offersOk {s : State} (h : OffersOk s) : OffersOk (sinkCycle s) := by
  rcases sinkCycle_cases s with ⟨-, hs⟩ | ⟨-, hs⟩ <;> rw [hs]
  · rw [afterEmit_frame]; exact nofun
  · exact h

theorem emit_offersOk {s : State} (he : emits s.phase) (b : Byte) : OffersOk (emit b s) := sinkCycle_offersOk fun _ => he

/-! ### The meanings -/

/-- The fixed codes become the active ones (R174, R210). -/
theorem TablesOk.setCodes {s : State} (h : TablesOk s) {T U : Code} (hT : T.length = 288) (hU : U.length = 32)
    (okT : T.ok) (okU : U.ok) {f : Bool} {n : BitVec 2} {p : Phase} :
    TablesOk { s with bfinal := f, btype := n, ll := T, d := U, phase := p } := by
  obtain ⟨hllLen, hdLen, hclLen, hlens, -, -, hcl⟩ := h.sizes
  obtain ⟨-, -, okCl⟩ := h.codesOk
  exact ⟨⟨hllLen, hdLen, hclLen, hlens, hT, hU, hcl⟩, okT, okU, okCl⟩

/-- Where a copy begins, the reference has been checked (R361). -/
theorem atRest_distanceCode {s : State} (htables : TablesOk s) (hphase : PhaseOk .distSym s) {ds x : Nat} (hds : ds < 30)
    (hx : x < 2 ^ distXb.getD ds 0) : AtRest (distanceCode ds x s) := by
  obtain ⟨h3, h258⟩ := hphase.lengthHeld rfl
  have hpos : ∀ ds < 30, 1 ≤ distBase.getD ds 0 := by decide
  have hdist := distanceOf_toNat hds hx
  unfold distanceCode
  rcases referenceCheck_cases { s with pendSym := BitVec.ofNat 5 ds, pendDist := distanceOf ds x } with
    ⟨-, hr⟩ | ⟨hin, hr⟩ <;> rw [hr]
  · exact atRest_raise ⟨htables.sizes, htables.codesOk⟩ nofun
  · refine ⟨⟨htables.sizes, htables.codesOk⟩, ?_, rfl⟩
    constructor
    case errIff => simpa using hphase.errIff
    case copying =>
      have := hpos ds hds
      exact fun _ => ⟨Nat.le_trans (by decide) h3, h258, hdist ▸ Nat.le_add_right_of_le this, hin⟩
    all_goals simp

/-- A length code holds a length of 3 to 258 (R129, R294). -/
theorem atRest_lengthCode {s : State} (htables : TablesOk s) (herr : s.err = .none) {k x : Nat} (hk : k < 29)
    (hx : x < 2 ^ lenXb.getD k 0) : AtRest (lengthCode k x s) := by
  have hlo : ∀ k < 29, 3 ≤ lenBase.getD k 0 := by decide
  have h3 := hlo k hk
  have h258 := lenBase_add_le k hk
  have hlen := lengthOf_toNat hk hx
  refine ⟨⟨htables.sizes, htables.codesOk⟩, ?_, rfl⟩
  constructor
  case errIff => simpa [lengthCode] using herr
  case lengthHeld =>
    refine fun _ => ⟨?_, ?_⟩ <;> simp only [lengthCode, hlen]
    · omega
    · omega
  all_goals simp [lengthCode]

/-- The header's counts are in range (R51, R211). -/
theorem atRest_dynHeader {s : State} (htables : TablesOk s) (herr : s.err = .none) (hlit hdist : BitVec 5)
    (hclen : BitVec 4) {t : State} (h : exec (.dynHeader hlit hdist hclen) s = .next t) : AtRest t := by
  rcases exec_dynHeader_cases hlit hdist hclen s with he | he <;> rw [he] at h <;> cases h
  · exact atRest_raise ⟨htables.sizes, htables.codesOk⟩ nofun
  · have h1 := hlit.isLt
    have h2 := hdist.isLt
    have h3 := hclen.isLt
    refine ⟨⟨htables.sizes, htables.codesOk⟩, ?_, rfl⟩
    constructor
    case errIff => simpa using herr
    case clls => simp only [hclenCount_toNat]; exact fun _ => ⟨by simp, by omega⟩
    case counts => simp only [hlitCount_toNat, hdistCount_toNat]; omega
    all_goals simp

/-- The lengths of the code-length code fit in its three bits (R49). -/
theorem clLens_le (s : State) : ∀ l ∈ clLens s, l.toNat ≤ Config.maxClBits := by
  intro l hl
  obtain ⟨x, -, rfl⟩ := List.mem_map.1 hl
  have := x.isLt
  rw [BitVec.toNat_setWidth]
  simp only [Config.maxClBits]
  omega

/-- The code-length code is built, or its lengths are over-subscribed (R214). -/
theorem atRest_buildCl {s : State} (htables : TablesOk s) (herr : s.err = .none)
    (hcounts : 257 ≤ s.hlit.toNat ∧ s.hlit.toNat ≤ 288 ∧ 1 ≤ s.hdist.toNat ∧ s.hdist.toNat ≤ 32) :
    AtRest (buildCl s) := by
  rcases buildCl_cases s with ⟨-, h⟩ | ⟨T, hT, h⟩ <;> rw [h]
  · exact atRest_raise htables nofun
  · obtain ⟨hllLen, hdLen, hclLen, hlens, hll, hd, -⟩ := htables.sizes
    obtain ⟨okLl, okD, -⟩ := htables.codesOk
    have hTlen : T.length = 19 := (build_length hT).trans ((List.length_map _).trans hclLen)
    refine ⟨⟨⟨hllLen, hdLen, hclLen, hlens, hll, hd, hTlen⟩, okLl, okD, build_ok (clLens_le s) hT⟩, ?_, rfl⟩
    constructor
    case errIff => simpa using herr
    case counts => exact fun _ => hcounts
    case lensLeft => exact fun _ => ⟨by simp [totalLens]; omega, nofun⟩
    all_goals simp

/-- A code-length field leaves fields to read, or the code is built (R213, R214). -/
theorem atRest_clCodeLength {s : State} (htables : TablesOk s) (hphase : PhaseOk .dynCll s)
    (hbegan : beganIn s.phase = .dynCll) (len : BitVec 3) {t : State} (h : exec (.clCodeLength len) s = .next t) : AtRest t := by
  obtain ⟨hleft, h19⟩ := hphase.clls rfl
  have hp : s.phase = .dynCll := by cases hs : s.phase <;> simp [hs, beganIn] at hbegan ⊢
  have hset : TablesOk { s with clLen := s.clLen.set (clOrder.getD s.clIdx.toNat 19) len, clIdx := s.clIdx + 1 } := by
    obtain ⟨hllLen, hdLen, hclLen, hlens, hll, hd, hcl⟩ := htables.sizes
    exact ⟨⟨hllLen, hdLen, List.length_set.trans hclLen, hlens, hll, hd, hcl⟩, htables.codesOk⟩
  rcases exec_clCodeLength_cases len s with ⟨hmore, he⟩ | he <;> rw [he] at h <;> cases h
  · refine ⟨hset, ?_, hp ▸ rfl⟩
    rw [show ({ s with clLen := s.clLen.set (clOrder.getD s.clIdx.toNat 19) len, clIdx := s.clIdx + 1 } : State).phase =
      .dynCll from hp]
    exact { hphase with clls := fun _ => ⟨BitVec.lt_def.1 hmore, h19⟩, lensLeft := nofun }
  · exact atRest_buildCl hset (hphase.err_none (by decide)) (hphase.counts (.inl rfl))

/-- The two codes of a block are built, or one of them is over-subscribed (R221, R222). -/
theorem atRest_splitAndBuilt {s t : State} (htables : TablesOk s) (herr : s.err = .none) (h : splitAndBuilt s t) :
    AtRest t := by
  obtain ⟨hllLen, hdLen, -, -, hnone, hsome, hframe⟩ := h
  obtain ⟨-, -, hclLen, hlens, hll, hd, hcl⟩ := htables.sizes
  obtain ⟨okLl, okD, okCl⟩ := htables.codesOk
  have hcl' : t.cl = s.cl := by rw [hframe]
  have sizes (hll : t.ll.length = 288) (hd : t.d.length = 32) :
      t.llLen.length = 288 ∧ t.dLen.length = 32 ∧ t.clLen.length = 19 ∧ t.lens.length = 320 ∧
        t.ll.length = 288 ∧ t.d.length = 32 ∧ t.cl.length = 19 := by
    refine ⟨hllLen, hdLen, ?_, ?_, hll, hd, hcl' ▸ hcl⟩ <;> rw [hframe]
    · exact hclLen
    · exact hlens
  cases hT : build 15 t.llLen with
  | none =>
    obtain ⟨hp, he, hl, hdd⟩ := hnone hT
    exact atRest_error ⟨sizes (hl ▸ hll) (hdd ▸ hd), hl ▸ okLl, hdd ▸ okD, hcl' ▸ okCl⟩ hp (by rw [he]; decide)
  | some T =>
    obtain ⟨hl, hnoD, hD⟩ := hsome T hT
    have hTlen : t.ll.length = 288 := by rw [hl, build_length hT, hllLen]
    have hTok : t.ll.ok := hl ▸ build_ok (length_le_maxLlDBits _) hT
    cases hU : build 15 t.dLen with
    | none =>
      obtain ⟨hp, he, hdd⟩ := hnoD hU
      exact atRest_error ⟨sizes hTlen (hdd ▸ hd), hTok, hdd ▸ okD, hcl' ▸ okCl⟩ hp (by rw [he]; decide)
    | some U =>
      obtain ⟨hp, he, hdU⟩ := hD U hU
      refine atRest_free ⟨sizes hTlen (by rw [hdU, build_length hU, hdLen]), hTok, ?_, hcl' ▸ okCl⟩
        (by simp [hp]) (he.trans herr)
      exact hdU ▸ build_ok (length_le_maxLlDBits _) hU

/-- A turn of the LENS loop leaves entries to read, the last of which is `prev_len`, or completes the sequence (R215). -/
theorem atRest_lens {s : State} (htables : TablesOk s) (hphase : PhaseOk .dynLens s)
    (hbegan : beganIn s.phase = .dynLens) {i : Instr} (hi : i.form.1 = .dynLens) {t : State} (h : exec i s = .next t) : AtRest t := by
  have herr := hphase.err_none (by decide)
  obtain ⟨hlt, -⟩ := hphase.lensLeft rfl
  obtain ⟨h257, h288, h1, h32⟩ := hphase.counts (.inr rfl)
  have hp : s.phase = .dynLens := by cases hs : s.phase <;> simp [hs, beganIn] at hbegan ⊢
  rcases exec_lens_cases hi s with he | ⟨n, v, hn, hfits, he⟩ <;> rw [he] at h <;> cases h
  · exact atRest_raise htables nofun
  · obtain ⟨hllLen, hdLen, hclLen, hlens, hll, hd, hcl⟩ := htables.sizes
    have hfit : s.lenIdx.toNat + n ≤ s.hlit.toNat + s.hdist.toNat := by
      rcases hfits with rfl | hfits
      · exact hlt
      · exact of_decide_eq_true hfits
    have hrun := runWritten_lensTurnEnd v v true hlens (by omega) hfit
    have hlen : (lensTurnEnd { writeLens n v s with prevLen := v, prevValid := true }).lens.length = 320 := by
      rw [(lensTurnEnd_sequence _).1]; exact (writeLens_lens_length n v s).trans hlens
    generalize lensTurnEnd { writeLens n v s with prevLen := v, prevValid := true } = t at hrun hlen
    rcases Nat.eq_or_lt_of_le hfit with heq | hmore
    · exact atRest_splitAndBuilt
        (s := { s with lens := t.lens, lenIdx := t.lenIdx, prevLen := v, prevValid := true })
        ⟨⟨hllLen, hdLen, hclLen, hlen, hll, hd, hcl⟩, htables.codesOk⟩ herr (hrun.complete heq)
    · have hlast : t.lens[t.lenIdx.toNat - 1]? = some t.prevLen := by
        rw [hrun.lens, hrun.lenIdx, hrun.prevLen, if_pos (by omega)]
      have hidx := hrun.lenIdx
      rw [hrun.missing hmore] at hlast hidx hlen ⊢
      refine ⟨⟨⟨hllLen, hdLen, hclLen, hlen, hll, hd, hcl⟩, htables.codesOk⟩, ?_, hp ▸ rfl⟩
      rw [show ({ s with lens := t.lens, lenIdx := t.lenIdx, prevLen := v, prevValid := true } : State).phase = .dynLens
        from hp]
      refine { hphase with lensLeft := fun _ => ⟨?_, fun _ => ⟨?_, hlast⟩⟩ }
      · rw [hidx]; exact hmore
      · rw [hidx]; omega

/-- Every meaning leaves the engine at rest. -/
theorem exec_atRest {i : Instr} {s t : State} (htables : TablesOk s) (hphase : PhaseOk i.form.1 s)
    (hhist : s.hist.toNat ≤ 32768) (hbegan : beganIn s.phase = i.form.1) (h : exec i s = .next t) : AtRest t := by
  cases meaning i
  case bhStored f | bhDynamic f =>
    cases h
    exact atRest_free ⟨htables.sizes, htables.codesOk⟩ (by simp) (hphase.err_none (by simp [Instr.form]))
  case bhFixed f =>
    cases h
    exact atRest_free (htables.setCodes fixedLl_length fixedD_length fixedLl_ok fixedD_ok) (by simp)
      (hphase.err_none (by simp [Instr.form]))
  case bhReserved f => cases h; exact atRest_raise ⟨htables.sizes, htables.codesOk⟩ nofun
  case dynHeader hlit hdist hclen =>
    exact atRest_dynHeader htables (hphase.err_none (by simp [Instr.form])) hlit hdist hclen h
  case clCodeLength len => exact atRest_clCodeLength htables hphase hbegan len h
  case lens hi => rw [hi] at hphase hbegan; exact atRest_lens htables hphase hbegan hi h
  case lit b =>
    cases h
    refine AtRest.emit (s := { s with phase := .token }) ?_ (.inl rfl) hhist b
    exact atRest_free ⟨htables.sizes, htables.codesOk⟩ (by simp) (hphase.err_none (by simp [Instr.form]))
  case stData b =>
    cases h
    exact AtRest.emit (s := { s with phase := .storedCopy }) ⟨⟨htables.sizes, htables.codesOk⟩, { hphase with }, rfl⟩
      (.inr (.inr rfl)) hhist b
  case eob => cases h; exact atRest_blockEnd htables (hphase.err_none (by simp [Instr.form]))
  case length k x hx hinstr hexec =>
    rw [hexec] at h
    cases h
    obtain ⟨hk, hform⟩ := lenInstr_written hinstr
    exact atRest_lengthCode htables (hphase.err_none (by simp [hform])) hk hx
  case distance ds x hx hinstr hexec =>
    rw [hexec] at h
    cases h
    obtain ⟨hds, hform⟩ := distInstr_written hinstr
    rw [hform] at hphase
    exact atRest_distanceCode htables hphase hds hx
  case undefined hi => rw [exec_undefined_symbol hi] at h; cases h; exact atRest_raise htables nofun
  case stHeader len nlen =>
    have herr := hphase.err_none (by simp [Instr.form])
    rcases exec_stHeader_cases len nlen s with ⟨hlen, he⟩ | he | he <;> rw [he] at h <;> cases h
    · refine ⟨⟨htables.sizes, htables.codesOk⟩, ?_, rfl⟩
      constructor
      case errIff => simpa using herr
      case storing => exact fun _ => Nat.pos_of_ne_zero fun h0 => hlen (BitVec.eq_of_toNat_eq h0)
      all_goals simp
    · exact atRest_blockEnd ⟨htables.sizes, htables.codesOk⟩ herr
    · exact atRest_raise ⟨htables.sizes, htables.codesOk⟩ nofun

end Sys2Proof.Machine

/-! Family other: reading keeps the invariant's parts, and so every step keeps the invariant and answers a next state. -/

namespace Sys2Proof.Machine

/-! ### How reading ends

A stall or an element is reached with the buffer in range, and with the reader in the middle of an element that needs
a bit, or past its end. -/

theorem fieldClosed_of_fld {r : Reader} (h : r.fld = []) : fieldClosed r := fun _ => h

theorem fieldClosed_of_field {r : Reader} (h : r.inCodeword = false) : fieldClosed r := fun hi => by simp [h] at hi

theorem pushBit_closed {r : Reader} (h : fieldClosed r) (b : Bool) : fieldClosed (pushBit r b) := by
  cases hi : r.inCodeword
  · rw [pushBit_field hi]; exact fieldClosed_of_field hi
  · rw [pushBit_codeword hi]; exact fun _ => h hi

/-- A look that needs a bit leaves no bits of a field inside a codeword. -/
theorem look_more_closed {c : Codes} {r q : Reader} (hr : fieldClosed r) (h : look c r = .more q) : fieldClosed q := by
  rcases look_more_cases h with ⟨hi, -, rfl⟩ | ⟨-, -, -, rfl⟩ | ⟨-, -, sym, -, -, rfl⟩ | ⟨-, -, rfl⟩
  · exact fieldClosed_of_fld (hr hi)
  · exact hr
  · exact fieldClosed_of_fld (extraOf_fld r sym)
  · exact hr

/-- A whole element ends its part, and its field if it has one. -/
theorem look_instr_ends {c : Codes} {r q : Reader} {i : Instr} (h : look c r = .instr i q) :
    q.part = .start ∧ (q.fld = [] ∨ (r.inCodeword = true ∧ r.part ≠ .start ∧ q.fld = r.fld)) := by
  have field {q' : Reader} (h : lookField c q' = .instr i q) : q.part = .start ∧ q.fld = [] := by
    rcases lookField_cases c q' with ⟨-, hl⟩ | ⟨-, ⟨j, -, hl⟩ | ⟨-, hl⟩⟩ <;> rw [hl] at h <;> cases h
    exact ⟨rfl, rfl⟩
  rcases look_cases c r with ⟨-, -, hl⟩ | ⟨-, -, -, hl⟩ | ⟨hi, hs, sym, -, hl⟩ | ⟨-, -, hl⟩ | ⟨-, hl⟩ <;> rw [hl] at h
  · cases h
  · cases h
  · rcases resolved_cases c r sym with ⟨j, -, hres⟩ | ⟨-, hres⟩ | ⟨-, hres⟩ <;> rw [hres] at h
    · cases h; exact ⟨rfl, .inr ⟨hi, hs, rfl⟩⟩
    · exact (field h).imp_right .inl
    · cases h
  · cases h
  · exact (field h).imp_right .inl

/-- After a whole element nothing of the next one is held. -/
theorem look_instr_done {c : Codes} {r q : Reader} {i : Instr} (hr : fieldClosed r) (h : look c r = .instr i q) :
    q.part = .start ∧ q.fld = [] := by
  obtain ⟨hpart, hfld | ⟨hi, -, hfld⟩⟩ := look_instr_ends h
  · exact ⟨hpart, hfld⟩
  · exact ⟨hpart, hfld.trans (hr hi)⟩

theorem BufferOk.readBit {s t : State} {b : Bool} (h : BufferOk s) (hr : readBit s = .got b t) : BufferOk t := by
  obtain ⟨h8, hlt⟩ := h
  rcases readBit_cases s with ⟨h0, hb⟩ | ⟨-, ⟨-, hb⟩ | ⟨p, rest, -, ⟨-, hb⟩ | ⟨-, -, hb⟩ |
    ⟨-, -, -, hb⟩ | ⟨-, -, -, hb⟩⟩⟩ <;>
    rw [hb] at hr <;> cases hr
  · have hpos : s.bitcnt.toNat ≠ 0 := fun he => h0 (BitVec.eq_of_toNat_eq he)
    have hcnt : (s.bitcnt - 1).toNat = s.bitcnt.toNat - 1 := by bv_omega
    obtain ⟨k, hk⟩ : ∃ k, s.bitcnt.toNat = k + 1 := ⟨s.bitcnt.toNat - 1, by omega⟩
    refine ⟨?_, ?_⟩
    · simp only [hcnt]; omega
    · simp only [hcnt, BitVec.toNat_ushiftRight, Nat.shiftRight_eq_div_pow, hk, Nat.add_sub_cancel] at hlt ⊢
      rw [pow_succ] at hlt
      omega
  · have hlt := p.inData.isLt
    refine ⟨by simp, ?_⟩
    simp only [BitVec.toNat_ushiftRight, Nat.shiftRight_eq_div_pow]
    simp
    omega

theorem consumeBit_bufferOk {s : State} (h : BufferOk s) (r : Reader) (b : Bool) : BufferOk (consumeBit r b s) := by
  unfold consumeBit
  rw [latchField_frame]
  exact h

/-- What the end of reading says of the state it is reached in. -/
def ReadEnds : Read Instr → Prop
  | .got _ t => BufferOk t ∧ t.part = .start ∧ t.fld = []
  | .wait t => BufferOk t ∧ (∃ r, look t.codes t.reader = .more r) ∧ fieldClosed t.reader
  | .raised e t => BufferOk t ∧ e ≠ .none

theorem fetchElement_ends (n : Nat) (s : State) (hn : bitsLeft s.reader < n) (hbuf : BufferOk s)
    (hclosed : fieldClosed s.reader) : ReadEnds (fetchElement n s) := by
  induction n generalizing s with
  | zero => omega
  | succ n ih =>
    rcases fetchElement_succ n s with ⟨i, r, hl, hf⟩ | ⟨r, hl, hf⟩ |
      ⟨r, hl, ⟨b, t, hr, hf⟩ | ⟨t, hr, hf⟩ | ⟨e, t, hr, hf⟩⟩ <;>
      rw [hf]
    · exact ⟨hbuf, look_instr_done hclosed hl⟩
    · exact ⟨hbuf, by decide⟩
    · have hleft := bitsLeft_push hl b
      have hbuf' : BufferOk t := BufferOk.readBit (s := s.setReader r) hbuf hr
      refine ih _ ?_ (consumeBit_bufferOk hbuf' r b) ?_
      · rw [consumeBit_reader]; omega
      · rw [consumeBit_reader]; exact pushBit_closed (look_more_closed hclosed hl) b
    · have hmore : ReadEnds (.wait (s.setReader r)) := ⟨hbuf, ⟨r, look_more_again hl⟩, look_more_closed hclosed hl⟩
      rcases readBit_wait hr with rfl | ⟨p, -, -, -, ht⟩
      · exact hmore
      · rw [ht]; exact hmore
    · obtain ⟨rfl, he⟩ := readBit_raised hr
      exact ⟨hbuf, by rcases he with rfl | rfl <;> decide⟩

/-! ### Reading keeps the tables, and what the element relies on -/

theorem SameOutput.holdsOutput {s t : State} (h : SameOutput s t) (hs : HoldsOutput s) : HoldsOutput t where
  winWf := by rw [h.win]; exact hs.winWf
  histEq := by rw [h.hist, h.out]; exact hs.histEq
  wpEq := by rw [h.wp, h.out]; exact hs.wpEq
  outCountEq := by rw [h.outCount, h.out]; exact hs.outCountEq
  window := by rw [h.hist, h.wp, h.win, h.out]; exact hs.window

theorem readFrame.tablesOk {s t : State} (h : readFrame s t) (hs : TablesOk s) : TablesOk t := by
  rw [h]; exact ⟨hs.sizes, hs.codesOk⟩

/-- The counts are written while a dynamic header is read only (R211), where nothing relies on them yet. -/
theorem readsOnly.phaseOk {s t : State} (h : readsOnly s t) (hs : PhaseOk (beganIn s.phase) s) :
    PhaseOk (beganIn s.phase) t := by
  have herr : t.err = s.err := by rw [h.frame]
  have hcopyRem : t.copyRem = s.copyRem := by rw [h.frame]
  have hpendDist : t.pendDist = s.pendDist := by rw [h.frame]
  have hhist : t.hist = s.hist := by rw [h.frame]
  have hstoredRem : t.storedRem = s.storedRem := by rw [h.frame]
  have hpendLen : t.pendLen = s.pendLen := by rw [h.frame]
  have hclIdx : t.clIdx = s.clIdx := by rw [h.frame]
  have hhclen : t.hclen = s.hclen := by rw [h.frame]
  have hlenIdx : t.lenIdx = s.lenIdx := by rw [h.frame]
  have hlens : t.lens = s.lens := by rw [h.frame]
  have hprevLen : t.prevLen = s.prevLen := by rw [h.frame]
  have hprevValid : t.prevValid = s.prevValid := by rw [h.frame]
  have counts (hp : beganIn s.phase = .dynCll ∨ beganIn s.phase = .dynLens) : t.hlit = s.hlit ∧ t.hdist = s.hdist :=
    h.counts fun hd => by simp [hd, beganIn] at hp
  constructor
  case errIff => rw [herr]; exact hs.errIff
  case copying => rw [hcopyRem, hpendDist, hhist]; exact hs.copying
  case storing => rw [hstoredRem]; exact hs.storing
  case lengthHeld => rw [hpendLen]; exact hs.lengthHeld
  case clls => rw [hclIdx, hhclen]; exact hs.clls
  case counts =>
    intro hp
    obtain ⟨hhlit, hhdist⟩ := counts hp
    rw [hhlit, hhdist]
    exact hs.counts hp
  case lensLeft =>
    intro hp
    obtain ⟨hhlit, hhdist⟩ := counts (.inr hp)
    rw [totalLens, hhlit, hhdist, hlenIdx, hlens, hprevLen, hprevValid]
    exact hs.lensLeft hp

theorem beginElement_tablesOk {s : State} (h : TablesOk s) : TablesOk (beginElement s) := by
  rcases beginElement_cases s with ⟨-, -, hb⟩ | ⟨-, -, -, hb⟩ | hb <;> rw [hb]
  · exact ⟨h.sizes, h.codesOk⟩
  · obtain ⟨hllLen, hdLen, -, hlens, hll, hd, hcl⟩ := h.sizes
    exact ⟨⟨hllLen, hdLen, List.length_replicate, hlens, hll, hd, hcl⟩, h.codesOk⟩
  · exact h

theorem beginElement_bufferOk {s : State} (h : BufferOk s) : BufferOk (beginElement s) := by
  rcases beginElement_cases s with ⟨-, -, hb⟩ | ⟨-, -, -, hb⟩ | hb <;> rw [hb]
  · exact ⟨Nat.zero_le _, Nat.one_pos⟩
  · exact h
  · exact h

theorem beginElement_phaseOk {p : Phase} {s : State} (h : PhaseOk p s) : PhaseOk p (beginElement s) := by
  rw [beginElement_frame]; exact { h with }

theorem beginElement_reader (s : State) : (beginElement s).reader = s.reader := by rw [beginElement_frame]; rfl

theorem beginElement_codes (s : State) : (beginElement s).codes = s.codes := by rw [beginElement_frame]; rfl

/-! ### Settled after an element, and after a byte -/

/-- A literal or a stored byte is emitted in its phase, and any other element leaves the output side as it was. -/
theorem exec_emits_cases (i : Instr) (s : State) :
    (∃ b ph, emits ph ∧ i.form.1 = ph ∧ exec i s = .next (emit b { s with phase := ph })) ∨
    ∃ t, exec i s = .next t ∧ SameOutput s t := by
  by_cases hlit : ∃ b, i = .lit b
  · obtain ⟨b, rfl⟩ := hlit
    exact .inl ⟨b, .token, .inl rfl, rfl, rfl⟩
  by_cases hdata : ∃ b, i = .stData b
  · obtain ⟨b, rfl⟩ := hdata
    exact .inl ⟨b, .storedCopy, .inr (.inr rfl), rfl, rfl⟩
  · exact .inr (exec_sameOutput (fun b hb => hlit ⟨b, hb⟩) (fun b hb => hdata ⟨b, hb⟩) s)

theorem exec_offersOk {i : Instr} {s t : State} (ho : s.outValid = false) (h : exec i s = .next t) : OffersOk t := by
  rcases exec_emits_cases i s with ⟨b, ph, hph, -, he⟩ | ⟨u, he, hsame⟩ <;> rw [he] at h <;> cases h
  · exact emit_offersOk (s := { s with phase := ph }) hph b
  · exact fun hv => by rw [hsame.outValid, ho] at hv; cases hv

theorem exec_holdsOutput {i : Instr} {s t : State} (hs : HoldsOutput s) (h : exec i s = .next t) : HoldsOutput t := by
  rcases exec_emits_cases i s with ⟨b, ph, -, -, he⟩ | ⟨u, he, hsame⟩ <;> rw [he] at h <;> cases h
  · exact HoldsOutput.emit (s := { s with phase := ph }) ⟨hs.winWf, hs.histEq, hs.wpEq, hs.outCountEq, hs.window⟩ b
  · exact hsame.holdsOutput hs

theorem HoldsOutput.hist_le {s : State} (h : HoldsOutput s) : s.hist.toNat ≤ 32768 := by
  rw [h.histEq]; exact Nat.min_le_right _ _

theorem HoldsOutput.sinkCycle {s : State} (h : HoldsOutput s) : HoldsOutput (sinkCycle s) := by
  rcases sinkCycle_cases s with ⟨-, hs⟩ | ⟨-, hs⟩ <;> rw [hs]
  · exact h.takeByte.afterEmit
  · exact h

/-- Nothing but reading writes the buffer and the reader's own registers. -/
theorem settled_of_sameInput {s t : State} (hrest : AtRest t) (hout : HoldsOutput t) (hoffers : OffersOk t)
    (hinput : SameInput s t) (hbuf : BufferOk s) (hpart : s.part = .start) (hfld : s.fld = []) : Settled t where
  toAtRest := hrest
  output := hout
  buffer := by rw [BufferOk, hinput.bitcnt, hinput.bitbuf]; exact hbuf
  offers := hoffers
  part := hinput.part.trans hpart
  fld := hinput.fld.trans hfld

theorem Settled.sinkCycle {s : State} (h : Settled s) (he : emits s.phase) : Settled (sinkCycle s) :=
  settled_of_sameInput (h.toAtRest.sinkCycle he h.output.hist_le) h.output.sinkCycle (sinkCycle_offersOk h.offers)
    (sinkCycle_sameInput s) h.buffer h.part h.fld

theorem Settled.emit {s : State} (h : Settled s) (he : emits s.phase) (b : Byte) : Settled (emit b s) :=
  settled_of_sameInput (h.toAtRest.emit he h.output.hist_le b) (h.output.emit b) (emit_offersOk he b)
    (emit_sameInput b s) h.buffer h.part h.fld

/-! ### A step that reads -/

theorem Inv.fetch_ends {s : State} (h : Inv s) : ReadEnds (fetchElement fetchBound (beginElement s)) :=
  fetchElement_ends _ _ (Nat.lt_of_le_of_lt (bitsLeft_le _) (by decide)) (beginElement_bufferOk h.buffer)
    (by rw [beginElement_reader]; exact h.codewordOnly)

section
variable {s : State} (h : Inv s) (ho : s.outValid = false)
include h ho

/-- What reading from a state of the invariant keeps, however it ends. -/
theorem Inv.readsOnly {u : State} (hr : readsOnly (beginElement s) u) :
    HoldsOutput u ∧ TablesOk u ∧ PhaseOk (beganIn u.phase) u ∧ u.outValid = false := by
  have hbegan : beganIn (beginElement s).phase = beganIn s.phase := by rw [beginElement_phase]
  refine ⟨hr.frame.sameOutput.holdsOutput ((beginElement_sameOutput s).holdsOutput h.holdsOutput),
    hr.frame.tablesOk (beginElement_tablesOk h.tablesOk), ?_, ?_⟩
  · rw [hr.phase]
    exact hr.phaseOk (beginElement_phaseOk (hbegan ▸ h.phaseOk))
  · rw [hr.frame.sameOutput.outValid, (beginElement_sameOutput s).outValid, ho]

theorem Inv.element {i : Instr} {u t : State} (hf : fetchElement fetchBound (beginElement s) = .got i u)
    (he : exec i u = .next t) : Settled t := by
  have hends := h.fetch_ends
  have hleaves := fetchElement_leaves fetchBound (beginElement s)
  have hphase := fetchElement_inPhase fetchBound (beginElement s)
  rw [hf] at hends hleaves hphase
  obtain ⟨hbuf, hpart, hfld⟩ := hends
  obtain ⟨hform, hbegan⟩ := hphase
  obtain ⟨hout, htables, hok, hoff⟩ := h.readsOnly ho hleaves
  have hform' : beganIn u.phase = i.form.1 := hbegan.trans hform.symm
  exact settled_of_sameInput (exec_atRest htables (hform' ▸ hok) hout.hist_le hform' he) (exec_holdsOutput hout he)
    (exec_offersOk hoff he) (exec_sameInput he) hbuf hpart hfld

theorem Inv.stall {t : State} (hf : fetchElement fetchBound (beginElement s) = .wait t) (hp : t.phase ≠ .copy) :
    Inv t := by
  have hends := h.fetch_ends
  have hleaves := fetchElement_leaves fetchBound (beginElement s)
  rw [hf] at hends hleaves
  obtain ⟨hbuf, hmore, hclosed⟩ := hends
  obtain ⟨u, hr, hu⟩ := hleaves
  obtain ⟨hout, htables, hok, hoff⟩ := h.readsOnly ho hr
  have parts : HoldsOutput t ∧ TablesOk t ∧ PhaseOk (beganIn t.phase) t ∧ t.outValid = false := by
    rcases hu with rfl | ⟨p, -, -, -, hu⟩
    · exact ⟨hout, htables, hok, hoff⟩
    · rw [hu]
      exact ⟨⟨hout.winWf, hout.histEq, hout.wpEq, hout.outCountEq, hout.window⟩, ⟨htables.sizes, htables.codesOk⟩,
        { hok with }, hoff⟩
  obtain ⟨hout, htables, hok, hoff⟩ := parts
  refine inv_of_parts hout htables hok hbuf (fun hv => ?_) (fun _ => hmore) hclosed fun hv => ?_
  · rw [hoff] at hv; cases hv
  · rcases hv with hv | hv
    · exact absurd hv hp
    · rw [hoff] at hv; cases hv

theorem Inv.raised {e : ErrCode} {u : State} (hf : fetchElement fetchBound (beginElement s) = .raised e u) :
    Inv (raise e u) := by
  have hends := h.fetch_ends
  have hleaves := fetchElement_leaves fetchBound (beginElement s)
  rw [hf] at hends hleaves
  obtain ⟨hbuf, he⟩ := hends
  obtain ⟨hout, htables, -, hoff⟩ := h.readsOnly ho hleaves
  refine inv_of_parts ((raise_sameOutput e u).holdsOutput hout) ⟨htables.sizes, htables.codesOk⟩ (phaseOk_error he) hbuf
    (fun hv => ?_) nofun (fieldClosed_of_field rfl) fun hv => ?_
  · rw [(raise_sameOutput e u).outValid, hoff] at hv; cases hv
  · rcases hv with hv | hv
    · cases hv
    · rw [(raise_sameOutput e u).outValid, hoff] at hv; cases hv

end

/-! ### Every step -/

theorem readsInput_beganIn (p : Phase) : readsInput (beganIn p) = readsInput p := by cases p <;> rfl

/-- Reading does not lead to COPY (R42). -/
theorem fetchElement_phase_ne_copy {n : Nat} {s t : State} (hp : readsInput s.phase = true)
    (hf : fetchElement n s = .wait t) : t.phase ≠ .copy := by
  have hphase := fetchElement_inPhase n s
  rw [hf] at hphase
  have hphase : beganIn t.phase = beganIn s.phase := hphase
  have hreads : readsInput t.phase = true := by rw [← readsInput_beganIn, hphase, readsInput_beganIn, hp]
  rintro hc
  rw [hc] at hreads
  cases hreads

theorem Inv.after_step {s t : State} (h : Inv s) (hs : step s = .next t) : Inv t := by
  cases hr : s.rst
  case true => rw [step_of_reset hr] at hs; cases hs; exact (settled_applyReset s).inv
  rcases step_next_cases hr hs with ⟨ho, rfl⟩ | ⟨ho, ⟨-, rfl⟩ | ⟨hp, hc⟩ | ⟨hp, ⟨i, u, hf, he⟩ | hf | ⟨e, u, hf, rfl⟩⟩⟩
  · exact ((h.settled (.inr ho)).sinkCycle (h.offered ho)).inv
  · exact h
  · obtain ⟨hpos, -⟩ := h.copying hp
    rcases copyStep_cases s with ⟨h0, -⟩ | ⟨-, b, -, he⟩ | ⟨-, f, -, he⟩
    · rw [h0] at hpos; cases hpos
    · rw [he] at hc; cases hc; exact ((h.settled (.inl hp)).emit (.inr (.inl hp)) b).inv
    · rw [he] at hc; cases hc
  · exact (h.element ho hf he).inv
  · exact h.stall ho hf (fetchElement_phase_ne_copy (by rw [beginElement_phase]; exact hp) hf)
  · exact h.raised ho hf

/-- Settles O5: a step reads, and then rests, stalls or raises; each keeps every part of the invariant. -/
theorem everyStepKeepsTheInvariant : Obligations.EveryStepKeepsTheInvariant := fun _ _ => Inv.after_step

theorem Inv.step_next {s : State} (h : Inv s) : ∃ t, step s = .next t := by
  rcases step_cases s with ⟨-, hs⟩ | ⟨-, -, hs⟩ | ⟨-, -, ⟨-, hs⟩ | ⟨hp, hs⟩ |
    ⟨-, ⟨i, u, -, hs⟩ | ⟨u, -, hs⟩ | ⟨e, u, -, hs⟩⟩⟩
  · exact ⟨_, hs⟩
  · exact ⟨_, hs⟩
  · exact ⟨_, hs⟩
  · obtain ⟨-, -, hdist, hin⟩ := h.copying hp
    obtain ⟨b, -, hw⟩ := h.holdsOutput.winRead hdist hin
    rcases copyStep_cases s with ⟨-, hc⟩ | ⟨-, b', -, hc⟩ | ⟨-, f, hf, -⟩
    · exact ⟨_, hs.trans hc⟩
    · exact ⟨_, hs.trans hc⟩
    · rw [hw] at hf; cases hf
  · obtain ⟨t, ht⟩ := exec_next i u
    exact ⟨t, hs.trans ht⟩
  · exact ⟨_, hs⟩
  · exact ⟨_, hs⟩

/-- Settles O6: the copy's `WinRead` is the one access that can fault, and its reference lies in the history. -/
theorem noStepFaultsUnderTheInvariant : Obligations.NoStepFaultsUnderTheInvariant := fun _ => Inv.step_next

theorem Inv.safeRun {s : State} (h : Inv s) (k : Nat) : safeRun k s := by
  induction k generalizing s with
  | zero => exact ⟨s, rfl⟩
  | succ k ih =>
    obtain ⟨t, ht⟩ := h.step_next
    obtain ⟨u, hu⟩ := ih (h.after_step ht)
    exact ⟨u, (run_succ_of_next ht k).trans hu⟩

/-- Settles O7: the state a run begins in is a reset, whatever the host drives. -/
theorem everyStreamRunsWithoutAFault : Obligations.EveryStreamRunsWithoutAFault := fun src ready cfg =>
  (settled_applyReset { State.reset with src := src, outReady := ready, cfg := cfg }).inv.safeRun

end Sys2Proof.Machine

/-! Family other: the phases a step can lead to (R42), what an error leaves alone (R421), one turn of the copy (R362). -/

namespace Sys2Proof.Machine

/-! ### The phases after a byte, after a meaning, and while reading -/

theorem self_mem_phasesAfter (p : Phase) : p ∈ phasesAfter p := by cases p <;> simp [phasesAfter]

theorem error_mem_phasesAfter {p : Phase} (h : readsInput p = true) : .error ∈ phasesAfter p := by
  cases p <;> simp [phasesAfter, readsInput] at h ⊢

theorem blockEnd_phase_cases (s : State) :
    (s.bfinal = true ∧ (blockEnd s).phase = .done) ∨ (blockEnd s).phase = .hdr := by
  cases h : s.bfinal
  · exact .inr (by rw [blockEnd_of_not_final h])
  · exact .inl ⟨rfl, by rw [blockEnd_of_final h]⟩

/-- What follows a byte leaves the phase, ends the copy, or ends the block. -/
theorem afterEmit_phase_mem (s : State) : (afterEmit s).phase ∈ phasesAfter s.phase := by
  rcases afterEmit_cases s with ⟨hp, -, h⟩ | ⟨hp, -, h⟩ | ⟨hp, -, h⟩ | ⟨hp, -, h⟩ | ⟨-, -, h⟩ <;> rw [h]
  · rw [hp]; simp [phasesAfter]
  · exact self_mem_phasesAfter _
  · rcases blockEnd_phase_cases { s with storedRem := s.storedRem - 1 } with ⟨-, hb⟩ | hb <;> rw [hb, hp] <;>
      simp [phasesAfter]
  · exact self_mem_phasesAfter _
  · exact self_mem_phasesAfter _

theorem sinkCycle_phase_mem (s : State) : (sinkCycle s).phase ∈ phasesAfter s.phase := by
  rcases sinkCycle_cases s with ⟨-, h⟩ | ⟨-, h⟩ <;> rw [h]
  · exact afterEmit_phase_mem (takeByte s)
  · exact self_mem_phasesAfter _

theorem emit_phase_mem (b : Byte) (s : State) : (emit b s).phase ∈ phasesAfter s.phase :=
  sinkCycle_phase_mem (offerByte b s)

theorem copyStep_phase_mem {s t : State} (hp : s.phase = .copy) (h : copyStep s = .next t) :
    t.phase ∈ phasesAfter .copy := by
  rcases copyStep_cases s with ⟨-, hc⟩ | ⟨-, b, -, hc⟩ | ⟨-, f, -, hc⟩ <;> rw [hc] at h <;> cases h
  · simp [phasesAfter]
  · rw [← hp]; exact emit_phase_mem b s

theorem distanceCode_phase (ds x : Nat) (s : State) :
    (distanceCode ds x s).phase = .copy ∨ (distanceCode ds x s).phase = .error := by
  unfold distanceCode
  rcases referenceCheck_cases { s with pendSym := BitVec.ofNat 5 ds, pendDist := distanceOf ds x } with
    ⟨-, h⟩ | ⟨-, h⟩ <;> rw [h]
  · exact .inr rfl
  · exact .inl rfl

theorem lensTurnEnd_phase (s : State) :
    (lensTurnEnd s).phase = s.phase ∨ (lensTurnEnd s).phase = .token ∨ (lensTurnEnd s).phase = .error := by
  rcases lensTurnEnd_cases s with ⟨-, h⟩ | ⟨-, h⟩ <;> rw [h]
  · exact .inl rfl
  · rcases buildBlockCodes_cases (splitLens s) with ⟨-, h⟩ | ⟨T, -, ⟨-, h⟩ | ⟨U, -, h⟩⟩ <;> rw [h]
    · exact .inr (.inr rfl)
    · exact .inr (.inr rfl)
    · exact .inr (.inl rfl)

theorem buildCl_phase (s : State) : (buildCl s).phase = .dynLens ∨ (buildCl s).phase = .error := by
  rcases buildCl_cases s with ⟨-, h⟩ | ⟨T, -, h⟩ <;> rw [h]
  · exact .inr rfl
  · exact .inl rfl

theorem phase_of_beganIn {s : State} {p : Phase} (h : beganIn s.phase = p) (h1 : p ≠ .token) (h2 : p ≠ .distSym) :
    s.phase = p := by
  cases hs : s.phase <;> rw [hs] at h <;> subst h <;> simp [beganIn] at h1 h2 ⊢

/-- A meaning leads along the table, from the phase in which its element began. -/
theorem exec_phase_mem {i : Instr} {s t : State} (hbegan : beganIn s.phase = i.form.1) (h : exec i s = .next t) :
    t.phase ∈ phasesAfter i.form.1 := by
  cases meaning i
  case bhStored | bhFixed | bhDynamic | bhReserved => cases h; simp [Instr.form, phasesAfter, raise]
  case dynHeader hlit hdist hclen =>
    rcases exec_dynHeader_cases hlit hdist hclen s with he | he <;> rw [he] at h <;> cases h <;>
      simp [Instr.form, phasesAfter, raise]
  case clCodeLength len =>
    have hp : s.phase = .dynCll := phase_of_beganIn hbegan nofun nofun
    rcases exec_clCodeLength_cases len s with ⟨-, he⟩ | he <;> rw [he] at h <;> cases h
    · simp [Instr.form, phasesAfter, hp]
    · rcases buildCl_phase { s with
        clLen := s.clLen.set (clOrder.getD s.clIdx.toNat 19) len, clIdx := s.clIdx + 1 } with hb | hb <;> rw [hb] <;>
        simp [Instr.form, phasesAfter]
  case lens hi =>
    have hp : s.phase = .dynLens := phase_of_beganIn (hbegan.trans hi) (by decide) (by decide)
    rw [hi]
    rcases exec_lens_cases hi s with he | ⟨n, v, -, -, he⟩ <;> rw [he] at h <;> cases h
    · simp [phasesAfter, raise]
    · have hw : (writeLens n v s).phase = .dynLens := by rw [writeLens_frame]; exact hp
      rcases lensTurnEnd_phase { writeLens n v s with prevLen := v, prevValid := true } with hl | hl | hl <;> rw [hl]
      · rw [hw]; exact self_mem_phasesAfter _
      · simp [phasesAfter]
      · simp [phasesAfter]
  case lit b | stData b => cases h; exact emit_phase_mem b _
  case eob => cases h; rcases blockEnd_phase_cases s with ⟨-, hb⟩ | hb <;> rw [hb] <;> simp [Instr.form, phasesAfter]
  case length k x hx hinstr hexec =>
    rw [hexec] at h; cases h
    rw [(lenInstr_written hinstr).2]
    simp [phasesAfter, lengthCode]
  case distance ds x hx hinstr hexec =>
    rw [hexec] at h; cases h
    rw [(distInstr_written hinstr).2]
    rcases distanceCode_phase ds x s with hd | hd <;> rw [hd] <;> simp [phasesAfter]
  case undefined hi =>
    rw [exec_undefined_symbol hi] at h; cases h
    simp only [List.mem_cons, List.not_mem_nil, or_false] at hi
    rcases hi with rfl | rfl | rfl | rfl <;> simp [Instr.form, phasesAfter, raise]
  case stHeader len nlen =>
    rcases exec_stHeader_cases len nlen s with ⟨-, he⟩ | he | he <;> rw [he] at h <;> cases h
    · simp [Instr.form, phasesAfter]
    · rcases blockEnd_phase_cases { s with storedLen := len, storedNlen := nlen, storedRem := len } with ⟨-, hb⟩ | hb <;>
        rw [hb] <;> simp [Instr.form, phasesAfter]
    · simp [Instr.form, phasesAfter, raise]

/-! ### Inside a symbol's extra bits -/

theorem look_field {c : Codes} {r : Reader} (h : beganIn r.phase ≠ r.phase) : look c r = lookField c r := by
  have hi : r.inCodeword = false := by
    unfold Reader.inCodeword
    cases hp : r.phase <;> simp [hp, beganIn] at h ⊢
  rw [look, if_neg (by simp [hi])]

/-- Reading that goes on inside a symbol's extra bits ends there, or with the element of the field. -/
def ReadsExtra (p : Phase) : Read Instr → Prop
  | .got i _ => ∃ c r, r.phase = p ∧ fieldInstr c r = some i
  | .wait t => t.phase = p
  | .raised _ _ => True

theorem fetchElement_readsExtra (n : Nat) {s : State} (h : beganIn s.phase ≠ s.phase) :
    ReadsExtra s.phase (fetchElement n s) := by
  induction n generalizing s with
  | zero => exact rfl
  | succ n ih =>
    rcases fetchElement_succ n s with ⟨i, r, hl, hf⟩ | ⟨r, hl, hf⟩ | ⟨r, hl, hf⟩ <;>
      rw [look_field (r := s.reader) h] at hl
    · rw [hf]
      rcases lookField_cases s.codes s.reader with ⟨-, hc⟩ | ⟨-, ⟨j, hj, hc⟩ | ⟨-, hc⟩⟩ <;> rw [hc] at hl <;> cases hl
      exact ⟨_, s.reader, rfl, hj⟩
    · rw [hf]; trivial
    · obtain ⟨rfl, -⟩ := lookField_more hl
      rcases hf with ⟨b, t, hr, hf⟩ | ⟨t, hr, hf⟩ | ⟨e, t, hr, hf⟩ <;> rw [hf]
      · have hp : (consumeBit s.reader b t).phase = s.phase :=
          (congrArg Reader.phase (consumeBit_reader s.reader b t)).trans (pushBit_phase _ b)
        have := ih (s := consumeBit s.reader b t) (by rw [hp]; exact h)
        rw [hp] at this
        exact this
      · rcases readBit_wait hr with rfl | ⟨p, -, -, -, ht⟩
        · rfl
        · rw [ht]; exact rfl
      · trivial

/-- A length code whose extra bits were read leads to the distance (R294). -/
theorem exec_lenInstr_phase {k v : Nat} {i : Instr} (hi : lenInstr k v = some i) {s t : State}
    (h : exec i s = .next t) : t.phase = .distSym := by
  obtain ⟨hk, hform⟩ := lenInstr_written hi
  cases meaning i
  case length k x hx hinstr hexec => rw [hexec] at h; cases h; rfl
  case lit b =>
    have hlt := b.isLt
    simp only [Instr.form, Prod.mk.injEq, Option.some.injEq, true_and] at hform
    omega
  case eob =>
    simp only [Instr.form, Prod.mk.injEq, Option.some.injEq, true_and] at hform
    omega
  case distance ds x hx hinstr hexec => rw [(distInstr_written hinstr).2] at hform; cases hform
  case lens hp => rw [hform] at hp; cases hp
  case undefined hu =>
    simp only [List.mem_cons, List.not_mem_nil, or_false] at hu
    rcases hu with rfl | rfl | rfl | rfl <;> simp [Instr.form] at hform
    · omega
    · omega
  all_goals simp [Instr.form] at hform

/-- A distance symbol begins the copy or raises (R300, R331, R332, R361). -/
theorem exec_distance_phase {i : Instr} (hi : i.form.1 = .distSym) {s t : State} (h : exec i s = .next t) :
    t.phase = .copy ∨ t.phase = .error := by
  cases meaning i
  case distance ds x hx hinstr hexec => rw [hexec] at h; cases h; exact distanceCode_phase ds x s
  case undefined hu => rw [exec_undefined_symbol hu] at h; cases h; exact .inr rfl
  case length k x hx hinstr hexec => rw [(lenInstr_written hinstr).2] at hi; cases hi
  case lens hp => rw [hi] at hp; cases hp
  all_goals cases hi

theorem mem_phasesAfter_of_reading {p q : Phase} (h : beganIn q = beganIn p) (hstay : beganIn p ≠ p → q = p) :
    q ∈ phasesAfter p := by
  by_cases hp : beganIn p = p
  · rw [hp] at h
    cases q
    case lenExtra => rw [← h]; simp [beganIn, phasesAfter]
    case distExtra => rw [← h]; simp [beganIn, phasesAfter]
    all_goals rw [← h]; exact self_mem_phasesAfter _
  · rw [hstay hp]; exact self_mem_phasesAfter p

/-- The step of an element that has been read leads along the table. -/
theorem element_phase_mem {n : Nat} {s u t : State} {i : Instr} (hf : fetchElement n s = .got i u)
    (he : exec i u = .next t) : t.phase ∈ phasesAfter s.phase := by
  have hphase := fetchElement_inPhase n s
  rw [hf] at hphase
  obtain ⟨hform, hbegan⟩ := hphase
  by_cases hp : beganIn s.phase = s.phase
  · have hmem := exec_phase_mem (hbegan.trans hform.symm) he
    rwa [hform, hp] at hmem
  · have hextra := fetchElement_readsExtra n hp
    rw [hf] at hextra
    obtain ⟨c, r, hr, hfield⟩ := hextra
    cases hs : s.phase <;> simp only [hs, beganIn, not_true] at hp
    case lenExtra =>
      rw [fieldInstr, hr, hs] at hfield
      rw [exec_lenInstr_phase hfield he]
      simp [phasesAfter]
    case distExtra =>
      rw [hs] at hform
      rcases exec_distance_phase hform he with ht | ht <;> rw [ht] <;> simp [phasesAfter]

theorem step_phase_mem {s t : State} (hr : s.rst = false) (h : step s = .next t) : t.phase ∈ phasesAfter s.phase := by
  rcases step_next_cases hr h with ⟨-, rfl⟩ | ⟨-, ⟨-, rfl⟩ | ⟨hp, hc⟩ | ⟨hp, hread⟩⟩
  · exact sinkCycle_phase_mem s
  · exact self_mem_phasesAfter _
  · rw [hp]; exact copyStep_phase_mem hp hc
  · rw [← beginElement_phase] at hp ⊢
    rcases hread with ⟨i, u, hf, he⟩ | hf | ⟨e, u, hf, rfl⟩
    · exact element_phase_mem hf he
    · have hphase := fetchElement_inPhase fetchBound (beginElement s)
      rw [hf] at hphase
      refine mem_phasesAfter_of_reading hphase fun hextra => ?_
      have hstay := fetchElement_readsExtra fetchBound hextra
      rw [hf] at hstay
      exact hstay
    · exact error_mem_phasesAfter hp

/-- Settles O55: reading stays inside its element, and a meaning, a byte and an error lead along the table. -/
theorem phasesMoveOnlyAlongTheTable : Obligations.PhasesMoveOnlyAlongTheTable := fun _ _ => step_phase_mem

/-! ### DONE (R177) -/

theorem blockEnd_done {s : State} (h : (blockEnd s).phase = .done) : s.bfinal = true := by
  rcases blockEnd_phase_cases s with ⟨hf, -⟩ | hh
  · exact hf
  · rw [h] at hh; cases hh

/-- A byte leads to DONE only as the last one of a final block. -/
theorem afterEmit_done {s : State} (hne : s.phase ≠ .done) (h : (afterEmit s).phase = .done) :
    s.bfinal = true ∧ (afterEmit s).bfinal = true := by
  rcases afterEmit_cases s with ⟨-, -, ha⟩ | ⟨-, -, ha⟩ | ⟨-, -, ha⟩ | ⟨-, -, ha⟩ | ⟨-, -, ha⟩ <;> rw [ha] at h ⊢
  · cases h
  · exact absurd h hne
  · exact ⟨blockEnd_done h, blockEnd_done h⟩
  · exact absurd h hne
  · exact absurd h hne

theorem sinkCycle_done {s : State} (hne : s.phase ≠ .done) (h : (sinkCycle s).phase = .done) :
    s.bfinal = true ∧ (sinkCycle s).bfinal = true := by
  rcases sinkCycle_cases s with ⟨-, hs⟩ | ⟨-, hs⟩ <;> rw [hs] at h ⊢
  · exact afterEmit_done (s := takeByte s) hne h
  · exact absurd h hne

/-- Of the meanings, those of end-of-block, of a stored header and of a stored byte can lead to DONE. -/
theorem exec_done {i : Instr} {s t : State} (h : exec i s = .next t) (hbegan : beganIn s.phase = i.form.1)
    (hdone : t.phase = .done) : s.bfinal = true ∧ t.bfinal = true := by
  have hmem := exec_phase_mem hbegan h
  rw [hdone] at hmem
  cases meaning i
  case eob => cases h; exact ⟨blockEnd_done hdone, blockEnd_done hdone⟩
  case lit b | stData b => cases h; exact sinkCycle_done (s := offerByte b { s with phase := _ }) nofun hdone
  case length k x hx hinstr hexec => rw [hexec] at h; cases h; cases hdone
  case distance ds x hx hinstr hexec => rw [(distInstr_written hinstr).2] at hmem; simp [phasesAfter] at hmem
  case lens hi => rw [hi] at hmem; simp [phasesAfter] at hmem
  case undefined hi => rw [exec_undefined_symbol hi] at h; cases h; cases hdone
  case stHeader len nlen =>
    rcases exec_stHeader_cases len nlen s with ⟨-, he⟩ | he | he <;> rw [he] at h <;> cases h
    · cases hdone
    · exact ⟨blockEnd_done hdone, blockEnd_done hdone⟩
    · cases hdone
  all_goals simp [Instr.form, phasesAfter] at hmem

theorem phase_before_done {p : Phase} (h : .done ∈ phasesAfter p) (hne : p ≠ .done) :
    p = .token ∨ p = .storedHdr ∨ p = .storedCopy := by
  cases p <;> simp [phasesAfter] at h hne ⊢

theorem reading_ne_done {p q : Phase} (hp : readsInput p = true) (h : beganIn q = beganIn p) : q ≠ .done := by
  rintro rfl
  rw [← readsInput_beganIn, ← h] at hp
  cases hp

/-- Settles O57: only a byte, end-of-block and a stored header end a block, by its BFINAL, which only a block's header
writes. -/
theorem doneOnlyAfterTheFinalBlock : Obligations.DoneOnlyAfterTheFinalBlock := by
  intro s t hr h hdone hne
  have hmem := step_phase_mem hr h
  rw [hdone] at hmem
  have hbefore := phase_before_done hmem hne
  refine (and_assoc (b := t.bfinal = true)).1 ⟨?_, hbefore⟩
  rcases step_next_cases hr h with ⟨-, rfl⟩ | ⟨-, ⟨-, rfl⟩ | ⟨hp, -⟩ | ⟨hp, hread⟩⟩
  · exact sinkCycle_done hne hdone
  · exact absurd hdone hne
  · rw [hp] at hbefore; simp at hbefore
  · rw [← beginElement_phase] at hp
    have hphase := fetchElement_inPhase fetchBound (beginElement s)
    have hleaves := fetchElement_leaves fetchBound (beginElement s)
    rcases hread with ⟨i, u, hf, he⟩ | hf | ⟨e, u, hf, rfl⟩
    · rw [hf] at hphase hleaves
      obtain ⟨hform, hbegan⟩ := hphase
      have hhdr : (beginElement s).phase ≠ .hdr := by
        rw [beginElement_phase]; rcases hbefore with hb | hb | hb <;> rw [hb] <;> decide
      have hbfinal : u.bfinal = s.bfinal := by
        rw [readsOnly.bfinal hleaves hhdr, beginElement_frame]
      rw [← hbfinal]
      exact exec_done he (hbegan.trans hform.symm) hdone
    · rw [hf] at hphase
      exact absurd hdone (reading_ne_done hp hphase)
    · cases hdone

/-! ### ERROR (R421) -/

theorem sinkCycle_ne_error {s : State} (h : s.phase ≠ .error) : (sinkCycle s).phase ≠ .error := by
  intro he
  rcases sinkCycle_cases s with ⟨-, hs⟩ | ⟨-, hs⟩ <;> rw [hs] at he
  · rcases afterEmit_cases (takeByte s) with ⟨-, -, ha⟩ | ⟨-, -, ha⟩ | ⟨-, -, ha⟩ | ⟨-, -, ha⟩ | ⟨-, -, ha⟩ <;>
      rw [ha] at he
    · cases he
    · exact h he
    · rcases blockEnd_phase_cases { takeByte s with storedRem := (takeByte s).storedRem - 1 } with ⟨-, hb⟩ | hb <;>
        rw [hb] at he <;> cases he
    · exact h he
    · exact h he
  · exact h he

/-- Settles O54: a byte leads to no error, and whatever raises has left the output side alone. -/
theorem failingStepEmitsNothing : Obligations.FailingStepEmitsNothing := by
  intro s t hr hne h herror
  have hsame : SameOutput s t := by
    rcases step_next_cases hr h with ⟨-, rfl⟩ | ⟨-, ⟨-, rfl⟩ | ⟨hp, hc⟩ | ⟨hp, ⟨i, u, hf, he⟩ | hf | ⟨e, u, hf, rfl⟩⟩⟩
    · exact absurd herror (sinkCycle_ne_error hne)
    · exact absurd herror hne
    · have hmem := copyStep_phase_mem hp hc
      rw [herror] at hmem
      simp [phasesAfter] at hmem
    · have hread := fetchElement_sameOutput fetchBound s
      rw [hf] at hread
      rcases exec_emits_cases i u with ⟨b, ph, hph, -, he'⟩ | ⟨v, he', hsame⟩ <;> rw [he'] at he <;> cases he
      · exact absurd herror (sinkCycle_ne_error (s := offerByte b { u with phase := ph }) (emits_ne_error hph))
      · exact hread.trans hsame
    · have hread := fetchElement_sameOutput fetchBound s
      rwa [hf] at hread
    · have hread := fetchElement_sameOutput fetchBound s
      rw [hf] at hread
      exact hread.trans (raise_sameOutput e u)
  exact ⟨hsame.out, hsame.win, hsame.wp, hsame.hist, hsame.outCount, hsame.outValid⟩

/-! ### One turn of the copy (R362) -/

/-- A byte of a copy is taken: one byte less is left, and after the last one the next token follows. -/
theorem emit_of_copy (b : Byte) {s : State} (hready : s.outReady = true) (hp : s.phase = .copy)
    (hleft : 1 ≤ s.copyRem.toNat) :
    (emit b s).out = s.out ++ [b] ∧ (emit b s).copyRem.toNat + 1 = s.copyRem.toNat ∧
      (emit b s).phase = (if s.copyRem.toNat = 1 then .token else .copy) ∧ (emit b s).pendDist = s.pendDist := by
  rcases Nat.eq_or_lt_of_le hleft with h1 | h2
  · rw [emit_of_copy_last b hready hp h1.symm, if_pos h1.symm]
    exact ⟨rfl, h1, rfl, rfl⟩
  · rw [emit_of_copy_more b hready hp h2, if_neg (by omega)]
    exact ⟨rfl, by bv_omega, hp, rfl⟩

/-- Settles O51: the byte so far behind is in the window, and it is emitted or offered. -/
theorem copyEmitsTheByteBehind : Obligations.CopyEmitsTheByteBehind := by
  intro s hinv hr ho hp
  obtain ⟨hpos, -, hdist, hin⟩ := hinv.copying hp
  obtain ⟨b, hb, hw⟩ := hinv.holdsOutput.winRead hdist hin
  have hstep : step s = .next (emit b s) := by
    rw [step_of_copy hr ho hp, copyStep, if_neg (fun h0 => by rw [h0] at hpos; cases hpos), hw]
  refine ⟨b, hb, fun hready => ?_, fun hready => ?_⟩
  · obtain ⟨hout, hrem, hphase, hpend⟩ := emit_of_copy b hready hp hpos
    have hinput := emit_sameInput b s
    refine ⟨emit b s, hstep, hout, hrem, hphase, hpend, hinput.inCount, hinput.src, fun a ha => ?_⟩
    rw [emit_read b hinv.winWf, if_neg fun h => ha h.2]
  · rw [hstep, emit_of_not_ready b hready]
    rfl

end Sys2Proof.Machine

/-! Family other: `in_ready` (R31, R81, R86), and the steps that change nothing (R439, R477). -/

namespace Sys2Proof.Machine

/-! ### in_ready -/

/-- A step that reads does on the input side what reading does. -/
theorem step_reading_sameInput {s t : State} (hr : s.rst = false) (ho : s.outValid = false)
    (hp : readsInput s.phase = true) (h : step s = .next t) :
    SameInput (fetchElement fetchBound (beginElement s)).state t := by
  rw [step_reads hr ho hp] at h
  cases hf : fetchElement fetchBound (beginElement s) <;> rw [hf] at h
  case got i u => exact exec_sameInput h
  case wait u => cases h; exact .refl _
  case raised e u => cases h; exact raise_sameInput e u

/-- Where the source's next cycle offers no byte, reading takes none. -/
theorem fetchElement_inCount_of_not_offered {n : Nat} {s : State}
    (h : ∀ p rest, s.src = p :: rest → ¬ (p.inValid = true ∧ p.inErr = false)) :
    (fetchElement n s).state.inCount = s.inCount := by
  have taken {u : State} (hread : readsOnly s u) : u.inCount = s.inCount := by
    obtain ⟨used, hused, hvalid, hcount⟩ := hread.bytes
    cases used with
    | nil => simpa using hcount
    | cons p ps => exact absurd (hvalid p (by simp)) (h p _ hused)
  have hleaves := fetchElement_leaves n s
  cases hf : fetchElement n s <;> rw [hf] at hleaves
  case got i u => exact taken hleaves
  case raised e u => exact taken hleaves
  case wait u =>
    obtain ⟨v, hread, rfl | ⟨p, -, -, -, hu⟩⟩ := hleaves
    · exact taken hread
    · rw [hu]; exact (taken hread : v.inCount = s.inCount)

theorem inReady_iff (s : State) : inReady s = true ↔
    s.rst = false ∧ s.outValid = false ∧ readsInput s.phase = true ∧ needsByte s = true ∧
      ∃ p rest, s.src = p :: rest ∧ p.inValid = true ∧ p.inErr = false := by
  unfold inReady
  cases s.src <;> simp [and_assoc]

/-- Where a byte is needed, none is left once the element has begun (R82, R391). -/
theorem beginElement_bitcnt_of_needsByte {s : State} (h : needsByte s = true) : (beginElement s).bitcnt = 0 := by
  simp only [needsByte, Bool.or_eq_true, beq_iff_eq, Bool.and_eq_true, List.isEmpty_iff] at h
  rcases h with h0 | ⟨hp, hf⟩
  · have hle := beginElement_bitcnt_le s
    rw [h0] at hle
    exact BitVec.eq_of_toNat_eq (Nat.le_zero.1 hle)
  · rw [beginElement_of_header_start hp hf]; rfl

/-- Where a bit is needed and none is left, reading takes the byte that is offered. -/
theorem fetchElement_takes {n : Nat} (hn : n < 2 ^ 32 - 1) {s : State} {q : Reader}
    (hlook : look s.codes s.reader = .more q)
    (h0 : s.bitcnt = 0) {p : InSample} {rest : List InSample} (hsrc : s.src = p :: rest) (hv : p.inValid = true)
    (he : p.inErr = false) :
    (fetchElement (n + 1) s).state.src <:+ rest ∧ (fetchElement (n + 1) s).state.inCount ≠ s.inCount := by
  have hread := readBit_of_fetched (s := s.setReader q) h0 (fetchByte_of_offered hsrc hv he)
  rcases fetchElement_succ n s with ⟨i, r, hl, -⟩ | ⟨r, hl, -⟩ | ⟨r, hl, hf⟩ <;> rw [hlook] at hl <;> cases hl
  rw [hread] at hf
  rcases hf with ⟨b, t, hr, hf⟩ | ⟨t, hr, -⟩ | ⟨e, t, hr, -⟩ <;> cases hr
  rw [hf]
  generalize hu : consumeBit q _ _ = u
  have husrc : u.src = rest := by rw [← hu, consumeBit, latchField_frame]; rfl
  have hucount : u.inCount = s.inCount + 1 := by rw [← hu, consumeBit, latchField_frame]; rfl
  obtain ⟨k, hk, hcount, -⟩ := fetchElement_bytes n u
  refine ⟨husrc ▸ fetchElement_src_suffix n u, ?_⟩
  rw [hcount, hucount]
  intro heq
  have hone : (1 : BitVec 32).toNat = 1 := rfl
  have := congrArg BitVec.toNat heq
  have hlt := s.inCount.isLt
  simp only [BitVec.toNat_add, BitVec.toNat_ofNat, hone] at this
  omega

/-- Settles O13: without a byte on offer none is taken, and one on offer is taken for the bit that is needed. -/
theorem noByteIsTakenWhileNotReady : Obligations.NoByteIsTakenWhileNotReady := by
  refine ⟨fun s t hr hneeds hready h => ?_, fun s hinv hready => ?_⟩
  · rcases step_next_cases hr h with ⟨-, rfl⟩ | ⟨ho, ⟨-, rfl⟩ | ⟨-, hc⟩ | ⟨hp, -⟩⟩
    · exact (sinkCycle_sameInput s).inCount
    · rfl
    · exact (copyStep_sameInput hc).inCount
    · have hnot (p : InSample) (rest : List InSample) (hsrc : (beginElement s).src = p :: rest)
          (hoffered : p.inValid = true ∧ p.inErr = false) : False := by
        rw [beginElement_src] at hsrc
        have := (inReady_iff s).2 ⟨hr, ho, hp, hneeds, p, rest, hsrc, hoffered.1, hoffered.2⟩
        rw [hready] at this
        cases this
      rw [(step_reading_sameInput hr ho hp h).inCount, fetchElement_inCount_of_not_offered hnot, beginElement_inCount]
  · obtain ⟨hr, ho, hp, hneeds, p, rest, hsrc, hv, he⟩ := (inReady_iff s).1 hready
    obtain ⟨t, ht⟩ := hinv.step_next
    obtain ⟨q, hlook⟩ := hinv.reading hp
    rw [← beginElement_codes, ← beginElement_reader] at hlook
    have hsame := step_reading_sameInput hr ho hp ht
    obtain ⟨hsuffix, hcount⟩ := fetchElement_takes (n := 63) (by decide) hlook (beginElement_bitcnt_of_needsByte hneeds)
      ((beginElement_src s).trans hsrc) hv he
    refine ⟨p, rest, t, hsrc, hv, he, ht, ?_, ?_⟩
    · rw [hsame.src]; exact hsuffix
    · rw [hsame.inCount, ← beginElement_inCount s]; exact hcount

/-! ### Steps that change nothing -/

/-- Decoding either takes a bit, or the bits read before are the element already. -/
theorem decode_instr_cases {c : Codes} {r q : Reader} {bits rest : List Bool} {i : Instr}
    (h : decode c r bits = .instr i q rest) : rest.length < bits.length ∨ look c r = .instr i q := by
  induction bits generalizing r with
  | nil => cases hl : look c r <;> simp only [decode, hl] at h <;> cases h; exact .inr rfl
  | cons b bs ih =>
    cases hl : look c r <;> simp only [decode, hl] at h
    case instr j q' => cases h; exact .inr rfl
    case invalid q' => cases h
    case more q' =>
      left
      rcases ih h with hlt | hl'
      · exact Nat.lt_succ_of_lt hlt
      · cases bs <;> simp only [decode, hl'] at h <;> cases h <;> simp

/-- An element of no bits, read at its start, is a symbol whose extra-bits field is of no bits. -/
theorem look_instr_at_start {c : Codes} {r q : Reader} {i : Instr} (hr : readsInput r.phase = true)
    (hpart : r.part = .start) (hfld : r.fld = []) (h : look c r = .instr i q) :
    beganIn r.phase ≠ r.phase ∧ fieldInstr c r = some i := by
  have hextra : beganIn r.phase ≠ r.phase := by
    intro hb
    obtain ⟨q', hq⟩ := look_start_more c hpart hfld hb hr
    rw [hq] at h
    cases h
  refine ⟨hextra, ?_⟩
  rw [look_field hextra] at h
  rcases lookField_cases c r with ⟨-, hl⟩ | ⟨-, ⟨j, hj, hl⟩ | ⟨-, hl⟩⟩ <;> rw [hl] at h <;> cases h
  exact hj

/-- A symbol's extra-bits field, read as an element, leads to another phase. -/
theorem exec_extra_phase_ne {c : Codes} {r : Reader} {i : Instr} (hextra : beganIn r.phase ≠ r.phase)
    (hi : fieldInstr c r = some i) {s t : State} (h : exec i s = .next t) : t.phase ≠ r.phase := by
  cases hp : r.phase <;> simp only [hp, beganIn, ne_eq, not_true] at hextra
  case lenExtra =>
    rw [fieldInstr, hp] at hi
    rw [exec_lenInstr_phase hi h]
    decide
  case distExtra =>
    have hform := fieldInstr_form hi
    rw [hp] at hform
    rcases exec_distance_phase hform h with ht | ht <;> rw [ht] <;> decide

theorem upcoming_of_sameInput {s t : State} (h : SameInput s t) : upcoming t = upcoming s := by
  rw [upcoming, upcoming, bufferBits, bufferBits, h.bitbuf, h.bitcnt, h.src]

theorem upcoming_beginElement_length_le (s : State) : (upcoming (beginElement s)).length ≤ (upcoming s).length := by
  simp only [upcoming, bufferBits, List.length_append, lsbBits_length, beginElement_src]
  exact Nat.add_le_add_right (beginElement_bitcnt_le s) _

/-- A meaning that leaves the state as it was before its element was read cannot be: the element has bits, or its phase
is left. -/
theorem element_moves {s u : State} {i : Instr} (hp : readsInput s.phase = true) {r : Reader} {rest : List Bool}
    (hd : decode s.codes s.reader (upcoming (beginElement s)) = .instr i r rest) (hreader : u.reader = r)
    (hrest : upcoming u = rest) : exec i u ≠ .next s := by
  intro he
  have hsame := exec_sameInput he
  have hle := upcoming_beginElement_length_le s
  rw [upcoming_of_sameInput hsame, hrest] at hle
  have hlook : look s.codes s.reader = .instr i r := (decode_instr_cases hd).resolve_left (Nat.not_lt.2 hle)
  obtain ⟨hpart, hfld⟩ : s.part = .start ∧ s.fld = [] := by
    rw [hsame.part, hsame.fld, show u.part = r.part from congrArg Reader.part hreader,
      show u.fld = r.fld from congrArg Reader.fld hreader]
    obtain ⟨hpart, hfld | ⟨-, hne, -⟩⟩ := look_instr_ends hlook
    · exact ⟨hpart, hfld⟩
    · exact absurd ((hsame.part.trans (congrArg Reader.part hreader)).trans hpart) hne
  obtain ⟨hextra, hfield⟩ := look_instr_at_start (r := s.reader) hp hpart hfld hlook
  exact exec_extra_phase_ne hextra hfield he rfl

/-- A stall that leaves the state as it was has used up no cycle, and none was to come. -/
theorem stall_moves {s u : State} (hread : readsOnly (beginElement s) u) {p : InSample} {rest : List InSample}
    (hsrc : u.src = p :: rest) : { u with src := rest } ≠ s := by
  intro hs
  obtain ⟨used, hused, -⟩ := hread.bytes
  have hrest : s.src = rest := by rw [← hs]
  rw [beginElement_src, hrest, hsrc] at hused
  have := congrArg List.length hused
  simp only [List.length_append, List.length_cons] at this
  omega

theorem step_reading_moves {s : State} (hr : s.rst = false) (ho : s.outValid = false) (hp : readsInput s.phase = true)
    (h : step s = .next s) : s.src = [] := by
  have raised {t : State} (ht : t.phase = .error) (hs : step s = .next t) : False := by
    rw [h] at hs
    injection hs with hs
    rw [hs, ht] at hp
    cases hp
  cases hd : decode (beginElement s).codes (beginElement s).reader (upcoming (beginElement s)) with
  | instr i r rest =>
    obtain ⟨u, hs, -, hreader, hrest⟩ := stepRunsTheDecodedElement s i r rest hr ho hp hd
    rw [beginElement_codes, beginElement_reader] at hd
    exact absurd (hs.symm.trans h) (element_moves hp hd hreader hrest)
  | invalidHuffmanCode r rest =>
    obtain ⟨u, hs, -⟩ := stepRaisesOnABadCodeword.1 s r rest hr ho hp hd
    exact (raised rfl hs).elim
  | short r =>
    obtain ⟨u, hread, -, -, hs⟩ := stepWithoutInputStallsOrRaises s r hr ho hp hd
    cases hsrc : u.src with
    | nil =>
      rw [hsrc, h] at hs
      injection hs with hs
      rw [hs, hsrc]
    | cons p rest =>
      rw [hsrc] at hs
      dsimp only at hs
      split_ifs at hs
      · exact (raised rfl hs).elim
      · exact (raised rfl hs).elim
      · rw [h] at hs
        injection hs with hs
        exact absurd hs.symm (stall_moves hread hsrc)

/-- A byte that the sink takes no longer stands on the port. -/
theorem sinkCycle_moves {s : State} (ho : s.outValid = true) (hready : s.outReady = true) : sinkCycle s ≠ s := by
  intro h
  have hv : (sinkCycle s).outValid = false := by rw [sinkCycle, if_pos hready, afterEmit_frame]; rfl
  rw [h, ho] at hv
  cases hv

/-- A byte is emitted or offered, or COPY is left. -/
theorem copyStep_moves {s : State} (ho : s.outValid = false) (hp : s.phase = .copy) : copyStep s ≠ .next s := by
  intro h
  rcases copyStep_cases s with ⟨-, hc⟩ | ⟨-, b, -, hc⟩ | ⟨-, f, -, hc⟩ <;> rw [hc] at h
  case inr.inr => cases h
  all_goals injection h with h
  · rw [← h] at hp; cases hp
  · cases hready : s.outReady
    · rw [emit_of_not_ready b hready] at h
      rw [← h] at ho
      cases ho
    · have hout : (emit b s).out = s.out ++ [b] := by rw [emit_of_ready b hready, afterEmit_out]; rfl
      rw [h] at hout
      simp at hout

/-- Settles O56: every step but a wait changes the port, the phase, the source's cycles or the bits to come. -/
theorem stepsStandStillOnlyWhileWaiting : Obligations.StepsStandStillOnlyWhileWaiting := by
  intro s h
  cases hr : s.rst
  case true =>
    rw [step_of_reset hr] at h
    injection h with h
    rw [← h] at hr
    cases hr
  refine ⟨rfl, ?_⟩
  rcases step_next_cases hr h with ⟨ho, hs⟩ | ⟨ho, ⟨hp | hp, -⟩ | ⟨hp, hc⟩ | ⟨hp, -⟩⟩
  · cases hready : s.outReady
    · exact .inr (.inr (.inl ⟨ho, rfl⟩))
    · exact absurd hs.symm (sinkCycle_moves ho hready)
  · exact .inl hp
  · exact .inr (.inl hp)
  · exact absurd hc (copyStep_moves ho hp)
  · exact .inr (.inr (.inr ⟨hp, step_reading_moves hr ho hp h⟩))

end Sys2Proof.Machine

/-! Family other: a cycle of waiting put among the source's cycles (R13, R81). -/

namespace Sys2Proof.Machine

/-! ### Nothing but reading looks at the source's coming cycles -/

/-- The same state, with other cycles to come. -/
def State.setSrc (s : State) (l : List InSample) : State := { s with src := l }

section
variable (s : State) (l : List InSample)

theorem afterEmit_setSrc : afterEmit (s.setSrc l) = (afterEmit s).setSrc l := by
  rw [afterEmit_eq, afterEmit_eq s]; rfl

theorem sinkCycle_setSrc : sinkCycle (s.setSrc l) = (sinkCycle s).setSrc l := by
  unfold sinkCycle
  rw [show (s.setSrc l).outReady = s.outReady from rfl]
  cases s.outReady
  · rfl
  · exact afterEmit_setSrc (takeByte s) l

theorem emit_setSrc (b : Byte) : emit b (s.setSrc l) = (emit b s).setSrc l := sinkCycle_setSrc (offerByte b s) l

theorem buildCl_setSrc : buildCl (s.setSrc l) = (buildCl s).setSrc l := by
  unfold buildCl
  rw [show clLens (s.setSrc l) = clLens s from rfl]
  cases build Config.maxClBits (clLens s) <;> rfl

theorem writeLens_setSrc (n : Nat) (v : BitVec 4) : writeLens n v (s.setSrc l) = (writeLens n v s).setSrc l := by
  induction n generalizing s with
  | zero => rfl
  | succ n ih => exact ih { s with lens := s.lens.set s.lenIdx.toNat v, lenIdx := s.lenIdx + 1 }

theorem buildBlockCodes_setSrc : buildBlockCodes (s.setSrc l) = (buildBlockCodes s).setSrc l := by
  unfold buildBlockCodes
  rw [show (s.setSrc l).llLen = s.llLen from rfl, show (s.setSrc l).dLen = s.dLen from rfl]
  cases build Config.maxLlDBits s.llLen
  · rfl
  · cases build Config.maxLlDBits s.dLen <;> rfl

theorem lensTurnEnd_setSrc : lensTurnEnd (s.setSrc l) = (lensTurnEnd s).setSrc l := by
  unfold lensTurnEnd
  rw [show totalLens (s.setSrc l) = totalLens s from rfl, show (s.setSrc l).lenIdx = s.lenIdx from rfl]
  split
  · rfl
  · exact buildBlockCodes_setSrc (splitLens s) l

/-- A turn of the LENS loop after its run is written. -/
theorem lensTurn_setSrc (n : Nat) (v p : BitVec 4) (b : Bool) :
    lensTurnEnd { writeLens n v (s.setSrc l) with prevLen := p, prevValid := b } =
      (lensTurnEnd { writeLens n v s with prevLen := p, prevValid := b }).setSrc l := by
  rw [writeLens_setSrc]
  exact lensTurnEnd_setSrc { writeLens n v s with prevLen := p, prevValid := b } l

theorem repeatZero_setSrc (r : Nat) : repeatZero r (s.setSrc l) = (repeatZero r s).setSrc l := by
  unfold repeatZero
  rw [show repeatFits r (s.setSrc l) = repeatFits r s from rfl]
  cases repeatFits r s
  · rfl
  · exact lensTurn_setSrc s l r 0 0 true

theorem referenceCheck_setSrc : referenceCheck (s.setSrc l) = (referenceCheck s).setSrc l := by
  unfold referenceCheck
  rw [show (s.setSrc l).hist = s.hist from rfl, show (s.setSrc l).pendDist = s.pendDist from rfl]
  split <;> rfl

theorem distanceCode_setSrc (ds x : Nat) : distanceCode ds x (s.setSrc l) = (distanceCode ds x s).setSrc l :=
  referenceCheck_setSrc { s with pendSym := BitVec.ofNat 5 ds, pendDist := distanceOf ds x } l

end

/-- StrictCheck looks at the counts and the parameter (R212). -/
theorem exec_dynHeader_setSrc (hlit hdist : BitVec 5) (hclen : BitVec 4) {s t : State}
    (h : exec (.dynHeader hlit hdist hclen) s = .next t) (l : List InSample) :
    exec (.dynHeader hlit hdist hclen) (s.setSrc l) = .next (t.setSrc l) := by
  simp only [exec, execDynHeader] at h ⊢
  generalize hs1 : { s with hlit := hlitCount hlit, hdist := hdistCount hdist, hclen := hclenCount hclen } = s1 at h
  have hs1' : { s.setSrc l with hlit := hlitCount hlit, hdist := hdistCount hdist, hclen := hclenCount hclen } =
      s1.setSrc l := by rw [← hs1]; rfl
  rw [hs1', show strictRejects (s1.setSrc l) = strictRejects s1 from rfl]
  cases hs : strictRejects s1 <;> simp only [hs, if_true, Bool.false_eq_true, if_false] at h ⊢ <;> cases h <;> rfl

theorem exec_clCodeLength_of_no_more (len : BitVec 3) {s : State} (h : ¬ s.clIdx + 1 < s.hclen) :
    exec (.clCodeLength len) s = .next (buildCl
      { s with clLen := s.clLen.set (clOrder.getD s.clIdx.toNat 19) len, clIdx := s.clIdx + 1 }) := if_neg h

/-- The end of the CLL loop looks at its counter (R213, R214). -/
theorem exec_clCodeLength_setSrc (len : BitVec 3) {s t : State} (h : exec (.clCodeLength len) s = .next t)
    (l : List InSample) : exec (.clCodeLength len) (s.setSrc l) = .next (t.setSrc l) := by
  by_cases hmore : s.clIdx + 1 < s.hclen
  · rw [exec_clCodeLength_of_more len hmore] at h
    rw [exec_clCodeLength_of_more len (s := s.setSrc l) hmore]
    cases h; rfl
  · rw [exec_clCodeLength_of_no_more len hmore] at h
    rw [exec_clCodeLength_of_no_more len (s := s.setSrc l) hmore]
    cases h
    exact congrArg _ (buildCl_setSrc
      { s with clLen := s.clLen.set (clOrder.getD s.clIdx.toNat 19) len, clIdx := s.clIdx + 1 } l)

/-- Symbol 16 looks at the previous length and CheckFit (R217, R220). -/
theorem exec_clRepPrev_setSrc (x : BitVec 2) {s t : State} (h : exec (.clRepPrev x) s = .next t) (l : List InSample) :
    exec (.clRepPrev x) (s.setSrc l) = .next (t.setSrc l) := by
  cases hv : s.prevValid
  · rw [exec_clRepPrev_of_no_previous x hv] at h
    rw [exec_clRepPrev_of_no_previous x (s := s.setSrc l) hv]
    cases h; rfl
  · cases hfits : repeatFits (repeat3 x.toNat) s
    · rw [exec_clRepPrev_of_not_fits hv hfits] at h
      rw [exec_clRepPrev_of_not_fits (s := s.setSrc l) hv hfits]
      cases h; rfl
    · rw [exec_clRepPrev_of_fits hv hfits] at h
      rw [exec_clRepPrev_of_fits (s := s.setSrc l) hv hfits]
      cases h
      exact congrArg _ (lensTurn_setSrc s l _ _ _ _)

theorem exec_stHeader_setSrc (len nlen : BitVec 16) {s t : State} (h : exec (.stHeader len nlen) s = .next t)
    (l : List InSample) : exec (.stHeader len nlen) (s.setSrc l) = .next (t.setSrc l) := by
  rw [exec_stHeader] at h ⊢
  by_cases hok : nlen = ~~~len
  · by_cases hlen : len = 0
    · rw [execStHeader_of_empty hok hlen] at h ⊢; cases h; rfl
    · rw [execStHeader_of_nonempty hok hlen] at h ⊢; cases h; rfl
  · rw [execStHeader_of_mismatch hok] at h ⊢; cases h; rfl

/-- A meaning does not look at the cycles to come. -/
theorem exec_setSrc {i : Instr} {s t : State} (h : exec i s = .next t) (l : List InSample) :
    exec i (s.setSrc l) = .next (t.setSrc l) := by
  cases meaning i
  case bhStored | bhDynamic | bhReserved | eob => cases h; rfl
  case bhFixed f => cases h; simp only [exec, execBhFixed, State.setSrc]
  case dynHeader hlit hdist hclen => exact exec_dynHeader_setSrc hlit hdist hclen h l
  case clCodeLength len => exact exec_clCodeLength_setSrc len h l
  case lens hi =>
    cases i
    case clLen sym => cases h; exact congrArg _ (lensTurn_setSrc s l 1 sym sym true)
    case clRepPrev x => exact exec_clRepPrev_setSrc x h l
    case clRepZ3 x => cases h; exact congrArg _ (repeatZero_setSrc s l _)
    case clRepZ11 x => cases h; exact congrArg _ (repeatZero_setSrc s l _)
    all_goals cases hi
  case lit b | stData b => cases h; exact congrArg _ (emit_setSrc { s with phase := _ } l b)
  case length k x hx hinstr hexec => rw [hexec] at h ⊢; cases h; rfl
  case distance ds x hx hinstr hexec => rw [hexec] at h ⊢; cases h; exact congrArg _ (distanceCode_setSrc s l ds x)
  case undefined hi => rw [exec_undefined_symbol hi] at h ⊢; cases h; rfl
  case stHeader len nlen => exact exec_stHeader_setSrc len nlen h l

end Sys2Proof.Machine

/-! Family other: with a cycle of waiting among the source's cycles, reading does the same, or waits once (R13, R81). -/

namespace Sys2Proof.Machine

/-! ### Where an element begins -/

theorem beginElement_of_begun {s : State} (h : s.phase = .storedHdr ∨ s.phase = .dynCll → s.fld ≠ []) :
    beginElement s = s := by
  rcases beginElement_cases s with ⟨hp, hf, -⟩ | ⟨hp, hf, -, -⟩ | hb
  · exact absurd hf (h (.inl hp))
  · exact absurd hf (h (.inr hp))
  · exact hb

theorem beginElement_idem (s : State) : beginElement (beginElement s) = beginElement s := by
  rcases beginElement_cases s with ⟨hp, hf, hb⟩ | ⟨hp, hf, hi, hb⟩ | hb <;> rw [hb]
  · rw [beginElement_of_header_start (s := alignToByte s) hp hf]; rfl
  · simp [beginElement, hp, hf, hi]
  · exact hb

theorem beginElement_setSrc (s : State) (l : List InSample) : beginElement (s.setSrc l) = (beginElement s).setSrc l := by
  unfold beginElement
  rw [show (s.setSrc l).phase = s.phase from rfl, show (s.setSrc l).fld = s.fld from rfl,
    show (s.setSrc l).clIdx = s.clIdx from rfl]
  split
  · split <;> rfl
  · split <;> rfl
  · rfl

/-- A state whose element has begun stays so while nothing but a look happens. -/
theorem beginElement_setReader {s : State} (hs : beginElement s = s) {q : Reader}
    (hlook : look s.codes s.reader = .more q) :
    beginElement (s.setReader q) = s.setReader q := by
  by_cases hi : s.reader.inCodeword = true
  · have hphase := look_inPhase s.codes s.reader
    rw [hlook] at hphase
    refine beginElement_of_begun fun hp => ?_
    have hq : beganIn q.phase = beganIn s.phase := hphase
    have hp : q.phase = .storedHdr ∨ q.phase = .dynCll := hp
    exfalso
    unfold Reader.inCodeword at hi
    rw [show s.reader.phase = s.phase from rfl] at hi
    rcases hp with hp | hp <;> rw [hp] at hq <;> cases hs' : s.phase <;> simp [hs', beganIn] at hi hq
  · rw [look, if_neg hi] at hlook
    obtain ⟨rfl, -⟩ := lookField_more hlook
    exact hs

/-- A bit of a field has been read, so its element has begun. -/
theorem beginElement_consumeBit (q : Reader) (b : Bool) (s : State) :
    beginElement (consumeBit q b s) = consumeBit q b s := by
  refine beginElement_of_begun fun hp => ?_
  have hphase : (consumeBit q b s).phase = q.phase :=
    (congrArg Reader.phase (consumeBit_reader q b s)).trans (pushBit_phase q b)
  have hfld : (consumeBit q b s).fld = (pushBit q b).fld := congrArg Reader.fld (consumeBit_reader q b s)
  rw [hphase] at hp
  have hi : q.inCodeword = false := by rcases hp with hp | hp <;> simp [Reader.inCodeword, hp]
  rw [hfld, pushBit_field hi]
  simp

theorem latchField_setSrc (s : State) (l : List InSample) : latchField (s.setSrc l) = (latchField s).setSrc l := by
  unfold latchField
  rw [show (s.setSrc l).phase = s.phase from rfl, show (s.setSrc l).fld = s.fld from rfl]
  split
  · split <;> rfl
  · split_ifs <;> rfl
  · split <;> rfl
  · rfl

theorem consumeBit_setSrc (q : Reader) (b : Bool) (s : State) (l : List InSample) :
    consumeBit q b (s.setSrc l) = (consumeBit q b s).setSrc l :=
  latchField_setSrc (s.setReader (pushBit q b)) l

/-! ### Reading with a cycle of waiting further ahead -/

/-- The same end of a reading, with other cycles to come. -/
def Read.setSrc {α : Type} (l : List InSample) : Read α → Read α
  | .got a s => .got a (s.setSrc l)
  | .wait s => .wait (s.setSrc l)
  | .raised e s => .raised e (s.setSrc l)

/-- With the waiting cycle `w` before `post`, an access does what it did without it, and leaves `w` further ahead. -/
def PassesBy {α : Type} (w : InSample) (post : List InSample) (x y : Read α) : Prop :=
  ∃ pre, x.state.src = pre ++ post ∧ y = x.setSrc (pre ++ w :: post)

/-- An access to the input passes a cycle of waiting by, or it needs a byte there and waits. -/
theorem readBit_insert {w : InSample} (hw : w.inValid = false ∧ w.inErr = false ∧ w.inEnd = false) {s : State}
    {pre post : List InSample} (hsrc : s.src = pre ++ post) :
    PassesBy w post (readBit s) (readBit (s.setSrc (pre ++ w :: post))) ∨
      readBit (s.setSrc (pre ++ w :: post)) = .wait s := by
  obtain ⟨hv, he, hend⟩ := hw
  by_cases h0 : s.bitcnt = 0
  case neg =>
    rw [readBit_of_held h0, readBit_of_held (s := s.setSrc (pre ++ w :: post)) h0]
    exact .inl ⟨pre, hsrc, rfl⟩
  cases pre with
  | nil =>
    refine .inr ((readBit_of_fetch_waits (s := s.setSrc (w :: post)) h0 (fetchByte_of_idle rfl he hv hend)).trans ?_)
    rw [show post = s.src from hsrc.symm]
    rfl
  | cons p ps =>
    left
    have hsrc : s.src = p :: (ps ++ post) := hsrc
    rw [List.cons_append]
    have hsrc' : (s.setSrc (p :: (ps ++ w :: post))).src = p :: (ps ++ w :: post) := rfl
    cases hpe : p.inErr
    case true =>
      rw [readBit_of_fetch_raises h0 (fetchByte_of_source_error hsrc hpe),
        readBit_of_fetch_raises (s := s.setSrc (p :: (ps ++ w :: post))) h0 (fetchByte_of_source_error hsrc' hpe)]
      exact ⟨p :: ps, hsrc, rfl⟩
    cases hpv : p.inValid
    case true =>
      rw [readBit_of_fetched h0 (fetchByte_of_offered hsrc hpv hpe),
        readBit_of_fetched (s := s.setSrc (p :: (ps ++ w :: post))) h0 (fetchByte_of_offered hsrc' hpv hpe)]
      exact ⟨ps, rfl, rfl⟩
    cases hpend : p.inEnd
    case true =>
      rw [readBit_of_fetch_raises h0 (fetchByte_of_end hsrc hpe hpv hpend),
        readBit_of_fetch_raises (s := s.setSrc (p :: (ps ++ w :: post))) h0 (fetchByte_of_end hsrc' hpe hpv hpend)]
      exact ⟨p :: ps, hsrc, rfl⟩
    case false =>
      rw [readBit_of_fetch_waits h0 (fetchByte_of_idle hsrc hpe hpv hpend),
        readBit_of_fetch_waits (s := s.setSrc (p :: (ps ++ w :: post))) h0 (fetchByte_of_idle hsrc' hpe hpv hpend)]
      exact ⟨ps, rfl, rfl⟩

/-- Reading an element passes a cycle of waiting by, or it waits there, and reading on from there is reading without that
cycle. -/
theorem fetchElement_insert {w : InSample} (hw : w.inValid = false ∧ w.inErr = false ∧ w.inEnd = false) (n : Nat)
    {s : State} {pre post : List InSample} (hsrc : s.src = pre ++ post) (hn : bitsLeft s.reader < n)
    (hbegun : beginElement s = s) :
    PassesBy w post (fetchElement n s) (fetchElement n (s.setSrc (pre ++ w :: post))) ∨
      ∃ u, fetchElement n (s.setSrc (pre ++ w :: post)) = .wait u ∧ beginElement u = u ∧
        fetchElement fetchBound u = fetchElement n s := by
  induction n generalizing s pre with
  | zero => omega
  | succ n ih =>
    have hlook' : look (s.setSrc (pre ++ w :: post)).codes (s.setSrc (pre ++ w :: post)).reader = look s.codes s.reader :=
      rfl
    have hread' (q : Reader) : (s.setSrc (pre ++ w :: post)).setReader q = (s.setReader q).setSrc (pre ++ w :: post) :=
      rfl
    simp only [fetchElement, hlook', hread']
    cases hlook : look s.codes s.reader with
    | instr i q => exact .inl ⟨pre, hsrc, rfl⟩
    | invalid q => exact .inl ⟨pre, hsrc, rfl⟩
    | more q =>
      have hleft := bitsLeft_push hlook
      dsimp only
      rcases readBit_insert hw (s := s.setReader q) hsrc with ⟨pre', hpre', hbit⟩ | hbit <;> rw [hbit]
      · cases hr : readBit (s.setReader q) with
        | got b t =>
          rw [hr] at hpre'
          dsimp only [Read.setSrc]
          rw [consumeBit_setSrc]
          refine ih ?_ ?_ (beginElement_consumeBit q b t)
          · rw [← hpre', consumeBit, latchField_frame]; rfl
          · rw [consumeBit_reader]; have := hleft b; omega
        | wait t => rw [hr] at hpre'; exact .inl ⟨pre', hpre', rfl⟩
        | raised e t => rw [hr] at hpre'; exact .inl ⟨pre', hpre', rfl⟩
      · refine .inr ⟨_, rfl, beginElement_setReader hbegun hlook, ?_⟩
        have hagain : look (s.setReader q).codes (s.setReader q).reader = .more q := look_more_again hlook
        rw [fetchBound, fetchElement, hagain]
        dsimp only
        rw [show (s.setReader q).setReader q = s.setReader q from rfl]
        cases hr : readBit (s.setReader q) with
        | got b t =>
          have hle := bitsLeft_le s.reader
          have := hleft b
          exact fetchElement_fuel _ _ _ (by rw [consumeBit_reader]; omega) (by rw [consumeBit_reader]; omega)
        | wait t => rfl
        | raised e t => rfl

/-! ### A step with a cycle of waiting further ahead -/

/-- What a step does with other cycles to come, where it does not look at them. -/
theorem step_setSrc_of_not_reading {s : State} (hr : s.rst = false) (hp : s.outValid = true ∨ readsInput s.phase = false)
    (l : List InSample) :
    (∃ t, step s = .next t ∧ t.src = s.src ∧ step (s.setSrc l) = .next (t.setSrc l)) ∨
      ∃ f, step s = .fault f ∧ step (s.setSrc l) = .fault f := by
  cases ho : s.outValid
  case true =>
    refine .inl ⟨_, step_of_offered hr ho, (sinkCycle_sameInput s).src, ?_⟩
    rw [step_of_offered (s := s.setSrc l) hr ho, sinkCycle_setSrc]
  have hp := hp.resolve_left (by simp [ho])
  by_cases hcopy : s.phase = .copy
  · rw [step_of_copy hr ho hcopy, step_of_copy (s := s.setSrc l) hr ho hcopy]
    unfold copyStep
    rw [show (s.setSrc l).copyRem = s.copyRem from rfl, show (s.setSrc l).pendDist = s.pendDist from rfl,
      show winRead s.pendDist (s.setSrc l) = winRead s.pendDist s from rfl]
    split
    · exact .inl ⟨_, rfl, rfl, rfl⟩
    · cases winRead s.pendDist s with
      | ok b => exact .inl ⟨_, rfl, (emit_sameInput b s).src, congrArg _ (emit_setSrc s l b)⟩
      | error f => exact .inr ⟨f, rfl, rfl⟩
  · have hend : s.phase = .done ∨ s.phase = .error := by
      cases hs : s.phase <;> simp [hs, readsInput] at hp hcopy ⊢
    exact .inl ⟨s, step_of_done_or_error hr ho hend, rfl, step_of_done_or_error (s := s.setSrc l) hr ho hend⟩

/-- A reading that passes the cycle by leads to a step that does. -/
theorem step_of_passesBy {w : InSample} {post : List InSample} {s s' : State} (hr : s.rst = false)
    (ho : s.outValid = false) (hp : readsInput s.phase = true) (hr' : s'.rst = false) (ho' : s'.outValid = false)
    (hp' : readsInput s'.phase = true)
    (h : PassesBy w post (fetchElement fetchBound (beginElement s)) (fetchElement fetchBound (beginElement s'))) :
    ∃ t pre, step s = .next t ∧ t.src = pre ++ post ∧ step s' = .next (t.setSrc (pre ++ w :: post)) := by
  obtain ⟨pre, hsrc, hfetch⟩ := h
  rw [step_reads hr ho hp, step_reads hr' ho' hp', hfetch]
  cases hf : fetchElement fetchBound (beginElement s) <;> rw [hf] at hsrc
  case got i u =>
    obtain ⟨t, ht⟩ := exec_next i u
    exact ⟨t, pre, ht, (exec_sameInput ht).src.trans hsrc, exec_setSrc ht _⟩
  case wait u => exact ⟨u, pre, rfl, hsrc, rfl⟩
  case raised e u => exact ⟨raise e u, pre, rfl, hsrc, rfl⟩

/-- Where a step stalled, the next one still reads. -/
theorem reading_after_stall {s u : State} (hr : s.rst = false) (ho : s.outValid = false) (hp : readsInput s.phase = true)
    (hf : fetchElement fetchBound (beginElement s) = .wait u) :
    u.rst = false ∧ u.outValid = false ∧ readsInput u.phase = true := by
  obtain ⟨hrst, -⟩ := fetchElement_host fetchBound s
  have hout := (fetchElement_sameOutput fetchBound s).outValid
  have hphase := fetchElement_inPhase fetchBound (beginElement s)
  rw [hf] at hrst hout hphase
  have hphase : beganIn u.phase = beganIn (beginElement s).phase := hphase
  refine ⟨hrst.trans hr, hout.trans ho, ?_⟩
  rw [← readsInput_beganIn, hphase, beginElement_phase, readsInput_beganIn, hp]

/-- Settles O21: a step that does not read passes the cycle by, and a step that reads passes it by or waits there. -/
theorem stallsDoNotChangeTheResult : Obligations.StallsDoNotChangeTheResult := by
  intro s pre post data hsrc hr
  generalize hwait : ({ inValid := false, inData := data, inEnd := false, inErr := false } : InSample) = w
  have hw : w.inValid = false ∧ w.inErr = false ∧ w.inEnd = false := by rw [← hwait]; exact ⟨rfl, rfl, rfl⟩
  show (∃ t pre', step s = .next t ∧ t.src = pre' ++ post ∧
      step (s.setSrc (pre ++ w :: post)) = .next (t.setSrc (pre' ++ w :: post))) ∨
    (∃ u, step (s.setSrc (pre ++ w :: post)) = .next u ∧ step u = step s) ∨
    ∃ f, step s = .fault f ∧ step (s.setSrc (pre ++ w :: post)) = .fault f
  by_cases hreads : s.outValid = true ∨ readsInput s.phase = false
  · rcases step_setSrc_of_not_reading hr hreads (pre ++ w :: post) with ⟨t, hs, ht, hs'⟩ | hfault
    · exact .inl ⟨t, pre, hs, ht.trans hsrc, hs'⟩
    · exact .inr (.inr hfault)
  · obtain ⟨ho, hp⟩ : s.outValid = false ∧ readsInput s.phase = true := by simpa using hreads
    have hinsert := fetchElement_insert hw fetchBound ((beginElement_src s).trans hsrc)
      (Nat.lt_of_le_of_lt (bitsLeft_le _) (by decide)) (beginElement_idem s)
    rw [← beginElement_setSrc] at hinsert
    rcases hinsert with hpass | ⟨u, hstall, hbegun, hagain⟩
    · exact .inl (step_of_passesBy hr ho hp hr ho hp hpass)
    · obtain ⟨hr', ho', hp'⟩ := reading_after_stall (s := s.setSrc (pre ++ w :: post)) hr ho hp hstall
      refine .inr (.inl ⟨u, ?_, ?_⟩)
      · rw [step_reads (s := s.setSrc (pre ++ w :: post)) hr ho hp, hstall]
      · rw [step_reads hr' ho' hp', step_reads hr ho hp, hbegun, hagain]

end Sys2Proof.Machine
